-- ==== Sys2Proof/Word.lean ====
section
/-! DEFINITION. The data words of the block: elements and blocks (R120, R62), and the fixed-width
codes the spec treats as bits (R93, R96, R100). -/

namespace Sys2Proof

/-- One fixed-point element: the signed integer that its `W` bits denote (R120). `W` is a parameter
of the machine (R4), so the range is a check (`inRange`), not a part of the type. -/
abbrev Elem := Int

/-- A block: its `EPB` elements, element 0 first (R62). -/
abbrev Block := List Elem

/-- The PE's 5-bit state code (R100). -/
abbrev StateCode := BitVec 5

/-- The bank's 2-bit write type (R93). -/
abbrev WType := BitVec 2

/-- A 3-bit selector: an activation or error function (R96), or `stateLearn` (R97). -/
abbrev Selector := BitVec 3

end Sys2Proof
end

