-- ==== Sys2Proof/Config.lean ====
section
/-! DEFINITION. What an implementation fixes (R4, R6) and the free values (R42, R307). The sizes are
plain data that the state carries; the functions and values that the spec leaves open are opaque
constants, so that no proof can lean on what they are. -/

namespace Sys2Proof

/-- The sizes that the source names and gives no value (R4), and the number of PEs (R283; the spec
gives it no name: log entry 3). -/
structure Params where
  /-- `W`: bits in one element. -/
  w   : Nat
  /-- `EPB`: elements in one block. -/
  epb : Nat
  /-- `NB`: blocks in one port's storage. -/
  nb  : Nat
  /-- `NP`: ports of the bank. -/
  np  : Nat
  /-- The number of PE instances. -/
  npe : Nat
  /-- `DPO`: constant added to the request's `decimalPoint`. -/
  dpo : Nat
  /-- `DPW`: bits of the request's `decimalPoint`. -/
  dpw : Nat
  /-- `SO`: bias of the request's `steepness`. -/
  so  : Nat
  /-- `SW`: bits of the request's `steepness`. -/
  sw  : Nat
  deriving DecidableEq, Repr

/-- The constraints of R4 on the sizes (`DPO >= 0` and `0 <= SO` hold of every Nat). -/
def Params.ok (c : Params) : Bool :=
  decide (2 ≤ c.w ∧ 1 ≤ c.epb ∧ 1 ≤ c.nb ∧ 1 ≤ c.np ∧ 1 ≤ c.npe ∧ 1 ≤ c.dpw ∧ 1 ≤ c.sw ∧
    c.so < 2 ^ c.sw)

/-- The sizes of `State.reset`: the bank of configuration BV (R91) with the PE fields of
configuration PV (R95). DESIGN CHOICE, log entry 2. -/
def Params.table : Params :=
  { w := 16, epb := 4, nb := 16, np := 1, npe := 1, dpo := 4, dpw := 3, so := 4, sw := 3 }

/-- Configuration PV of every PE test vector (R95); it leaves the bank's depth open, 16 here. -/
def Params.pv : Params := { Params.table with w := 32 }

namespace Config

/-- The PE registers whose reset value is unspecified (R42). -/
inductive PeReg
  | acc | weightWB | dataOut | derivative | errorOut | mse
  deriving DecidableEq, Repr

/-- The fields of a pending entry whose reset value is unspecified (R42). -/
inductive PendField
  | valid | wType | dataElement | dataBlock | addrHi | addrLo
  deriving DecidableEq, Repr

/-- Where an unspecified bank value comes from: the run (it counts global resets), the port, and the
port's generation (a fault starts a new one in every cycle, R276). -/
structure Origin where
  run  : Nat
  port : Nat
  gen  : Nat
  deriving DecidableEq, Repr

/-- A place whose value the spec leaves unspecified (R42, R276, R307). -/
inductive Place
  /-- Register `r` of PE `n`, element `j`, at the reset that began run `run`. -/
  | pe (run n : Nat) (r : PeReg) (j : Nat)
  /-- The element at linear address `addr` of a port's storage. -/
  | mem (o : Origin) (addr : Nat)
  /-- Field `f`, element `j`, of a port's pending entry. -/
  | pend (o : Origin) (f : PendField) (j : Nat)
  /-- Element `j` of a port's read data. -/
  | dout (o : Origin) (j : Nat)
  deriving DecidableEq, Repr

/-- The value at a place that the spec leaves unspecified: an arbitrary input of the run, never a
chosen constant (R42, R307). Log entries 6 to 8. -/
opaque unspecified : Place → Int

/-- `AF(in, decimal, steepness, activationFunction)` of the external unit (R6). -/
opaque af : Params → Elem → Nat → Nat → Selector → Int

/-- `EF(in, decimal, steepness, errorFunction)` of the external unit (R6). -/
opaque ef : Params → Elem → Nat → Nat → Selector → Int

/-- `DERIV(activationFunction, dataOut, decimal, steepness)` (R6, R210). -/
opaque deriv : Params → Selector → Elem → Nat → Nat → Int

/-- `MSE(errorOut, decimal)` (R6, R213). -/
opaque mse : Params → Elem → Nat → Int

end Config
end Sys2Proof
end

