-- ==== Sys2Proof/Machine/FixedPoint.lean ====
section
/-! DEFINITION. The fixed-point helpers of 40_fixed_point_helpers.md, pure functions without state,
and the derived widths of R5. -/

namespace Sys2Proof

/-- `wrap_W(v)` (R121): the integer of `[-2^(W-1), 2^(W-1))` congruent to `v` modulo `2^W`. -/
def wrap (w : Nat) (v : Int) : Elem := Int.bmod v (2 ^ w)

/-- `v >> n` (R122): `floor(v / 2^n)`. The divisor is positive, so Lean's integer division is the
floor. -/
def shr (v : Int) (n : Nat) : Int := v / ((2 ^ n : Nat) : Int)

/-- `mulshift(a, b, d)` (R123): exact product, then shift, then truncation. -/
def mulshift (w : Nat) (a b : Int) (d : Nat) : Elem := wrap w (shr (a * b) d)

/-- `accum(acc, a, b, d)` (R124). -/
def accum (w : Nat) (acc a b : Int) (d : Nat) : Elem := wrap w (acc + mulshift w a b d)

/-- `applySteepness(x, s)` (R125), `so` being the offset `SO`. -/
def applySteepness (w so : Nat) (x : Elem) (s : Nat) : Elem :=
  if s < so then shr x (so - s)
  else if s = so then x
  else wrap w (x * ((2 ^ (s - so) : Nat) : Int))

/-- The element `v` is one that `W` bits denote (R120). -/
def inRange (w : Nat) (v : Int) : Bool :=
  decide (-((2 ^ (w - 1) : Nat) : Int) ≤ v ∧ v < ((2 ^ (w - 1) : Nat) : Int))

/-- A block of `EPB` elements of `W` bits (R37, R62). -/
def fitsBlock (c : Params) (b : Block) : Bool := decide (b.length = c.epb) && b.all (inRange c.w)

/-- The bit pattern of an element (R120), as the number its bits spell. -/
def toBits (w : Nat) (v : Elem) : Nat := (v % ((2 ^ w : Nat) : Int)).toNat

/-- The element that a bit pattern denotes (R120). -/
def ofBits (w n : Nat) : Elem := wrap w (n : Int)

/-- The value at an unspecified place, as an element of `W` bits (R42). -/
def unspecElem (c : Params) (p : Config.Place) : Elem := wrap c.w (Config.unspecified p)

/-- `ceil(log2 n)` with a bound on the number of halvings. -/
def clog2Aux : Nat → Nat → Nat
  | 0, _ => 0
  | fuel + 1, n => if n ≤ 1 then 0 else 1 + clog2Aux fuel ((n + 1) / 2)

/-- `ceil(log2 n)`, 0 for `n ≤ 1`. -/
def clog2 (n : Nat) : Nat := clog2Aux n n

/-- `LOW` (R5): bits of `addrLo`. -/
def Params.low (c : Params) : Nat := clog2 c.epb

/-- `HIW` (R5): bits of `addrHi`. -/
def Params.hiw (c : Params) : Nat := clog2 c.nb

/-- `DW = W * EPB` (R4): bits in one block. -/
def Params.dw (c : Params) : Nat := c.w * c.epb

/-- `DECMAX = DPO + 2^DPW - 1` (R5): the largest shift amount. -/
def Params.decMax (c : Params) : Nat := c.dpo + 2 ^ c.dpw - 1

/-- Bits that hold every effective decimal point (R101: "enough bits for `DECMAX`"). -/
def Params.decBits (c : Params) : Nat := clog2 (c.decMax + 1)

end Sys2Proof
end

