-- ==== Sys2Proof/Syntax.lean ====
section
/-! DEFINITION. The instructions (one constructor per row of the opcode table) and the record
formats (R90). -/

namespace Sys2Proof

/-- A bank command of one port in one cycle, or the one-cycle action of a PE state (00_scope.md
section 6). A bank command carries every operand its rule reads or captures; an action's operands
are the PE's registers and the current request, so it carries none. -/
inductive Instr
  /-- `RD`: R141. -/
  | rd (raddrHi : Nat)
  /-- `WR.E`: R142. The pending entry captures all the operands (R149). -/
  | wrE (raddrHi waddrHi waddrLo : Nat) (dinElement : Elem) (dinBlock : Block)
  /-- `WR.B`: R143. -/
  | wrB (raddrHi waddrHi waddrLo : Nat) (dinElement : Elem) (dinBlock : Block)
  /-- `WR.A`: R144. -/
  | wrA (raddrHi waddrHi waddrLo : Nat) (dinElement : Elem) (dinBlock : Block)
  /-- The illegal command, `we = 1` with `wType = 3`: R271. -/
  | illegalWtype3 (raddrHi waddrHi waddrLo : Nat) (dinElement : Elem) (dinBlock : Block)
  /-- R176. -/
  | unallocated
  /-- R177. -/
  | getInfo
  /-- R178. -/
  | waitForInfo
  /-- R179. -/
  | requestInputsAndWeights
  /-- R180. -/
  | waitForInputsAndWeights
  /-- R200. -/
  | run
  /-- R201. -/
  | activationFunction
  /-- R210. -/
  | computeDerivative
  /-- R211. -/
  | requestExpectedOutput
  /-- R212. -/
  | waitForExpectedOutput
  /-- R213. -/
  | computeError
  /-- R214. -/
  | errorFunction
  /-- R215. -/
  | computeDelta
  /-- R216. -/
  | deltaWriteBack
  /-- R230. -/
  | errorBackpropRequestWeights
  /-- R231. -/
  | errorBackpropWaitForWeights
  /-- R232. -/
  | errorBackpropDeltaWeightMul
  /-- R233. -/
  | errorBackpropWeightWb
  /-- R234. -/
  | requestOutputsErrorBackprop
  /-- R235. -/
  | waitForOutputsErrorBackprop
  /-- R236. -/
  | requestDeltaWeightProductErrorBackprop
  /-- R237. -/
  | waitForDeltaWeightProductErrorBackprop
  /-- R181. -/
  | done
  /-- R250. -/
  | runUpdateSlope
  /-- R251. -/
  | slopeWb
  /-- R252. -/
  | weightUpdateRequestDelta
  /-- R253. -/
  | weightUpdateWaitForDelta
  /-- R254. -/
  | runWeightUpdate
  /-- R255. -/
  | weightUpdateWriteBack
  /-- R256. -/
  | weightUpdateWriteBias
  /-- R182. -/
  | error
  /-- State code 31: treated as ERROR (R106). -/
  | reservedState31
  deriving DecidableEq, Repr

/-- `ProcessingElementRequest` (R32), fields in the source's order. -/
structure Request where
  numWeights         : BitVec 8
  index              : BitVec 8
  decimalPoint       : Nat
  steepness          : Nat
  activationFunction : Selector
  errorFunction      : Selector
  learningRate       : Elem
  lambda             : Elem
  bias               : Elem
  iBlock             : Block
  wBlock             : Block
  learnReg           : Elem
  stateLearn         : Selector
  inLast             : Bool
  inFirst            : Bool
  dw_in              : Elem
  /-- `true` is BATCH, `false` is ONLINE (R98). -/
  tType              : Bool
  deriving DecidableEq, Repr

/-- `ProcessingElementResponse` (R34). -/
structure Response where
  data          : Elem
  dataBlock     : Block
  state         : StateCode
  index         : BitVec 8
  error         : Elem
  incWriteCount : Bool
  deriving DecidableEq, Repr

/-- The request to the activation-function unit (R35, R101). -/
structure AfRequest where
  input              : Elem
  decimal            : Nat
  steepness          : Nat
  activationFunction : Selector
  errorFunction      : Selector
  /-- `false` is activation, `true` is error. -/
  opKind             : Bool
  deriving DecidableEq, Repr

/-- The write-pending entry of a port (R38). -/
structure Pending where
  valid       : Bool
  wType       : WType
  dataElement : Elem
  dataBlock   : Block
  addrHi      : Nat
  addrLo      : Nat
  deriving DecidableEq, Repr

end Sys2Proof
end

