-- ==== Sys2Proof/WellFormed.lean ====
section
/-! DEFINITION. When the fields of an instruction or of a record fit their formats (R90 to R101).
Whether an address names an existing block is not a matter of the encoding: the meaning checks it
(R63). -/

namespace Sys2Proof

/-- The operands of a write command fit the fields of the command word (R91). -/
def writeFits (c : Params) (raddrHi waddrHi waddrLo : Nat) (dinElement : Elem)
    (dinBlock : Block) : Bool :=
  decide (raddrHi < 2 ^ c.hiw) && decide (waddrHi < 2 ^ c.hiw) && decide (waddrLo < 2 ^ c.low) &&
    inRange c.w dinElement && fitsBlock c dinBlock

/-- The instruction's operands fit its encoding under the sizes `c`. -/
def Instr.wellFormed (c : Params) : Instr → Bool
  | .rd r => decide (r < 2 ^ c.hiw)
  | .wrE r hi lo e b => writeFits c r hi lo e b
  | .wrB r hi lo e b => writeFits c r hi lo e b
  | .wrA r hi lo e b => writeFits c r hi lo e b
  | .illegalWtype3 r hi lo e b => writeFits c r hi lo e b
  | .unallocated => true
  | .getInfo => true
  | .waitForInfo => true
  | .requestInputsAndWeights => true
  | .waitForInputsAndWeights => true
  | .run => true
  | .activationFunction => true
  | .computeDerivative => true
  | .requestExpectedOutput => true
  | .waitForExpectedOutput => true
  | .computeError => true
  | .errorFunction => true
  | .computeDelta => true
  | .deltaWriteBack => true
  | .errorBackpropRequestWeights => true
  | .errorBackpropWaitForWeights => true
  | .errorBackpropDeltaWeightMul => true
  | .errorBackpropWeightWb => true
  | .requestOutputsErrorBackprop => true
  | .waitForOutputsErrorBackprop => true
  | .requestDeltaWeightProductErrorBackprop => true
  | .waitForDeltaWeightProductErrorBackprop => true
  | .done => true
  | .runUpdateSlope => true
  | .slopeWb => true
  | .weightUpdateRequestDelta => true
  | .weightUpdateWaitForDelta => true
  | .runWeightUpdate => true
  | .weightUpdateWriteBack => true
  | .weightUpdateWriteBias => true
  | .error => true
  | .reservedState31 => true

/-- The request's fields have the widths of R32. -/
def Request.fits (c : Params) (r : Request) : Bool :=
  decide (r.decimalPoint < 2 ^ c.dpw) && decide (r.steepness < 2 ^ c.sw) &&
    inRange c.w r.learningRate && inRange c.w r.lambda && inRange c.w r.bias &&
    fitsBlock c r.iBlock && fitsBlock c r.wBlock && inRange c.w r.learnReg && inRange c.w r.dw_in

/-- The response's fields have the widths of R34. -/
def Response.fits (c : Params) (r : Response) : Bool :=
  inRange c.w r.data && fitsBlock c r.dataBlock && inRange c.w r.error

/-- The unit request's fields have the widths of R101. -/
def AfRequest.fits (c : Params) (r : AfRequest) : Bool :=
  inRange c.w r.input && decide (r.decimal ≤ c.decMax) && decide (r.steepness < 2 ^ c.sw)

/-- The pending entry's fields have the widths of R38. -/
def Pending.fits (c : Params) (p : Pending) : Bool :=
  inRange c.w p.dataElement && fitsBlock c p.dataBlock && decide (p.addrHi < 2 ^ c.hiw) &&
    decide (p.addrLo < 2 ^ c.low)

end Sys2Proof
end

