-- ==== Sys2Proof/Decode.lean ====
section
/-! DEFINITION. Encodings (30_encoding.md): the packing of records, the state codes, the decoder from
words to instructions, total and rejecting by name, and the encoder. -/

namespace Sys2Proof

/-! ## Packing (R90): the first listed field in the least significant bits, each next directly above -/

/-- The number that the fields, each a width and a value, spell when packed (R90). -/
def packFields : List (Nat × Nat) → Nat
  | [] => 0
  | (k, v) :: fs => v % 2 ^ k + 2 ^ k * packFields fs

/-- The fields of the given widths that a packed number holds (R90). -/
def unpackFields : List Nat → Nat → List Nat
  | [], _ => []
  | k :: ks, n => n % 2 ^ k :: unpackFields ks (n / 2 ^ k)

/-- The total width of a packed record. -/
def totalWidth (ks : List Nat) : Nat := ks.sum

/-- A block as one number, element 0 lowest (R62). -/
def packBlock (w : Nat) (b : Block) : Nat := packFields (b.map fun v => (w, toBits w v))

/-- The block of `epb` elements that a number holds (R62). -/
def unpackBlock (w epb n : Nat) : Block := (unpackFields (List.replicate epb w) n).map (ofBits w)

/-- A flag as one bit. -/
def boolBit (b : Bool) : Nat := if b then 1 else 0

/-- One bit as a flag. -/
def bitBool (n : Nat) : Bool := n % 2 == 1

/-! ## The PE state codes (R100) -/

namespace Code
/-- Code 0 (R100). -/
def unallocated : StateCode := 0
/-- Code 1 (R100). -/
def getInfo : StateCode := 1
/-- Code 2 (R100). -/
def waitForInfo : StateCode := 2
/-- Code 3 (R100). -/
def requestInputsAndWeights : StateCode := 3
/-- Code 4 (R100). -/
def waitForInputsAndWeights : StateCode := 4
/-- Code 5 (R100). -/
def run : StateCode := 5
/-- Code 6 (R100). -/
def activationFunction : StateCode := 6
/-- Code 7 (R100). -/
def computeDerivative : StateCode := 7
/-- Code 8 (R100). -/
def requestExpectedOutput : StateCode := 8
/-- Code 9 (R100). -/
def waitForExpectedOutput : StateCode := 9
/-- Code 10 (R100). -/
def computeError : StateCode := 10
/-- Code 11 (R100). -/
def errorFunction : StateCode := 11
/-- Code 12 (R100). -/
def computeDelta : StateCode := 12
/-- Code 13 (R100). -/
def deltaWriteBack : StateCode := 13
/-- Code 14 (R100). -/
def errorBackpropRequestWeights : StateCode := 14
/-- Code 15 (R100). -/
def errorBackpropWaitForWeights : StateCode := 15
/-- Code 16 (R100). -/
def errorBackpropDeltaWeightMul : StateCode := 16
/-- Code 17 (R100). -/
def errorBackpropWeightWb : StateCode := 17
/-- Code 18 (R100). -/
def requestOutputsErrorBackprop : StateCode := 18
/-- Code 19 (R100). -/
def waitForOutputsErrorBackprop : StateCode := 19
/-- Code 20 (R100). -/
def requestDeltaWeightProductErrorBackprop : StateCode := 20
/-- Code 21 (R100). -/
def waitForDeltaWeightProductErrorBackprop : StateCode := 21
/-- Code 22 (R100). -/
def done : StateCode := 22
/-- Code 23 (R100). -/
def runUpdateSlope : StateCode := 23
/-- Code 24 (R100). -/
def slopeWb : StateCode := 24
/-- Code 25 (R100). -/
def weightUpdateRequestDelta : StateCode := 25
/-- Code 26 (R100). -/
def weightUpdateWaitForDelta : StateCode := 26
/-- Code 27 (R100). -/
def runWeightUpdate : StateCode := 27
/-- Code 28 (R100). -/
def weightUpdateWriteBack : StateCode := 28
/-- Code 29 (R100). -/
def weightUpdateWriteBias : StateCode := 29
/-- Code 30 (R100). -/
def error : StateCode := 30
/-- Code 31, reserved (R106). -/
def reservedState31 : StateCode := 31
end Code

/-- The instruction of a state code (R100). Every 5-bit code has one; the last arm is code 31 (R106). -/
def decodeState (code : StateCode) : Instr :=
  match code.toNat with
  | 0 => .unallocated
  | 1 => .getInfo
  | 2 => .waitForInfo
  | 3 => .requestInputsAndWeights
  | 4 => .waitForInputsAndWeights
  | 5 => .run
  | 6 => .activationFunction
  | 7 => .computeDerivative
  | 8 => .requestExpectedOutput
  | 9 => .waitForExpectedOutput
  | 10 => .computeError
  | 11 => .errorFunction
  | 12 => .computeDelta
  | 13 => .deltaWriteBack
  | 14 => .errorBackpropRequestWeights
  | 15 => .errorBackpropWaitForWeights
  | 16 => .errorBackpropDeltaWeightMul
  | 17 => .errorBackpropWeightWb
  | 18 => .requestOutputsErrorBackprop
  | 19 => .waitForOutputsErrorBackprop
  | 20 => .requestDeltaWeightProductErrorBackprop
  | 21 => .waitForDeltaWeightProductErrorBackprop
  | 22 => .done
  | 23 => .runUpdateSlope
  | 24 => .slopeWb
  | 25 => .weightUpdateRequestDelta
  | 26 => .weightUpdateWaitForDelta
  | 27 => .runWeightUpdate
  | 28 => .weightUpdateWriteBack
  | 29 => .weightUpdateWriteBias
  | 30 => .error
  | _ => .reservedState31

/-! ## Words -/

/-- A word that names an instruction: a bank command word (R91), or the content of a PE's state
register (R100). The two formats are told apart by where they stand, not by their bits. -/
inductive MachineWord
  | bank (bits : Nat)
  | peState (code : StateCode)
  deriving DecidableEq, Repr

/-- Why a word is no instruction. -/
inductive DecodeError
  /-- The number has more bits than a bank command word of these sizes (R91). -/
  | bankWordTooLong
  /-- The field list has not seven entries; `unpackFields` never gives that. -/
  | bankWordShape
  deriving DecidableEq, Repr

/-- The widths of the fields of a bank command word, in the order of R91: `we`, `wType`, `waddrLo`,
`waddrHi`, `raddrHi`, `dinElement`, `dinBlock`. -/
def bankWidths (c : Params) : List Nat := [1, 2, c.low, c.hiw, c.hiw, c.w, c.dw]

/-- The instruction of a bank command word (R91, R92). With `we = 0` every other field but `raddrHi`
is ignored (R92, R106). -/
def decodeBank (c : Params) (bits : Nat) : Except DecodeError Instr :=
  if 2 ^ totalWidth (bankWidths c) ≤ bits then .error .bankWordTooLong
  else
    match unpackFields (bankWidths c) bits with
    | [we, wt, lo, hi, r, e, b] =>
      if we = 0 then .ok (.rd r)
      else if wt = 0 then .ok (.wrE r hi lo (ofBits c.w e) (unpackBlock c.w c.epb b))
      else if wt = 1 then .ok (.wrB r hi lo (ofBits c.w e) (unpackBlock c.w c.epb b))
      else if wt = 2 then .ok (.wrA r hi lo (ofBits c.w e) (unpackBlock c.w c.epb b))
      else .ok (.illegalWtype3 r hi lo (ofBits c.w e) (unpackBlock c.w c.epb b))
    | _ => .error .bankWordShape

/-- The instruction of a word. -/
def decode (c : Params) : MachineWord → Except DecodeError Instr
  | .bank bits => decodeBank c bits
  | .peState code => .ok (decodeState code)

/-! ## The encoder -/

/-- The bank command word with these fields (R91). -/
def encodeBank (c : Params) (we wt raddrHi waddrHi waddrLo : Nat) (dinElement : Elem)
    (dinBlock : Block) : MachineWord :=
  .bank (packFields [(1, we), (2, wt), (c.low, waddrLo), (c.hiw, waddrHi), (c.hiw, raddrHi),
    (c.w, toBits c.w dinElement), (c.dw, packBlock c.w dinBlock)])

/-- The word of an instruction (R91, R92, R100). The operands that RD does not use are 0 (R108). -/
def encode (c : Params) : Instr → MachineWord
  | .rd r => encodeBank c 0 0 r 0 0 0 []
  | .wrE r hi lo e b => encodeBank c 1 0 r hi lo e b
  | .wrB r hi lo e b => encodeBank c 1 1 r hi lo e b
  | .wrA r hi lo e b => encodeBank c 1 2 r hi lo e b
  | .illegalWtype3 r hi lo e b => encodeBank c 1 3 r hi lo e b
  | .unallocated => .peState Code.unallocated
  | .getInfo => .peState Code.getInfo
  | .waitForInfo => .peState Code.waitForInfo
  | .requestInputsAndWeights => .peState Code.requestInputsAndWeights
  | .waitForInputsAndWeights => .peState Code.waitForInputsAndWeights
  | .run => .peState Code.run
  | .activationFunction => .peState Code.activationFunction
  | .computeDerivative => .peState Code.computeDerivative
  | .requestExpectedOutput => .peState Code.requestExpectedOutput
  | .waitForExpectedOutput => .peState Code.waitForExpectedOutput
  | .computeError => .peState Code.computeError
  | .errorFunction => .peState Code.errorFunction
  | .computeDelta => .peState Code.computeDelta
  | .deltaWriteBack => .peState Code.deltaWriteBack
  | .errorBackpropRequestWeights => .peState Code.errorBackpropRequestWeights
  | .errorBackpropWaitForWeights => .peState Code.errorBackpropWaitForWeights
  | .errorBackpropDeltaWeightMul => .peState Code.errorBackpropDeltaWeightMul
  | .errorBackpropWeightWb => .peState Code.errorBackpropWeightWb
  | .requestOutputsErrorBackprop => .peState Code.requestOutputsErrorBackprop
  | .waitForOutputsErrorBackprop => .peState Code.waitForOutputsErrorBackprop
  | .requestDeltaWeightProductErrorBackprop => .peState Code.requestDeltaWeightProductErrorBackprop
  | .waitForDeltaWeightProductErrorBackprop => .peState Code.waitForDeltaWeightProductErrorBackprop
  | .done => .peState Code.done
  | .runUpdateSlope => .peState Code.runUpdateSlope
  | .slopeWb => .peState Code.slopeWb
  | .weightUpdateRequestDelta => .peState Code.weightUpdateRequestDelta
  | .weightUpdateWaitForDelta => .peState Code.weightUpdateWaitForDelta
  | .runWeightUpdate => .peState Code.runWeightUpdate
  | .weightUpdateWriteBack => .peState Code.weightUpdateWriteBack
  | .weightUpdateWriteBias => .peState Code.weightUpdateWriteBias
  | .error => .peState Code.error
  | .reservedState31 => .peState Code.reservedState31

/-! ## The packed records -/

/-- The widths of a pending entry's fields, in the order of R94. -/
def pendingWidths (c : Params) : List Nat := [1, 2, c.low, c.hiw, c.w, c.dw]

/-- The packed pending entry (R94). -/
def Pending.pack (c : Params) (p : Pending) : Nat :=
  packFields [(1, boolBit p.valid), (2, p.wType.toNat), (c.low, p.addrLo), (c.hiw, p.addrHi),
    (c.w, toBits c.w p.dataElement), (c.dw, packBlock c.w p.dataBlock)]

/-- The pending entry that a packed number holds (R94). -/
def Pending.unpack (c : Params) (n : Nat) : Option Pending :=
  match unpackFields (pendingWidths c) n with
  | [v, wt, lo, hi, e, b] =>
    some { valid := bitBool v, wType := BitVec.ofNat 2 wt, dataElement := ofBits c.w e,
           dataBlock := unpackBlock c.w c.epb b, addrHi := hi, addrLo := lo }
  | _ => none

/-- The widths of the request's fields, in the order of R95. -/
def requestWidths (c : Params) : List Nat :=
  [8, 8, c.dpw, c.sw, 3, 3, c.w, c.w, c.w, c.dw, c.dw, c.w, 3, 1, 1, c.w, 1]

/-- The packed `ProcessingElementRequest` (R95). -/
def Request.pack (c : Params) (r : Request) : Nat :=
  packFields [(8, r.numWeights.toNat), (8, r.index.toNat), (c.dpw, r.decimalPoint),
    (c.sw, r.steepness), (3, r.activationFunction.toNat), (3, r.errorFunction.toNat),
    (c.w, toBits c.w r.learningRate), (c.w, toBits c.w r.lambda), (c.w, toBits c.w r.bias),
    (c.dw, packBlock c.w r.iBlock), (c.dw, packBlock c.w r.wBlock), (c.w, toBits c.w r.learnReg),
    (3, r.stateLearn.toNat), (1, boolBit r.inLast), (1, boolBit r.inFirst),
    (c.w, toBits c.w r.dw_in), (1, boolBit r.tType)]

/-- The request that a packed number holds (R95). -/
def Request.unpack (c : Params) (n : Nat) : Option Request :=
  match unpackFields (requestWidths c) n with
  | [nw, ix, dp, st, af, ef, lr, la, bi, ib, wb, le, sl, il, ifi, dw, tt] =>
    some { numWeights := BitVec.ofNat 8 nw, index := BitVec.ofNat 8 ix, decimalPoint := dp,
           steepness := st, activationFunction := BitVec.ofNat 3 af,
           errorFunction := BitVec.ofNat 3 ef, learningRate := ofBits c.w lr,
           lambda := ofBits c.w la, bias := ofBits c.w bi, iBlock := unpackBlock c.w c.epb ib,
           wBlock := unpackBlock c.w c.epb wb, learnReg := ofBits c.w le,
           stateLearn := BitVec.ofNat 3 sl, inLast := bitBool il, inFirst := bitBool ifi,
           dw_in := ofBits c.w dw, tType := bitBool tt }
  | _ => none

/-- The widths of the response's fields, in the order of R99. -/
def responseWidths (c : Params) : List Nat := [c.w, c.dw, 5, 8, c.w, 1]

/-- The packed `ProcessingElementResponse` (R99). -/
def Response.pack (c : Params) (r : Response) : Nat :=
  packFields [(c.w, toBits c.w r.data), (c.dw, packBlock c.w r.dataBlock), (5, r.state.toNat),
    (8, r.index.toNat), (c.w, toBits c.w r.error), (1, boolBit r.incWriteCount)]

/-- The response that a packed number holds (R99). -/
def Response.unpack (c : Params) (n : Nat) : Option Response :=
  match unpackFields (responseWidths c) n with
  | [d, db, st, ix, er, iw] =>
    some { data := ofBits c.w d, dataBlock := unpackBlock c.w c.epb db, state := BitVec.ofNat 5 st,
           index := BitVec.ofNat 8 ix, error := ofBits c.w er, incWriteCount := bitBool iw }
  | _ => none

/-- The widths of the unit request's fields, in the order of R101. -/
def afRequestWidths (c : Params) : List Nat := [c.w, c.decBits, c.sw, 3, 3, 1]

/-- The packed unit request (R101). -/
def AfRequest.pack (c : Params) (r : AfRequest) : Nat :=
  packFields [(c.w, toBits c.w r.input), (c.decBits, r.decimal), (c.sw, r.steepness),
    (3, r.activationFunction.toNat), (3, r.errorFunction.toNat), (1, boolBit r.opKind)]

/-- The unit request that a packed number holds (R101). -/
def AfRequest.unpack (c : Params) (n : Nat) : Option AfRequest :=
  match unpackFields (afRequestWidths c) n with
  | [i, d, s, af, ef, k] =>
    some { input := ofBits c.w i, decimal := d, steepness := s,
           activationFunction := BitVec.ofNat 3 af, errorFunction := BitVec.ofNat 3 ef,
           opKind := bitBool k }
  | _ => none

/-! ## Words as the opcode table numbers them -/

/-- The word that `nbits` bits of an opcode-table row spell: a number of at most 64 bits whose bits 5
to 7 are 0 is a PE state code in bits 4:0 (its higher bits, where a row has any, are bits of the
request word, which is no part of the opcode); any other is a bank command word (log entry 27). -/
def tableWord (nbits w : Nat) : MachineWord :=
  if nbits ≤ 64 ∧ w / 32 % 8 = 0 then .peState (BitVec.ofNat 5 w) else .bank w

/-- The instruction that the decoder reads from a table word, under the sizes of `Params.table`,
which are those of the table's bank rows (R91). -/
def decodeTableWord (nbits w : Nat) : Option Instr :=
  match decode Params.table (tableWord nbits w) with
  | .ok i => some i
  | .error _ => none

end Sys2Proof
end

