-- ==== Sys2Proof/Machine/State.lean ====
section
/-! DEFINITION. The state (10_state.md): the PEs, the bank ports, the clock, and the environment's
inputs as data; the reasons a step can stop; reset. Plain data throughout. -/

namespace Sys2Proof.Machine

/-- The request fields that stay constant for a whole allocation (R33). -/
structure SemiStatic where
  numWeights         : BitVec 8
  decimalPoint       : Nat
  steepness          : Nat
  activationFunction : Selector
  errorFunction      : Selector
  learningRate       : Elem
  lambda             : Elem
  bias               : Elem
  stateLearn         : Selector
  inLast             : Bool
  inFirst            : Bool
  tType              : Bool
  deriving DecidableEq, Repr

/-- The record of fault PE_ERROR_STATE, code 3 (R270, R273): PE, cycle, the state advanced from, and
the `stateLearn` code (none where the PE is found in ERROR with no valid request: log entry 11). -/
structure PeFault where
  pe         : Nat
  cycle      : Nat
  fromState  : StateCode
  stateLearn : Option Selector
  deriving DecidableEq, Repr

/-- The record of a bank port's fault (R270 to R272). -/
inductive BankFault
  /-- BANK_WTYPE_ILLEGAL, code 1 (R271). -/
  | wtypeIllegal (port cycle : Nat) (wType : WType) (waddrHi : Nat)
  /-- BANK_WTYPE_MISMATCH, code 2 (R272). -/
  | wtypeMismatch (port cycle : Nat) (pendingType wType : WType) (waddrHi : Nat)
  deriving DecidableEq, Repr

/-- What a PE drives in one cycle (R171 to R174). -/
structure PeOutputs where
  ready     : Bool
  respValid : Bool
  resp      : Response
  /-- The unit request, present exactly when `af_req_valid` is 1 (R174). -/
  afReq     : Option AfRequest
  deriving DecidableEq, Repr

/-- One processing element (R20, R25). -/
structure Pe where
  state      : StateCode
  index      : BitVec 8
  acc        : Elem
  weightWB   : Block
  dataOut    : Elem
  derivative : Elem
  errorOut   : Elem
  mse        : Elem
  hasBias    : Bool
  /-- The sticky fault record (R25, R276). -/
  peFault    : Option PeFault
  /-- MODEL: the semi-static fields of the open allocation (R302, log entry 16). -/
  alloc      : Option SemiStatic
  /-- MODEL: the unit's response, seen and not yet consumed (R302, log entry 15). -/
  afSeen     : Option Elem
  /-- MODEL: the request presented to the unit in this visit to a state that waits for it (R174,
  R302, log entry 15). -/
  afAsked    : Option AfRequest
  /-- What the PE drove in its latest turn (log entry 24). -/
  out        : PeOutputs
  deriving DecidableEq, Repr

/-- A port's storage: pairs of a linear element address (R61) and an element, addresses strictly
rising. An unlisted element has never been written (log entry 7). -/
abbrev Memory := List (Nat × Elem)

/-- One bank port (R37, R38, R41). -/
structure Port where
  mem       : Memory
  pend      : Pending
  /-- The sticky fault record (R41, R276). -/
  bankFault : Option BankFault
  /-- The read data of the port's latest turn (R40, log entry 24). -/
  dout      : Block
  /-- MODEL: names where this port's unspecified values come from (log entries 6, 8). -/
  origin    : Config.Origin
  deriving DecidableEq, Repr

/-- The inputs of one PE in one cycle (R26, R35). -/
structure PeInput where
  reqValid    : Bool
  req         : Request
  afRespValid : Bool
  /-- `af_resp.out`. -/
  afOut       : Elem
  deriving DecidableEq, Repr

/-- The inputs of one cycle: one entry per PE and one packed command word (R91) per port. -/
structure CycleInput where
  pes  : List PeInput
  cmds : List Nat
  deriving DecidableEq, Repr

/-- One line of the stimulus (R108, R109): a cycle, or the global reset (R300). -/
inductive Event
  | cycle (ci : CycleInput)
  | reset
  deriving DecidableEq, Repr

/-- The agent whose turn it is within the cycle (log entry 4). -/
inductive Agent
  | pe (n : Nat)
  | port (p : Nat)
  deriving DecidableEq, Repr

structure State where
  /-- The sizes; no step changes them (R4, log entry 1). -/
  params   : Params
  /-- The processing elements (R20, R283). -/
  pes      : List Pe
  /-- The bank ports (R37, R38). -/
  ports    : List Port
  /-- The agent that moves next (log entry 4). -/
  turn     : Agent
  /-- The global cycle count (R7). -/
  cycle    : Nat
  /-- MODEL: how many global resets there have been (log entry 13). -/
  run      : Nat
  /-- The environment's inputs, the current cycle's line first; an exhausted list is idle cycles
  (R26, R40, R301, log entry 5). -/
  stimulus : List Event
  deriving DecidableEq, Repr

/-- Why the machine stops with a fault. The spec's own faults are no stops: they are recorded in the
agent's record and the machine goes on (R276). -/
inductive Fault
  /-- Raised by the meaning of a PE action when it is no PE's turn, or the state holds no PE of that
  number. No well-formed state meets it. Safe: the machine stops. -/
  | noSuchPe
  /-- Raised by the meaning of a bank command when it is no port's turn, or the state holds no port
  of that number. No well-formed state meets it. Safe: the machine stops. -/
  | noSuchPort
  deriving DecidableEq, Repr

/-- Why the model gives a step no meaning. Each but the first is a breach of an environment duty
(R280, R302) or an input outside its format. -/
inductive Refusal
  /-- Raised by `exec` for an instruction that has no meaning yet. Safe. -/
  | notModelled (mnemonic : String)
  /-- Raised by `step` when a port's command word has more bits than its format (R91). Safe. -/
  | malformedCommand
  /-- Raised by a PE action when a valid request has a field outside its width (R32). Safe. -/
  | malformedRequest
  /-- Raised in ACTIVATION_FUNCTION and ERROR_FUNCTION when the unit's response is no `W`-bit value
  (R35). Safe. -/
  | malformedUnitResponse
  /-- Raised by a PE action when a semi-static field differs from the one the allocation began with
  (R280). Safe. -/
  | semiStaticChanged
  /-- Raised in ACTIVATION_FUNCTION and ERROR_FUNCTION when the unit withdraws or changes a response
  before the PE advances (R280). Safe. -/
  | unitResponseWithdrawn
  /-- Raised in ACTIVATION_FUNCTION and ERROR_FUNCTION when the unit responds before this visit has
  presented a request (R174, R302). Safe. -/
  | unitResponseUnasked
  /-- Raised in ACTIVATION_FUNCTION and ERROR_FUNCTION when the unit's response is not its function's
  value for the request presented (R174, R302; 93_implementation_defined.md U20). Safe. -/
  | unitAnswersAnother
  /-- Raised by a PE action on an advance with `numWeights = 0` (R280). Safe. -/
  | numWeightsZero
  /-- Raised by a bank command whose address names no block or element (R63, R280). Safe. -/
  | addressOutOfRange
  deriving DecidableEq, Repr

/-- The response record that shows the given registers (R34). -/
def responseOf (pe : Pe) (inc : Bool) : Response :=
  { data := pe.dataOut, dataBlock := pe.weightWB, state := pe.state, index := pe.index,
    error := pe.errorOut, incWriteCount := inc }

/-- The unspecified reset value of a PE register (R42). -/
def resetReg (c : Params) (run n : Nat) (r : Config.PeReg) : Elem :=
  unspecElem c (.pe run n r 0)

/-- The unspecified reset value of `weightWB` (R42). -/
def resetWeightWB (c : Params) (run n : Nat) : Block :=
  (List.range c.epb).map fun j => unspecElem c (.pe run n .weightWB j)

/-- PE `n` at the reset that begins run `run` (R42). Its outputs are those of UNALLOCATED with no
request (R301). -/
def Pe.reset (c : Params) (run n : Nat) : Pe :=
  { state := Code.unallocated, index := 0, acc := resetReg c run n .acc,
    weightWB := resetWeightWB c run n, dataOut := resetReg c run n .dataOut,
    derivative := resetReg c run n .derivative, errorOut := resetReg c run n .errorOut,
    mse := resetReg c run n .mse, hasBias := false, peFault := none, alloc := none, afSeen := none,
    afAsked := none,
    out :=
      { ready := true, respValid := false,
        resp := { data := resetReg c run n .dataOut, dataBlock := resetWeightWB c run n,
                  state := Code.unallocated, index := 0, error := resetReg c run n .errorOut,
                  incWriteCount := false },
        afReq := none } }

/-- A pending entry with every field unspecified but `valid` (R42). -/
def unspecPending (c : Params) (o : Config.Origin) (valid : Bool) : Pending :=
  { valid := valid,
    wType := BitVec.ofInt 2 (Config.unspecified (.pend o .wType 0)),
    dataElement := unspecElem c (.pend o .dataElement 0),
    dataBlock := (List.range c.epb).map fun j => unspecElem c (.pend o .dataBlock j),
    addrHi := (Config.unspecified (.pend o .addrHi 0)).toNat % 2 ^ c.hiw,
    addrLo := (Config.unspecified (.pend o .addrLo 0)).toNat % 2 ^ c.low }

/-- Unspecified read data. -/
def unspecDout (c : Params) (o : Config.Origin) : Block :=
  (List.range c.epb).map fun j => unspecElem c (.dout o j)

/-- Port `p` at the reset that begins run `run` (R42). -/
def Port.reset (c : Params) (run p : Nat) : Port :=
  { mem := [], pend := unspecPending c ⟨run, p, 0⟩ false, bankFault := none,
    dout := unspecDout c ⟨run, p, 0⟩, origin := ⟨run, p, 0⟩ }

/-- The machine of sizes `c` after the reset that begins run `run` (R42, R300, R301). -/
def State.resetOf (c : Params) (run : Nat) : State :=
  { params := c, pes := (List.range c.npe).map (Pe.reset c run),
    ports := (List.range c.np).map (Port.reset c run),
    turn := .pe 0, cycle := 0, run := run, stimulus := [] }

/-- The machine right after reset (R42, R300), with the sizes of `Params.table` (log entry 2) and an
environment that has not acted (R301). -/
def State.reset : State := State.resetOf Params.table 0

end Sys2Proof.Machine
end

