-- ==== Sys2Proof/Machine/Ops.lean ====
section
/-! DEFINITION. The named operations over storage, registers and agents: reading and writing a port's
storage (20_memory.md), the active agent, taking a fault (R276) and the one way out of it (R277,
R300). -/

namespace Sys2Proof.Machine

/-! ## Storage -/

/-- The linear address of an element (R61). -/
def elemAddr (c : Params) (hi lo : Nat) : Nat := hi * c.epb + lo

/-- The element listed at an address, if any. -/
def Memory.lookup : Memory → Nat → Option Elem
  | [], _ => none
  | (a, v) :: m, x => if a = x then some v else Memory.lookup m x

/-- Write one element, keeping the addresses strictly rising. -/
def Memory.write : Memory → Nat → Elem → Memory
  | [], x, v => [(x, v)]
  | (a, u) :: m, x, v =>
    if x < a then (x, v) :: (a, u) :: m
    else if x = a then (x, v) :: m
    else (a, u) :: Memory.write m x v

/-- Write consecutive elements, the first at address `x`. -/
def Memory.writeFrom : Memory → Nat → Block → Memory
  | m, _, [] => m
  | m, x, v :: vs => Memory.writeFrom (Memory.write m x v) (x + 1) vs

/-- Read one element of a port's storage. An element that nothing has written is the unspecified
value of its place (R307). -/
def Port.readElem (c : Params) (q : Port) (a : Nat) : Elem :=
  match Memory.lookup q.mem a with
  | some v => v
  | none => unspecElem c (.mem q.origin a)

/-- Block `hi` of a port's storage, `mem[p][hi]` (R37). -/
def Port.readBlock (c : Params) (q : Port) (hi : Nat) : Block :=
  (List.range c.epb).map fun j => q.readElem c (elemAddr c hi j)

/-- The storage after `mem[p][hi] <- blk` (R65: a whole block at once). -/
def Port.storeBlock (c : Params) (q : Port) (hi : Nat) (blk : Block) : Memory :=
  Memory.writeFrom q.mem (elemAddr c hi 0) blk

/-! ## Agents -/

/-- The PE whose turn it is, with its number. -/
def State.activePe (s : State) : Option (Nat × Pe) :=
  match s.turn with
  | .pe n => (s.pes[n]?).map fun pe => (n, pe)
  | .port _ => none

/-- The port whose turn it is, with its number. -/
def State.activePort (s : State) : Option (Nat × Port) :=
  match s.turn with
  | .port p => (s.ports[p]?).map fun q => (p, q)
  | .pe _ => none

def State.setPe (s : State) (n : Nat) (pe : Pe) : State := { s with pes := s.pes.set n pe }

def State.setPort (s : State) (p : Nat) (q : Port) : State := { s with ports := s.ports.set p q }

/-! ## The inputs of the current cycle -/

/-- A request with every field 0 (its blocks empty: an invalid request's fields are never read). -/
def zeroRequest : Request :=
  { numWeights := 0, index := 0, decimalPoint := 0, steepness := 0, activationFunction := 0,
    errorFunction := 0, learningRate := 0, lambda := 0, bias := 0, iBlock := [], wBlock := [],
    learnReg := 0, stateLearn := 0, inLast := false, inFirst := false, dw_in := 0, tType := false }

/-- The pseudo-operation IDLE (R110): no request, no unit response. -/
def PeInput.idle : PeInput :=
  { reqValid := false, req := zeroRequest, afRespValid := false, afOut := 0 }

/-- The inputs of the current cycle. An exhausted stimulus is an environment that does not act
(R301, log entry 5). -/
def State.now (s : State) : CycleInput :=
  match s.stimulus with
  | .cycle ci :: _ => ci
  | _ => { pes := [], cmds := [] }

/-- The inputs of PE `n` in the current cycle; IDLE where the line names none. -/
def State.peInput (s : State) (n : Nat) : PeInput := (s.now.pes[n]?).getD PeInput.idle

/-- The command word of port `p` in the current cycle; where the line names none, the
pseudo-operation NOP: RD of block 0, whose word is 0 (R110). -/
def State.cmdWord (s : State) (p : Nat) : Nat := (s.now.cmds[p]?).getD 0

/-! ## Taking a fault (R276), and the exit from it (R277) -/

/-- `raise F(info)`: the record is written if it is empty (R276). -/
def recordFault {α : Type} (old : Option α) (f : α) : Option α :=
  match old with
  | some g => some g
  | none => some f

/-- A PE takes PE_ERROR_STATE: the record, and nothing else, changes (R273, R276). -/
def Pe.raise (pe : Pe) (f : PeFault) : Pe := { pe with peFault := recordFault pe.peFault f }

/-- The contents of a faulted port in one cycle: storage, pending entry and read data are all
unspecified anew (R276, log entry 8). -/
def Port.unspecify (c : Params) (q : Port) : Port :=
  let o : Config.Origin := { q.origin with gen := q.origin.gen + 1 }
  { q with
    mem := [], origin := o, dout := unspecDout c o,
    pend := unspecPending c o (bitBool (Config.unspecified (.pend o .valid 0)).toNat) }

/-- A port takes a fault: the record is written, and the port's contents are unspecified from this
cycle on, the cycle's read data included (R276). -/
def Port.raise (c : Params) (q : Port) (f : BankFault) : Port :=
  Port.unspecify c { q with bankFault := recordFault q.bankFault f }

/-- The code of a bank fault (R270). -/
def BankFault.code : BankFault → Nat
  | .wtypeIllegal .. => 1
  | .wtypeMismatch .. => 2

/-- The code of PE_ERROR_STATE (R270). -/
def PeFault.code (_ : PeFault) : Nat := 3

/-- The global reset, the only exit from a fault (R277, R300): every PE and port at its reset value,
the fault records empty, the cycle count 0 again, the stimulus' next line first (log entry 13). -/
def State.globalReset (s : State) : State :=
  { State.resetOf s.params (s.run + 1) with stimulus := s.stimulus.tail }

end Sys2Proof.Machine
end

