-- ==== Sys2Proof/Machine/Bank.lean ====
section
/-! DEFINITION. The scratchpad bank (41_scratchpad_bank.md): the step function of a port (R140) in its
parts (R145 to R150), and the meanings of the five commands. -/

namespace Sys2Proof.Machine

/-- The write half of a command (R40 with `we = 1`). -/
structure WriteCmd where
  wType       : WType
  waddrHi     : Nat
  waddrLo     : Nat
  dinElement  : Elem
  dinBlock    : Block
  deriving DecidableEq, Repr

/-- Elementwise sum of two blocks, wrapped (R144). -/
def addBlocks (w : Nat) (a b : Block) : Block := List.zipWith (fun x y => wrap w (x + y)) a b

/-- The read-modify-write value without forwarding (R145), `old` being the stored block at the
pending entry's address. Type 3 is never pending (log entry 25). -/
def rmw (c : Params) (pd : Pending) (old : Block) : Block :=
  if pd.wType = 0 then old.set pd.addrLo pd.dataElement
  else if pd.wType = 1 then pd.dataBlock
  else if pd.wType = 2 then addBlocks c.w pd.dataBlock old
  else old

/-- Fold a forwarded write into the read-modify-write value (R140, R146). -/
def foldWrite (c : Params) (wc : WriteCmd) (t : Block) : Block :=
  if wc.wType = 0 then t.set wc.waddrLo wc.dinElement
  else if wc.wType = 1 then wc.dinBlock
  else if wc.wType = 2 then addBlocks c.w wc.dinBlock t
  else t

/-- `same` (R140): a valid pending entry, and a write to its block. -/
def sameBlock (pd : Pending) (wc : WriteCmd) : Bool := pd.valid && wc.waddrHi == pd.addrHi

/-- `fwd` (R146). -/
def forwards (pd : Pending) (wc : WriteCmd) : Bool := sameBlock pd wc && wc.wType == pd.wType

/-- The violation that a write raises, the type-range check first (R150, R275). -/
def violation (p cycle : Nat) (pd : Pending) (wc : WriteCmd) : Option BankFault :=
  if wc.wType = 3 then some (.wtypeIllegal p cycle wc.wType wc.waddrHi)
  else if sameBlock pd wc && !(wc.wType == pd.wType) then
    some (.wtypeMismatch p cycle pd.wType wc.wType wc.waddrHi)
  else none

/-- An address of the command names no block or element (R63, R280). -/
def outOfRange (c : Params) (raddrHi : Nat) (w : Option WriteCmd) : Bool :=
  decide (c.nb ≤ raddrHi) ||
    match w with
    | none => false
    | some wc => decide (c.nb ≤ wc.waddrHi) || decide (c.epb ≤ wc.waddrLo)

/-- `comb` (R140): the block that the pending entry, with a forwarded write folded in, makes. -/
def comb (c : Params) (q : Port) (w : Option WriteCmd) : Block :=
  let t := rmw c q.pend (q.readBlock c q.pend.addrHi)
  match w with
  | none => t
  | some wc => if forwards q.pend wc then foldWrite c wc t else t

/-- The pending entry at the end of the cycle (R149). -/
def nextPending (pd : Pending) : Option WriteCmd → Pending
  | none => { pd with valid := false }
  | some wc =>
    if forwards pd wc then { pd with valid := false }
    else { valid := true, wType := wc.wType, dataElement := wc.dinElement,
           dataBlock := wc.dinBlock, addrHi := wc.waddrHi, addrLo := wc.waddrLo }

/-- A port's cycle when no violation is raised (R140): read data (R147), store-back (R148), pending
update (R149), all from the values at the start of the cycle. -/
def Port.tick (c : Params) (q : Port) (raddrHi : Nat) (w : Option WriteCmd) : Port :=
  { q with
    dout := if q.pend.valid && raddrHi == q.pend.addrHi then comb c q w else q.readBlock c raddrHi,
    mem := if q.pend.valid then q.storeBlock c q.pend.addrHi (comb c q w) else q.mem,
    pend := nextPending q.pend w }

/-- One cycle of the active port. A faulted port's contents are unspecified whatever the command
(R276); otherwise the violations are checked before anything else (R150), then the addresses
(R280). -/
def bankCycle (raddrHi : Nat) (w : Option WriteCmd) (s : State) :
    Host.Outcome State Fault Refusal :=
  match s.activePort with
  | none => .fault .noSuchPort
  | some (p, q) =>
    if q.bankFault.isSome then .next (s.setPort p (q.unspecify s.params))
    else
      match w.bind (violation p s.cycle q.pend) with
      | some f => .next (s.setPort p (q.raise s.params f))
      | none =>
        if outOfRange s.params raddrHi w then .refused .addressOutOfRange
        else .next (s.setPort p (q.tick s.params raddrHi w))

/-- `RD` (R141). -/
def execRd (raddrHi : Nat) (s : State) : Host.Outcome State Fault Refusal :=
  bankCycle raddrHi none s

/-- `WR.E` (R142). -/
def execWrE (raddrHi waddrHi waddrLo : Nat) (dinElement : Elem) (dinBlock : Block) (s : State) :
    Host.Outcome State Fault Refusal :=
  bankCycle raddrHi (some ⟨0, waddrHi, waddrLo, dinElement, dinBlock⟩) s

/-- `WR.B` (R143). -/
def execWrB (raddrHi waddrHi waddrLo : Nat) (dinElement : Elem) (dinBlock : Block) (s : State) :
    Host.Outcome State Fault Refusal :=
  bankCycle raddrHi (some ⟨1, waddrHi, waddrLo, dinElement, dinBlock⟩) s

/-- `WR.A` (R144). -/
def execWrA (raddrHi waddrHi waddrLo : Nat) (dinElement : Elem) (dinBlock : Block) (s : State) :
    Host.Outcome State Fault Refusal :=
  bankCycle raddrHi (some ⟨2, waddrHi, waddrLo, dinElement, dinBlock⟩) s

/-- The illegal command (R271): it takes BANK_WTYPE_ILLEGAL. -/
def execIllegalWtype3 (raddrHi waddrHi waddrLo : Nat) (dinElement : Elem) (dinBlock : Block)
    (s : State) : Host.Outcome State Fault Refusal :=
  bankCycle raddrHi (some ⟨3, waddrHi, waddrLo, dinElement, dinBlock⟩) s

end Sys2Proof.Machine
end

