-- ==== Sys2Proof/Machine/Operands.lean ====
section
/-! DEFINITION. What a PE action reads: the effective decimal point (R102), the position in a block
(R104), the blocks' elements and the selected delta (R250, R254). -/

namespace Sys2Proof.Machine

/-- All that a state's rule may use besides the registers (R128, R175): the sizes, the PE's number
and the cycle (for a fault's record), the current request, and the unit's response. -/
structure PeCtx where
  params : Params
  pe     : Nat
  cycle  : Nat
  req    : Request
  afOut  : Elem
  deriving DecidableEq, Repr

/-- `decimal = DPO + req.decimalPoint` (R102). -/
def effDecimal (c : Params) (r : Request) : Nat := c.dpo + r.decimalPoint

/-- `k = index mod EPB` (R104). -/
def weightPos (c : Params) (pe : Pe) : Nat := pe.index.toNat % c.epb

/-- Element `k` of a block (R104). A block that fits its format has every element asked for. -/
def blockElem (b : Block) (k : Nat) : Elem := b.getD k 0

def PeCtx.dec (x : PeCtx) : Nat := effDecimal x.params x.req

def PeCtx.pos (x : PeCtx) (pe : Pe) : Nat := weightPos x.params pe

/-- `req.iBlock[k]`. -/
def PeCtx.input (x : PeCtx) (pe : Pe) : Elem := blockElem x.req.iBlock (x.pos pe)

/-- `req.wBlock[k]`. -/
def PeCtx.weight (x : PeCtx) (pe : Pe) : Elem := blockElem x.req.wBlock (x.pos pe)

/-- `inFirst ? errorOut : learnReg` (R250, R254). -/
def PeCtx.deltaSource (x : PeCtx) (pe : Pe) : Elem :=
  if x.req.inFirst then pe.errorOut else x.req.learnReg

/-- The semi-static fields of a request (R33). -/
def semiStatic (r : Request) : SemiStatic :=
  { numWeights := r.numWeights, decimalPoint := r.decimalPoint, steepness := r.steepness,
    activationFunction := r.activationFunction, errorFunction := r.errorFunction,
    learningRate := r.learningRate, lambda := r.lambda, bias := r.bias, stateLearn := r.stateLearn,
    inLast := r.inLast, inFirst := r.inFirst, tType := r.tType }

end Sys2Proof.Machine
end

