-- ==== Sys2Proof/Machine/Flags.lean ====
section
/-! DEFINITION. The predicates that the state rules branch on (R175), and the selector codes they
compare with (R96, R97). The block has no arithmetic flags (R130). -/

namespace Sys2Proof.Machine

/-- The codes of `stateLearn` (R97). -/
def Phase.feedforward : Selector := 0
def Phase.learnFeedforward : Selector := 1
def Phase.updateSlope : Selector := 2
def Phase.errorBackprop : Selector := 3
def Phase.weightUpdate : Selector := 4

/-- The codes of the selectors (R96). -/
def Act.linear : Selector := 0
def Act.sigmoid : Selector := 1
def Act.sigmoidStepwise : Selector := 2
def Act.sigmoidSymmetric : Selector := 3
def Act.sigmoidSymmetricStepwise : Selector := 4
def Act.threshold : Selector := 5
def Act.thresholdSymmetric : Selector := 6

/-- `last = (index == nw - 1)`, before the increment (R175); never true for `nw = 0`. -/
def lastWeight (r : Request) (pe : Pe) : Bool := pe.index.toNat + 1 == r.numWeights.toNat

/-- `blkEnd = (k == EPB - 1)`, "block exhausted" (R175). -/
def blockEnd (c : Params) (pe : Pe) : Bool := weightPos c pe + 1 == c.epb

/-- `last or blkEnd`: exhaustion (R232, R250, R254). -/
def exhausted (c : Params) (r : Request) (pe : Pe) : Bool := lastWeight r pe || blockEnd c pe

/-- `full = (index == nw)` (R175). -/
def allWeights (r : Request) (pe : Pe) : Bool := pe.index == r.numWeights

/-- `ebp` (R175). -/
def backprop (r : Request) : Bool := r.stateLearn == Phase.errorBackprop

/-- `ffLast` (R175). -/
def feedforwardLast (r : Request) : Bool := r.stateLearn == Phase.learnFeedforward && r.inLast

/-- `batch` (R175). -/
def batch (r : Request) : Bool := r.tType

/-- `symmetric` (R96, R175). -/
def symmetric (r : Request) : Bool :=
  r.activationFunction == Act.sigmoidSymmetric ||
    r.activationFunction == Act.sigmoidSymmetricStepwise ||
    r.activationFunction == Act.thresholdSymmetric

end Sys2Proof.Machine
end

