-- ==== Sys2Proof/Machine/Handshake.lean ====
section
/-! DEFINITION. The PE's outputs and its cycle (42_pe_control.md, R170 to R174), and the duties of the
environment that the model checks (R280, R302). -/

namespace Sys2Proof.Machine

/-- The two states that wait for the external unit (R171). -/
def waitsForUnit (code : StateCode) : Bool :=
  code == Code.activationFunction || code == Code.errorFunction

/-- ERROR, and code 31, which is treated as ERROR (R106). -/
def isErrorState (code : StateCode) : Bool :=
  code == Code.error || code == Code.reservedState31

/-- `ready` (R171). -/
def ready (code : StateCode) (inp : PeInput) : Bool :=
  !isErrorState code && (!waitsForUnit code || inp.afRespValid)

/-- `advance = req_valid and ready` (R170). -/
def advances (code : StateCode) (inp : PeInput) : Bool := inp.reqValid && ready code inp

/-- The set EMIT (R172). -/
def emitting : List StateCode :=
  [Code.getInfo, Code.requestInputsAndWeights, Code.deltaWriteBack, Code.done,
   Code.weightUpdateWriteBack, Code.weightUpdateWriteBias, Code.errorBackpropWeightWb, Code.slopeWb,
   Code.requestExpectedOutput, Code.errorBackpropRequestWeights, Code.requestOutputsErrorBackprop,
   Code.requestDeltaWeightProductErrorBackprop, Code.weightUpdateRequestDelta]

/-- `resp_valid` (R172). -/
def respValid (code : StateCode) : Bool := emitting.contains code

/-- `inc(state)` (R173). -/
def incWrite (code : StateCode) (r : Request) (pe : Pe) : Bool :=
  if code == Code.deltaWriteBack then !batch r
  else if code == Code.errorBackpropWeightWb || code == Code.slopeWb then allWeights r pe
  else code == Code.done || code == Code.weightUpdateWriteBias

/-- The request to the unit (R174). -/
def unitRequest (c : Params) (code : StateCode) (r : Request) (pe : Pe) : AfRequest :=
  { input := if code == Code.errorFunction then pe.errorOut else pe.acc,
    decimal := effDecimal c r, steepness := r.steepness,
    activationFunction := r.activationFunction, errorFunction := r.errorFunction,
    opKind := code == Code.errorFunction }

/-- The unit's function on a request: EF for an error function, AF otherwise (R6, R174). -/
def unitAnswer (c : Params) (a : AfRequest) : Elem :=
  wrap c.w
    (if a.opKind then Config.ef c a.input a.decimal a.steepness a.errorFunction
     else Config.af c a.input a.decimal a.steepness a.activationFunction)

/-- The request that the unit has been presented in this visit to a state that waits for it: this
cycle's, or the latest one before (R174). -/
def presented (c : Params) (code : StateCode) (pe : Pe) (inp : PeInput) : Option AfRequest :=
  if waitsForUnit code then
    if inp.reqValid then some (unitRequest c code inp.req pe) else pe.afAsked
  else none

/-- What the PE drives in a cycle in which it is in state `code` (R171 to R174, R34). -/
def peOutputs (c : Params) (code : StateCode) (pe : Pe) (inp : PeInput) : PeOutputs :=
  { ready := ready code inp, respValid := respValid code,
    resp := responseOf pe (advances code inp && incWrite code inp.req pe),
    afReq := if inp.reqValid && waitsForUnit code then some (unitRequest c code inp.req pe)
             else none }

/-! ## The environment's duties (R280, R302) -/

/-- A semi-static field differs from the one the open allocation began with (R280). -/
def semiStaticBroken (pe : Pe) (inp : PeInput) : Bool :=
  match pe.alloc with
  | none => false
  | some ss => inp.reqValid && !(semiStatic inp.req == ss)

/-- A response that the unit has given is gone or changed before the PE advanced (R280). -/
def unitResponseBroken (code : StateCode) (pe : Pe) (inp : PeInput) : Bool :=
  match pe.afSeen with
  | none => false
  | some v => waitsForUnit code && !(inp.afRespValid && inp.afOut == v)

/-- A response of the unit in a state that waits for it that answers no request of this visit, or
another request than the one presented (R174, R302; 93_implementation_defined.md U20). -/
def unitAnswerBreach (c : Params) (code : StateCode) (pe : Pe) (inp : PeInput) : Option Refusal :=
  if waitsForUnit code && inp.afRespValid then
    match presented c code pe inp with
    | none => some .unitResponseUnasked
    | some a => if inp.afOut = unitAnswer c a then none else some .unitAnswersAnother
  else none

/-- The breach of a duty in this cycle, if there is one (R280, R302; log entries 14 to 19). -/
def peBreach (c : Params) (code : StateCode) (pe : Pe) (inp : PeInput) : Option Refusal :=
  if inp.reqValid && !inp.req.fits c then some .malformedRequest
  else if waitsForUnit code && inp.afRespValid && !inRange c.w inp.afOut then
    some .malformedUnitResponse
  else if semiStaticBroken pe inp then some .semiStaticChanged
  else if unitResponseBroken code pe inp then some .unitResponseWithdrawn
  else if advances code inp && inp.req.numWeights == 0 then some .numWeightsZero
  else unitAnswerBreach c code pe inp

/-! ## The cycle (R170) -/

/-- The open allocation after an advance from `code` to `next`: it opens on the advance that leaves
UNALLOCATED and closes on the one that enters it (R302). -/
def nextAlloc (code next : StateCode) (r : Request) (old : Option SemiStatic) : Option SemiStatic :=
  if next == Code.unallocated then none
  else if code == Code.unallocated then some (semiStatic r)
  else old

/-- An advance: the state's rule, with the outputs of the cycle (R170). -/
def advancePe (code : StateCode) (rule : PeCtx → Pe → Pe) (x : PeCtx) (inp : PeInput) (pe : Pe) : Pe :=
  let t := rule x pe
  { t with out := peOutputs x.params code pe inp,
           alloc := nextAlloc code t.state inp.req pe.alloc, afSeen := none,
           afAsked := none }

/-- A hold: every register keeps its value (R21, R170). A request that the unit has been presented and
a response that it has given are remembered (R302). -/
def holdPe (c : Params) (code : StateCode) (inp : PeInput) (pe : Pe) : Pe :=
  { pe with out := peOutputs c code pe inp,
            afSeen := if waitsForUnit code && inp.afRespValid then some inp.afOut else pe.afSeen,
            afAsked := presented c code pe inp }

/-- The context of the rules of PE `n` in the current cycle. -/
def State.peCtx (s : State) (n : Nat) : PeCtx :=
  { params := s.params, pe := n, cycle := s.cycle, req := (s.peInput n).req,
    afOut := (s.peInput n).afOut }

/-- One cycle of the active PE in state `code`, whose rule is `rule` (R170): advance or hold, unless
a duty is broken. -/
def peCycle (code : StateCode) (rule : PeCtx → Pe → Pe) (s : State) :
    Host.Outcome State Fault Refusal :=
  match s.activePe with
  | none => .fault .noSuchPe
  | some (n, pe) =>
    match peBreach s.params code pe (s.peInput n) with
    | some r => .refused r
    | none =>
      if advances code (s.peInput n) then
        .next (s.setPe n (advancePe code rule (s.peCtx n) (s.peInput n) pe))
      else .next (s.setPe n (holdPe s.params code (s.peInput n) pe))

/-- The record of a PE that is found in ERROR (R273 case b). -/
def foundInError (s : State) (n : Nat) (code : StateCode) : PeFault :=
  { pe := n, cycle := s.cycle, fromState := code,
    stateLearn := if (s.peInput n).reqValid then some (s.peInput n).req.stateLearn else none }

/-- One cycle of the active PE in ERROR (R182): never ready, nothing written but the fault record
where it is still empty, whatever the request. -/
def errorCycle (code : StateCode) (s : State) : Host.Outcome State Fault Refusal :=
  match s.activePe with
  | none => .fault .noSuchPe
  | some (n, pe) =>
    .next (s.setPe n
      { pe.raise (foundInError s n code) with out := peOutputs s.params code pe (s.peInput n) })

end Sys2Proof.Machine
end

