-- ==== Sys2Proof/Machine/PeBackprop.lean ====
section
/-! DEFINITION. The error back-propagation states (45_pe_backprop.md, R230 to R237). -/

namespace Sys2Proof.Machine

/-- R230. -/
def ruleErrorBackpropRequestWeights (_ : PeCtx) (pe : Pe) : Pe :=
  { pe with state := Code.errorBackpropWaitForWeights }

/-- R231. -/
def ruleErrorBackpropWaitForWeights (_ : PeCtx) (pe : Pe) : Pe :=
  { pe with state := Code.errorBackpropDeltaWeightMul }

/-- R232: only element `k` of `weightWB` is written. -/
def ruleErrorBackpropDeltaWeightMul (x : PeCtx) (pe : Pe) : Pe :=
  { pe with
    weightWB := pe.weightWB.set (x.pos pe) (mulshift x.params.w pe.errorOut (x.weight pe) x.dec),
    index := pe.index + 1,
    state := if exhausted x.params x.req pe then Code.errorBackpropWeightWb
             else Code.errorBackpropDeltaWeightMul }

/-- R233. -/
def ruleErrorBackpropWeightWb (x : PeCtx) (pe : Pe) : Pe :=
  { pe with
    state := if !allWeights x.req pe then Code.errorBackpropRequestWeights
             else if backprop x.req then Code.unallocated
             else Code.done }

/-- R234. -/
def ruleRequestOutputsErrorBackprop (_ : PeCtx) (pe : Pe) : Pe :=
  { pe with state := Code.waitForOutputsErrorBackprop }

/-- R235: the stored output is reloaded from `learnReg`. -/
def ruleWaitForOutputsErrorBackprop (x : PeCtx) (pe : Pe) : Pe :=
  { pe with
    dataOut := x.req.learnReg, state := Code.requestDeltaWeightProductErrorBackprop }

/-- R236. -/
def ruleRequestDeltaWeightProductErrorBackprop (_ : PeCtx) (pe : Pe) : Pe :=
  { pe with state := Code.waitForDeltaWeightProductErrorBackprop }

/-- R237. -/
def ruleWaitForDeltaWeightProductErrorBackprop (_ : PeCtx) (pe : Pe) : Pe :=
  { pe with state := Code.computeDerivative }

/-- ERROR_BACKPROP_REQUEST_WEIGHTS (R230). -/
def execErrorBackpropRequestWeights (s : State) : Host.Outcome State Fault Refusal :=
  peCycle Code.errorBackpropRequestWeights ruleErrorBackpropRequestWeights s

/-- ERROR_BACKPROP_WAIT_FOR_WEIGHTS (R231). -/
def execErrorBackpropWaitForWeights (s : State) : Host.Outcome State Fault Refusal :=
  peCycle Code.errorBackpropWaitForWeights ruleErrorBackpropWaitForWeights s

/-- ERROR_BACKPROP_DELTA_WEIGHT_MUL (R232). -/
def execErrorBackpropDeltaWeightMul (s : State) : Host.Outcome State Fault Refusal :=
  peCycle Code.errorBackpropDeltaWeightMul ruleErrorBackpropDeltaWeightMul s

/-- ERROR_BACKPROP_WEIGHT_WB (R233). -/
def execErrorBackpropWeightWb (s : State) : Host.Outcome State Fault Refusal :=
  peCycle Code.errorBackpropWeightWb ruleErrorBackpropWeightWb s

/-- REQUEST_OUTPUTS_ERROR_BACKPROP (R234). -/
def execRequestOutputsErrorBackprop (s : State) : Host.Outcome State Fault Refusal :=
  peCycle Code.requestOutputsErrorBackprop ruleRequestOutputsErrorBackprop s

/-- WAIT_FOR_OUTPUTS_ERROR_BACKPROP (R235). -/
def execWaitForOutputsErrorBackprop (s : State) : Host.Outcome State Fault Refusal :=
  peCycle Code.waitForOutputsErrorBackprop ruleWaitForOutputsErrorBackprop s

/-- REQUEST_DELTA_WEIGHT_PRODUCT_ERROR_BACKPROP (R236). -/
def execRequestDeltaWeightProductErrorBackprop (s : State) : Host.Outcome State Fault Refusal :=
  peCycle Code.requestDeltaWeightProductErrorBackprop
    ruleRequestDeltaWeightProductErrorBackprop s

/-- WAIT_FOR_DELTA_WEIGHT_PRODUCT_ERROR_BACKPROP (R237). -/
def execWaitForDeltaWeightProductErrorBackprop (s : State) : Host.Outcome State Fault Refusal :=
  peCycle Code.waitForDeltaWeightProductErrorBackprop
    ruleWaitForDeltaWeightProductErrorBackprop s

end Sys2Proof.Machine
end

