-- ==== Sys2Proof/Machine/PeControl.lean ====
section
/-! DEFINITION. The PE states that allocate, fetch and release (42_pe_control.md, R176 to R182), and
the reserved state code (R106). A rule gives the registers after an advance; all of it is read from
the registers and the request of the cycle's start (R8). -/

namespace Sys2Proof.Machine

/-- The record of a PE whose advance selects ERROR (R273 case a). -/
def selectedError (x : PeCtx) (code : StateCode) : PeFault :=
  { pe := x.pe, cycle := x.cycle, fromState := code, stateLearn := some x.req.stateLearn }

/-- The advance that selects ERROR on a reserved `stateLearn` (R178, R180): the state becomes ERROR
and PE_ERROR_STATE is taken. -/
def enterError (code : StateCode) (x : PeCtx) (pe : Pe) : Pe :=
  ({ pe with state := Code.error }).raise (selectedError x code)

/-- R176. -/
def ruleUnallocated (_ : PeCtx) (pe : Pe) : Pe :=
  { pe with hasBias := false, state := Code.getInfo }

/-- R177. -/
def ruleGetInfo (_ : PeCtx) (pe : Pe) : Pe :=
  { pe with dataOut := 0, index := 0, state := Code.waitForInfo }

/-- R178. -/
def ruleWaitForInfo (x : PeCtx) (pe : Pe) : Pe :=
  let ph := x.req.stateLearn
  if ph = Phase.feedforward ∨ ph = Phase.learnFeedforward ∨ ph = Phase.updateSlope then
    { pe with state := Code.requestInputsAndWeights }
  else if ph = Phase.errorBackprop then { pe with state := Code.requestOutputsErrorBackprop }
  else if ph = Phase.weightUpdate then { pe with state := Code.weightUpdateRequestDelta }
  else enterError Code.waitForInfo x pe

/-- R179: the bias is loaded once per allocation. -/
def ruleRequestInputsAndWeights (x : PeCtx) (pe : Pe) : Pe :=
  if pe.hasBias then { pe with state := Code.waitForInputsAndWeights }
  else { pe with hasBias := true, acc := x.req.bias, state := Code.waitForInputsAndWeights }

/-- R180. -/
def ruleWaitForInputsAndWeights (x : PeCtx) (pe : Pe) : Pe :=
  let ph := x.req.stateLearn
  if ph = Phase.feedforward ∨ ph = Phase.learnFeedforward then { pe with state := Code.run }
  else if ph = Phase.updateSlope then { pe with state := Code.runUpdateSlope }
  else if ph = Phase.errorBackprop then
    { pe with state := if batch x.req then Code.runUpdateSlope else Code.runWeightUpdate }
  else if ph = Phase.weightUpdate then { pe with state := Code.runWeightUpdate }
  else enterError Code.waitForInputsAndWeights x pe

/-- R181. -/
def ruleDone (_ : PeCtx) (pe : Pe) : Pe := { pe with state := Code.unallocated }

/-- UNALLOCATED (R176). -/
def execUnallocated (s : State) : Host.Outcome State Fault Refusal :=
  peCycle Code.unallocated ruleUnallocated s

/-- GET_INFO (R177). -/
def execGetInfo (s : State) : Host.Outcome State Fault Refusal :=
  peCycle Code.getInfo ruleGetInfo s

/-- WAIT_FOR_INFO (R178). -/
def execWaitForInfo (s : State) : Host.Outcome State Fault Refusal :=
  peCycle Code.waitForInfo ruleWaitForInfo s

/-- REQUEST_INPUTS_AND_WEIGHTS (R179). -/
def execRequestInputsAndWeights (s : State) : Host.Outcome State Fault Refusal :=
  peCycle Code.requestInputsAndWeights ruleRequestInputsAndWeights s

/-- WAIT_FOR_INPUTS_AND_WEIGHTS (R180). -/
def execWaitForInputsAndWeights (s : State) : Host.Outcome State Fault Refusal :=
  peCycle Code.waitForInputsAndWeights ruleWaitForInputsAndWeights s

/-- DONE (R181). -/
def execDone (s : State) : Host.Outcome State Fault Refusal :=
  peCycle Code.done ruleDone s

/-- ERROR (R182): absorbing. -/
def execError (s : State) : Host.Outcome State Fault Refusal :=
  errorCycle Code.error s

/-- State code 31: treated as ERROR (R106, R182; log entry 12). -/
def execReservedState31 (s : State) : Host.Outcome State Fault Refusal :=
  errorCycle Code.reservedState31 s

end Sys2Proof.Machine
end

