-- ==== Sys2Proof/Machine/PeErrorDelta.lean ====
section
/-! DEFINITION. The states between a neuron's output and its delta (44_pe_error_delta.md, R210 to
R216). -/

namespace Sys2Proof.Machine

/-- The derivative of R210: the parameter DERIV, a `W`-bit value (R6). -/
def derivativeOf (x : PeCtx) (pe : Pe) : Elem :=
  wrap x.params.w
    (Config.deriv x.params x.req.activationFunction pe.dataOut x.dec x.req.steepness)

/-- R210. -/
def ruleComputeDerivative (x : PeCtx) (pe : Pe) : Pe :=
  { pe with
    derivative := derivativeOf x pe,
    state := if backprop x.req then Code.computeDelta else Code.requestExpectedOutput }

/-- R211. -/
def ruleRequestExpectedOutput (_ : PeCtx) (pe : Pe) : Pe :=
  { pe with state := Code.waitForExpectedOutput }

/-- R212. -/
def ruleWaitForExpectedOutput (_ : PeCtx) (pe : Pe) : Pe := { pe with state := Code.computeError }

/-- The new `errorOut` of R213: the exact difference, halved with floor for a symmetric selector,
then truncated. -/
def errorOf (x : PeCtx) (pe : Pe) : Elem :=
  let e := x.req.learnReg - pe.dataOut
  wrap x.params.w (if symmetric x.req then shr e 1 else e)

/-- R213. The mean-squared error is the parameter MSE, a `W`-bit value (R6). -/
def ruleComputeError (x : PeCtx) (pe : Pe) : Pe :=
  { pe with
    errorOut := errorOf x pe,
    mse := wrap x.params.w (Config.mse x.params (errorOf x pe) x.dec),
    state := Code.errorFunction }

/-- R214: the unit's response becomes the error. -/
def ruleErrorFunction (x : PeCtx) (pe : Pe) : Pe :=
  { pe with errorOut := x.afOut, state := Code.computeDelta }

/-- `der` of R215: the integer 1 stands in for a derivative of exactly 0 (R279). -/
def nonzeroDerivative (pe : Pe) : Elem := if pe.derivative = 0 then 1 else pe.derivative

/-- R215. -/
def ruleComputeDelta (x : PeCtx) (pe : Pe) : Pe :=
  if backprop x.req then
    { pe with
      errorOut := mulshift x.params.w (nonzeroDerivative pe) x.req.dw_in x.dec,
      index := 0,
      state := if x.req.inFirst then Code.requestInputsAndWeights else Code.deltaWriteBack }
  else
    { pe with
      errorOut := mulshift x.params.w (nonzeroDerivative pe) pe.errorOut x.dec,
      index := 0,
      state := Code.deltaWriteBack }

/-- R216. -/
def ruleDeltaWriteBack (x : PeCtx) (pe : Pe) : Pe :=
  { pe with
    state := if backprop x.req && batch x.req then Code.requestInputsAndWeights
             else if backprop x.req then Code.errorBackpropRequestWeights
             else if feedforwardLast x.req then Code.errorBackpropRequestWeights
             else Code.done }

/-- COMPUTE_DERIVATIVE (R210). -/
def execComputeDerivative (s : State) : Host.Outcome State Fault Refusal :=
  peCycle Code.computeDerivative ruleComputeDerivative s

/-- REQUEST_EXPECTED_OUTPUT (R211). -/
def execRequestExpectedOutput (s : State) : Host.Outcome State Fault Refusal :=
  peCycle Code.requestExpectedOutput ruleRequestExpectedOutput s

/-- WAIT_FOR_EXPECTED_OUTPUT (R212). -/
def execWaitForExpectedOutput (s : State) : Host.Outcome State Fault Refusal :=
  peCycle Code.waitForExpectedOutput ruleWaitForExpectedOutput s

/-- COMPUTE_ERROR (R213). -/
def execComputeError (s : State) : Host.Outcome State Fault Refusal :=
  peCycle Code.computeError ruleComputeError s

/-- ERROR_FUNCTION (R214): it holds until the unit responds (R171). -/
def execErrorFunction (s : State) : Host.Outcome State Fault Refusal :=
  peCycle Code.errorFunction ruleErrorFunction s

/-- COMPUTE_DELTA (R215). -/
def execComputeDelta (s : State) : Host.Outcome State Fault Refusal :=
  peCycle Code.computeDelta ruleComputeDelta s

/-- DELTA_WRITE_BACK (R216). -/
def execDeltaWriteBack (s : State) : Host.Outcome State Fault Refusal :=
  peCycle Code.deltaWriteBack ruleDeltaWriteBack s

end Sys2Proof.Machine
end

