-- ==== Sys2Proof/Machine/PeFeedforward.lean ====
section
/-! DEFINITION. The feed-forward states (43_pe_feedforward.md, R200 and R201). -/

namespace Sys2Proof.Machine

/-- R200: one multiply-accumulate; `last` has priority over `blkEnd`. -/
def ruleRun (x : PeCtx) (pe : Pe) : Pe :=
  { pe with
    acc := accum x.params.w pe.acc (x.input pe) (x.weight pe) x.dec,
    index := pe.index + 1,
    state := if lastWeight x.req pe then Code.activationFunction
             else if blockEnd x.params pe then Code.requestInputsAndWeights
             else Code.run }

/-- R201: the unit's response becomes the output. -/
def ruleActivationFunction (x : PeCtx) (pe : Pe) : Pe :=
  { pe with
    dataOut := x.afOut,
    state := if feedforwardLast x.req then Code.computeDerivative else Code.done }

/-- RUN (R200). -/
def execRun (s : State) : Host.Outcome State Fault Refusal :=
  peCycle Code.run ruleRun s

/-- ACTIVATION_FUNCTION (R201): it holds until the unit responds (R171). -/
def execActivationFunction (s : State) : Host.Outcome State Fault Refusal :=
  peCycle Code.activationFunction ruleActivationFunction s

end Sys2Proof.Machine
end

