-- ==== Sys2Proof/Machine/PeUpdate.lean ====
section
/-! DEFINITION. The slope-update and weight-update states (46_pe_slope_weight_update.md, R250 to
R256). -/

namespace Sys2Proof.Machine

/-- R250. -/
def ruleRunUpdateSlope (x : PeCtx) (pe : Pe) : Pe :=
  { pe with
    weightWB := pe.weightWB.set (x.pos pe)
      (mulshift x.params.w (x.deltaSource pe) (x.input pe) x.dec),
    index := pe.index + 1,
    state := if exhausted x.params x.req pe then Code.slopeWb else Code.runUpdateSlope }

/-- R251. -/
def ruleSlopeWb (x : PeCtx) (pe : Pe) : Pe :=
  { pe with
    state := if allWeights x.req pe then Code.unallocated else Code.requestInputsAndWeights }

/-- R252. -/
def ruleWeightUpdateRequestDelta (_ : PeCtx) (pe : Pe) : Pe :=
  { pe with state := Code.weightUpdateWaitForDelta }

/-- R253. -/
def ruleWeightUpdateWaitForDelta (_ : PeCtx) (pe : Pe) : Pe :=
  { pe with state := Code.requestInputsAndWeights }

/-- `delta` of R254. -/
def updateDelta (x : PeCtx) (pe : Pe) : Elem :=
  mulshift x.params.w (x.deltaSource pe) x.req.learningRate x.dec

/-- `weightDecay` of R254; the negation is exact (R127). -/
def weightDecay (x : PeCtx) (pe : Pe) : Elem :=
  mulshift x.params.w (-x.weight pe) x.req.lambda x.dec

/-- `result` of R254: in batch mode the delta alone (log entry 22). -/
def updateResult (x : PeCtx) (pe : Pe) : Elem :=
  if batch x.req then updateDelta x pe
  else mulshift x.params.w (updateDelta x pe) (x.input pe) x.dec

/-- R254. -/
def ruleRunWeightUpdate (x : PeCtx) (pe : Pe) : Pe :=
  { pe with
    weightWB := pe.weightWB.set (x.pos pe)
      (wrap x.params.w (updateResult x pe + weightDecay x pe)),
    dataOut := updateDelta x pe,
    index := pe.index + 1,
    state := if exhausted x.params x.req pe then Code.weightUpdateWriteBack
             else Code.runWeightUpdate }

/-- R255. -/
def ruleWeightUpdateWriteBack (x : PeCtx) (pe : Pe) : Pe :=
  { pe with
    state := if allWeights x.req pe then Code.weightUpdateWriteBias
             else Code.requestInputsAndWeights }

/-- R256. -/
def ruleWeightUpdateWriteBias (_ : PeCtx) (pe : Pe) : Pe := { pe with state := Code.unallocated }

/-- RUN_UPDATE_SLOPE (R250). -/
def execRunUpdateSlope (s : State) : Host.Outcome State Fault Refusal :=
  peCycle Code.runUpdateSlope ruleRunUpdateSlope s

/-- SLOPE_WB (R251). -/
def execSlopeWb (s : State) : Host.Outcome State Fault Refusal :=
  peCycle Code.slopeWb ruleSlopeWb s

/-- WEIGHT_UPDATE_REQUEST_DELTA (R252). -/
def execWeightUpdateRequestDelta (s : State) : Host.Outcome State Fault Refusal :=
  peCycle Code.weightUpdateRequestDelta ruleWeightUpdateRequestDelta s

/-- WEIGHT_UPDATE_WAIT_FOR_DELTA (R253). -/
def execWeightUpdateWaitForDelta (s : State) : Host.Outcome State Fault Refusal :=
  peCycle Code.weightUpdateWaitForDelta ruleWeightUpdateWaitForDelta s

/-- RUN_WEIGHT_UPDATE (R254). -/
def execRunWeightUpdate (s : State) : Host.Outcome State Fault Refusal :=
  peCycle Code.runWeightUpdate ruleRunWeightUpdate s

/-- WEIGHT_UPDATE_WRITE_BACK (R255). -/
def execWeightUpdateWriteBack (s : State) : Host.Outcome State Fault Refusal :=
  peCycle Code.weightUpdateWriteBack ruleWeightUpdateWriteBack s

/-- WEIGHT_UPDATE_WRITE_BIAS (R256). -/
def execWeightUpdateWriteBias (s : State) : Host.Outcome State Fault Refusal :=
  peCycle Code.weightUpdateWriteBias ruleWeightUpdateWriteBias s

end Sys2Proof.Machine
end

