-- ==== Sys2Proof/Machine/Dispatch.lean ====
section
/-! DEFINITION. The meaning of every instruction, one arm each. -/

namespace Sys2Proof.Machine

def exec (i : Instr) (s : State) : Host.Outcome State Fault Refusal :=
  match i with
  | .rd r => Sys2Proof.Machine.execRd r s
  | .wrE r hi lo e b => Sys2Proof.Machine.execWrE r hi lo e b s
  | .wrB r hi lo e b => Sys2Proof.Machine.execWrB r hi lo e b s
  | .wrA r hi lo e b => Sys2Proof.Machine.execWrA r hi lo e b s
  | .illegalWtype3 r hi lo e b => Sys2Proof.Machine.execIllegalWtype3 r hi lo e b s
  | .unallocated => Sys2Proof.Machine.execUnallocated s
  | .getInfo => Sys2Proof.Machine.execGetInfo s
  | .waitForInfo => Sys2Proof.Machine.execWaitForInfo s
  | .requestInputsAndWeights => Sys2Proof.Machine.execRequestInputsAndWeights s
  | .waitForInputsAndWeights => Sys2Proof.Machine.execWaitForInputsAndWeights s
  | .run => Sys2Proof.Machine.execRun s
  | .activationFunction => Sys2Proof.Machine.execActivationFunction s
  | .computeDerivative => Sys2Proof.Machine.execComputeDerivative s
  | .requestExpectedOutput => Sys2Proof.Machine.execRequestExpectedOutput s
  | .waitForExpectedOutput => Sys2Proof.Machine.execWaitForExpectedOutput s
  | .computeError => Sys2Proof.Machine.execComputeError s
  | .errorFunction => Sys2Proof.Machine.execErrorFunction s
  | .computeDelta => Sys2Proof.Machine.execComputeDelta s
  | .deltaWriteBack => Sys2Proof.Machine.execDeltaWriteBack s
  | .errorBackpropRequestWeights => Sys2Proof.Machine.execErrorBackpropRequestWeights s
  | .errorBackpropWaitForWeights => Sys2Proof.Machine.execErrorBackpropWaitForWeights s
  | .errorBackpropDeltaWeightMul => Sys2Proof.Machine.execErrorBackpropDeltaWeightMul s
  | .errorBackpropWeightWb => Sys2Proof.Machine.execErrorBackpropWeightWb s
  | .requestOutputsErrorBackprop => Sys2Proof.Machine.execRequestOutputsErrorBackprop s
  | .waitForOutputsErrorBackprop => Sys2Proof.Machine.execWaitForOutputsErrorBackprop s
  | .requestDeltaWeightProductErrorBackprop => Sys2Proof.Machine.execRequestDeltaWeightProductErrorBackprop s
  | .waitForDeltaWeightProductErrorBackprop => Sys2Proof.Machine.execWaitForDeltaWeightProductErrorBackprop s
  | .done => Sys2Proof.Machine.execDone s
  | .runUpdateSlope => Sys2Proof.Machine.execRunUpdateSlope s
  | .slopeWb => Sys2Proof.Machine.execSlopeWb s
  | .weightUpdateRequestDelta => Sys2Proof.Machine.execWeightUpdateRequestDelta s
  | .weightUpdateWaitForDelta => Sys2Proof.Machine.execWeightUpdateWaitForDelta s
  | .runWeightUpdate => Sys2Proof.Machine.execRunWeightUpdate s
  | .weightUpdateWriteBack => Sys2Proof.Machine.execWeightUpdateWriteBack s
  | .weightUpdateWriteBias => Sys2Proof.Machine.execWeightUpdateWriteBias s
  | .error => Sys2Proof.Machine.execError s
  | .reservedState31 => Sys2Proof.Machine.execReservedState31 s

end Sys2Proof.Machine
end

