-- ==== Sys2Proof/Machine/Fetch.lean ====
section
/-! DEFINITION. Where the agent whose turn it is gets its instruction, and how a cycle passes from
agent to agent (R7, log entry 4). -/

namespace Sys2Proof.Machine

/-- The word that names the active agent's instruction: a PE's state register (R100), a port's
command word of the current cycle (R91). A PE that the state does not hold has code 0, and its
meaning then stops. -/
def State.fetchWord (s : State) : MachineWord :=
  match s.turn with
  | .pe n => .peState (((s.pes[n]?).map Pe.state).getD Code.unallocated)
  | .port p => .bank (s.cmdWord p)

/-- The active agent's instruction. -/
def State.fetch (s : State) : Except DecodeError Instr := decode s.params s.fetchWord

/-- The state with the next agent's turn: the PEs in order, then the ports in order; after the last
port the cycle ends, the count advances and the stimulus moves on by one line (R7). -/
def State.endTurn (s : State) : State :=
  match s.turn with
  | .pe n =>
    if n + 1 < s.pes.length then { s with turn := .pe (n + 1) } else { s with turn := .port 0 }
  | .port p =>
    if p + 1 < s.ports.length then { s with turn := .port (p + 1) }
    else { s with turn := .pe 0, cycle := s.cycle + 1, stimulus := s.stimulus.tail }

/-- The stimulus asks for the global reset (R300). -/
def State.resetAsked (s : State) : Bool :=
  match s.stimulus with
  | .reset :: _ => true
  | _ => false

/-- The request that the PE needs to advance when a table word is placed: one weight, every other
field 0 but those that the word itself spells at bits 16 and up (R95). -/
def placedRequest (c : Params) (w : Nat) : Request :=
  let n := w / 2 ^ 16
  { zeroRequest with
    numWeights := 1, decimalPoint := n % 2 ^ c.dpw, steepness := n / 2 ^ c.dpw % 2 ^ c.sw,
    activationFunction := BitVec.ofNat 3 (n / 2 ^ (c.dpw + c.sw)),
    errorFunction := BitVec.ofNat 3 (n / 2 ^ (c.dpw + c.sw + 3)),
    iBlock := List.replicate c.epb 0, wBlock := List.replicate c.epb 0 }

/-- The state in which PE 0 is about to run the state code `code`: its register holds the code, no
allocation's duties are open, and the current cycle's line has a valid request, so that the PE
advances (R170). The unit has not responded yet: a state that waits for it presents its request and
holds (R171, log entry 5). -/
def State.placePeState (s : State) (code : StateCode) (w : Nat) : State :=
  { s with
    turn := .pe 0,
    pes := s.pes.modify 0 fun pe =>
      { pe with state := code, alloc := none, afSeen := none, afAsked := none },
    stimulus := .cycle
      { pes := [{ reqValid := true, req := placedRequest s.params w, afRespValid := false,
                  afOut := 0 }],
        cmds := [] } :: s.stimulus }

/-- The state in which port 0 is about to run the command word `bits`. -/
def State.placeCommand (s : State) (bits : Nat) : State :=
  { s with turn := .port 0, stimulus := .cycle { pes := [], cmds := [bits] } :: s.stimulus }

end Sys2Proof.Machine
end

