-- ==== Sys2Proof/Machine/Step.lean ====
section
/-! DEFINITION. One step: one agent's part of one cycle (R7, log entry 4). -/

namespace Sys2Proof.Machine

/-- The active agent runs its instruction and the turn passes on; a reset line of the stimulus resets
the machine instead (R300). -/
def step (s : State) : Host.Outcome State Fault Refusal :=
  if s.resetAsked then .next s.globalReset
  else
    match s.fetch with
    | .error _ => .refused .malformedCommand
    | .ok i =>
      match exec i s with
      | .next t => .next t.endTurn
      | .fault f => .fault f
      | .refused r => .refused r

/-- The state whose next step runs exactly the table word `w` of `nbits` bits. -/
def State.withFetchWord (s : State) (nbits w : Nat) : State :=
  match tableWord nbits w with
  | .peState code => s.placePeState code w
  | .bank bits => s.placeCommand bits

end Sys2Proof.Machine
end

