-- ==== Sys2Proof/Safety.lean ====
section
/-! DEFINITION. The terms claims use: when a PE is served, when a port accepts a command, what a bank
client may rely on (R68), and what a well-formed state is. -/

namespace Sys2Proof.Machine

/-! ## Serving a PE -/

/-- The unit answers the request that PE `pe` presents in this cycle (R174): AF for an activation, EF
for an error function. -/
def unitAnswers (c : Params) (code : StateCode) (pe : Pe) (inp : PeInput) : Prop :=
  inp.afOut = unitAnswer c (unitRequest c code inp.req pe)

/-- PE `n` is the active agent, in state `code`, with a request that keeps every duty of the
scheduler and the unit (R302): the PE advances (R170). -/
structure Serviced (code : StateCode) (s : State) (n : Nat) (pe : Pe) : Prop where
  active  : s.activePe = some (n, pe)
  valid   : (s.peInput n).reqValid = true
  fits    : (s.peInput n).req.fits s.params = true
  weights : (s.peInput n).req.numWeights ≠ 0
  stable  : ∀ ss, pe.alloc = some ss → semiStatic (s.peInput n).req = ss
  unit    : waitsForUnit code = true →
    (s.peInput n).afRespValid = true ∧ unitAnswers s.params code pe (s.peInput n) ∧
      ∀ v, pe.afSeen = some v → v = (s.peInput n).afOut

/-- PE `n` is the active agent and its cycle breaks no duty, but it does not advance: there is no
request, or the state waits for the unit (R170, R171). -/
structure Unserved (code : StateCode) (s : State) (n : Nat) (pe : Pe) : Prop where
  active : s.activePe = some (n, pe)
  idle   : (s.peInput n).reqValid = false ∨
    (waitsForUnit code = true ∧ (s.peInput n).afRespValid = false)
  fits   : (s.peInput n).reqValid = true → (s.peInput n).req.fits s.params = true
  stable : (s.peInput n).reqValid = true →
    ∀ ss, pe.alloc = some ss → semiStatic (s.peInput n).req = ss
  unit   : waitsForUnit code = true → (s.peInput n).afRespValid = true →
    ∃ a, presented s.params code pe (s.peInput n) = some a ∧
      (s.peInput n).afOut = unitAnswer s.params a
  kept   : waitsForUnit code = true → ∀ v, pe.afSeen = some v →
    (s.peInput n).afRespValid = true ∧ v = (s.peInput n).afOut

/-- The state after a served cycle of PE `n` in state `code` that turns its registers from `pe` to
`pe'`: its outputs are those of the cycle (R171 to R174), the unit's response is consumed, and an
allocation that enters UNALLOCATED is closed (R302). -/
def State.served (s : State) (code : StateCode) (n : Nat) (pe pe' : Pe) : State :=
  s.setPe n
    { pe' with
      out := peOutputs s.params code pe (s.peInput n), afSeen := none,
      afAsked := none,
      alloc := if pe'.state = Code.unallocated then none else pe'.alloc }

/-- What the environment does for a PE in one cycle: the request it shows, whether it is valid, and
whether the unit responds to a valid one. -/
structure Offer where
  req    : Request
  valid  : Bool
  answer : Bool
  deriving DecidableEq, Repr

/-- The offer as the inputs of a PE: the unit responds in a cycle with a valid request only, with its
function's value for the request presented (R174). -/
def Offer.input (c : Params) (pe : Pe) (o : Offer) : PeInput :=
  { reqValid := o.valid, req := o.req, afRespValid := o.valid && o.answer,
    afOut := unitAnswer c (unitRequest c pe.state o.req pe) }

/-- The state with the offer as PE `n`'s inputs of the current cycle. -/
def State.withOffer (s : State) (n : Nat) (pe : Pe) (o : Offer) : State :=
  { s with stimulus :=
      .cycle { pes := List.replicate n PeInput.idle ++ [o.input s.params pe], cmds := [] } ::
        s.stimulus.tail }

/-- A run of the active PE, one cycle per offer: its instruction is fetched and run, and the turn does
not pass on. Answers the state reached and the number of advances; none where the turn is no PE's,
or a cycle does not end in a next state. -/
def State.serve : List Offer → State → Option (State × Nat)
  | [], s => some (s, 0)
  | o :: os, s =>
    match s.activePe with
    | none => none
    | some (n, pe) =>
      let s' := s.withOffer n pe o
      match s'.fetch with
      | .error _ => none
      | .ok i =>
        match exec i s' with
        | .next t =>
          (State.serve os t).map fun r =>
            (r.1, (if advances pe.state (o.input s.params pe) then 1 else 0) + r.2)
        | .fault _ => none
        | .refused _ => none

/-- The advances of an allocation, from the one that leaves UNALLOCATED to the one that enters it
again, both included (R309, `n` being `numWeights` and `B` the number of blocks). -/
def allocationAdvances (c : Params) (r : Request) : Nat :=
  let n := r.numWeights.toNat
  let b := (n + c.epb - 1) / c.epb
  if r.stateLearn = Phase.feedforward then n + 2 * b + 5
  else if r.stateLearn = Phase.learnFeedforward then
    if r.inLast then 2 * n + 5 * b + 12 else n + 2 * b + 5
  else if r.stateLearn = Phase.updateSlope then n + 3 * b + 3
  else if r.stateLearn = Phase.errorBackprop then
    if r.tType && r.inFirst then n + 3 * b + 9 else n + 3 * b + 10
  else n + 3 * b + 6

/-! ## The bank -/

/-- The architectural contents of block `hi` (R68): the stored block, with the pending write of that
block applied. -/
def Port.arch (c : Params) (q : Port) (hi : Nat) : Block :=
  if q.pend.valid && q.pend.addrHi == hi then rmw c q.pend (q.readBlock c hi)
  else q.readBlock c hi

/-- A valid pending entry is one that an accepted write leaves (R38, R149). -/
def pendingLegal (c : Params) (pd : Pending) : Bool :=
  !pd.valid || (!(pd.wType == 3) && decide (pd.addrHi < c.nb) && decide (pd.addrLo < c.epb))

/-- Port `p` is the active agent, it is not faulted, and its pending entry is one that an accepted
write leaves. -/
structure PortReady (s : State) (p : Nat) (q : Port) : Prop where
  active  : s.activePort = some (p, q)
  sound   : q.bankFault = none
  fits    : q.pend.fits s.params = true
  legal   : pendingLegal s.params q.pend = true

/-- The write command's addresses and data are within the storage and its formats, and its type is
not 3 (R63, R302). -/
def WriteCmd.inBounds (c : Params) (wc : WriteCmd) : Bool :=
  decide (wc.waddrHi < c.nb) && decide (wc.waddrLo < c.epb) && inRange c.w wc.dinElement &&
    fitsBlock c wc.dinBlock && !(wc.wType == 3)

/-! ## Well-formed states -/

/-- The canonical form of a storage: addresses strictly rising. An unlisted element has no value of
its own, so no entry equals what it reads as. -/
def Memory.wf (m : Memory) : Bool := decide (m.Pairwise fun a b => a.1 < b.1)

/-- Every entry names an element of the storage and holds a `W`-bit value (R37, R61). -/
def Memory.within (c : Params) (m : Memory) : Bool :=
  m.all fun e => decide (e.1 < c.nb * c.epb) && inRange c.w e.2

/-- A port within its formats; a port that is not faulted has a legal pending entry. -/
def Port.wf (c : Params) (q : Port) : Bool :=
  q.mem.wf && q.mem.within c && fitsBlock c q.dout && q.pend.fits c &&
    (q.bankFault.isSome || pendingLegal c q.pend)

/-- A PE within its formats, its state one of the 31 named ones (R20, R100). -/
def Pe.wf (c : Params) (pe : Pe) : Bool :=
  !(pe.state == Code.reservedState31) && inRange c.w pe.acc && fitsBlock c pe.weightWB &&
    inRange c.w pe.dataOut && inRange c.w pe.derivative && inRange c.w pe.errorOut &&
    inRange c.w pe.mse

/-- The turn names an agent that exists. -/
def Agent.legal (c : Params) : Agent → Bool
  | .pe n => decide (n < c.npe)
  | .port p => decide (p < c.np)

/-- A well-formed state: legal sizes (R4), as many agents as the sizes say, each within its formats. -/
def State.wf (s : State) : Bool :=
  s.params.ok && decide (s.pes.length = s.params.npe) && decide (s.ports.length = s.params.np) &&
    s.turn.legal s.params && s.pes.all (Pe.wf s.params) && s.ports.all (Port.wf s.params)

/-- The states in which a weight is still to be processed: `index < numWeights` there. -/
def beforeWeight : List StateCode :=
  [Code.waitForInfo, Code.requestInputsAndWeights, Code.waitForInputsAndWeights, Code.run,
   Code.deltaWriteBack, Code.errorBackpropRequestWeights, Code.errorBackpropWaitForWeights,
   Code.errorBackpropDeltaWeightMul, Code.runUpdateSlope, Code.weightUpdateRequestDelta,
   Code.weightUpdateWaitForDelta, Code.runWeightUpdate]

/-- The invariant of R23 on `index`, for the `numWeights` of the open allocation (`alloc`, log entry
16): an allocation is open exactly outside UNALLOCATED, has at least one weight, and `index` does not
pass `numWeights`, and is below it where a weight is still to be processed. GET_INFO alone is exempt:
it clears `index` on its advance and until then shows the last allocation's (R177, vector P14). -/
def Pe.indexOk (pe : Pe) : Bool :=
  match pe.alloc with
  | none => pe.state == Code.unallocated
  | some ss =>
    !(pe.state == Code.unallocated) && !(ss.numWeights == 0) &&
      (pe.state == Code.getInfo || decide (pe.index.toNat ≤ ss.numWeights.toNat)) &&
      (!beforeWeight.contains pe.state || decide (pe.index.toNat < ss.numWeights.toNat))

/-- The states that are entered only after the bias of the allocation has been loaded. -/
def afterBias : List StateCode :=
  [Code.waitForInputsAndWeights, Code.run, Code.activationFunction, Code.runUpdateSlope,
   Code.slopeWb, Code.runWeightUpdate, Code.weightUpdateWriteBack, Code.weightUpdateWriteBias]

/-- `hasBias` is set in every state that needs the bias loaded (R24, R307). -/
def Pe.biasOk (pe : Pe) : Bool := !afterBias.contains pe.state || pe.hasBias

/-- A PE in ERROR has its fault recorded (R273), and a PE with a recorded fault is in ERROR (R276). -/
def Pe.errorOk (pe : Pe) : Bool := isErrorState pe.state == pe.peFault.isSome

/-- No agent has taken a fault: "a correct run" (R277). -/
def State.faultFree (s : State) : Bool :=
  s.pes.all (fun pe => pe.peFault.isNone) && s.ports.all (fun q => q.bankFault.isNone)

end Sys2Proof.Machine
end

