-- ==== Sys2Proof/Certificates/Slice0/Obligations.lean ====
section
/-! DEFINITION. The statements for the provers. -/

open Sys2Proof Sys2Proof.Machine

/-! ## Encodings -/

/-- Words written out from the encodings decode to the instructions they stand for: bank words of
configuration BV (R91, vectors B1, B2, B3, B11, B16) and state codes (R100). The layout of the bank
word is the spec's decision D7 and the numbering of the states its decision D6 (log entry 23). That a
number with a bit above the format is rejected is the model's choice (log entry 26). -/
def Obligations.TableWordsDecode : Prop :=
  decode Params.table (.bank 0x600) = .ok (.rd 3) ∧
  decode Params.table (.bank 0xA06) = .ok (.rd 5) ∧
  decode Params.table (.bank 0x154671) = .ok (.wrE 3 3 2 0xAA [0, 0, 0, 0]) ∧
  decode Params.table (.bank 0x000880066004400220000663) =
    .ok (.wrB 3 3 0 0 [0x11, 0x22, 0x33, 0x44]) ∧
  decode Params.table (.bank 0x100000001FFFEFFFE0000665) =
    .ok (.wrA 3 3 0 0 [0x7FFF, -1, 0, -0x8000]) ∧
  decode Params.table (.bank 0x667) = .ok (.illegalWtype3 3 3 0 0 [0, 0, 0, 0]) ∧
  decode Params.table (.bank (2 ^ 93)) = .error .bankWordTooLong ∧
  decode Params.table (.peState 0b00000) = .ok .unallocated ∧
  decode Params.table (.peState 0b00101) = .ok .run ∧
  decode Params.table (.peState 0b01100) = .ok .computeDelta ∧
  decode Params.table (.peState 0b10000) = .ok .errorBackpropDeltaWeightMul ∧
  decode Params.table (.peState 0b11011) = .ok .runWeightUpdate ∧
  decode Params.table (.peState 0b11110) = .ok .error ∧
  decode Params.table (.peState 0b11111) = .ok .reservedState31

/-- Decode and encode agree: the decoder reads back every well-formed instruction, with every operand
at every value its field admits, under all legal sizes (R4, R91, R92, R100; the encodings are the
spec's decisions D5 to D7, log entry 23). -/
def Obligations.DecodeOfEncode : Prop :=
  ∀ (c : Params) (i : Instr), c.ok = true → i.wellFormed c = true →
    decode c (encode c i) = .ok i

/-- A word has one meaning: a state code is the encoding of its instruction, and so is a bank word
that is no RD (an RD's other fields are ignored, R92). The encodings are the spec's decisions D5 to D7
(log entry 23), and that a number with a bit above the format decodes to nothing is the model's choice
(log entry 26). -/
def Obligations.EncodeOfDecode : Prop :=
  ∀ (c : Params) (w : MachineWord) (i : Instr), c.ok = true → decode c w = .ok i →
    (∀ r, i ≠ .rd r) → i.wellFormed c = true ∧ encode c i = w

/-- The packed request (R95; its layout is the spec's decision D7, log entry 23) holds every field of a
request that fits its format. -/
def Obligations.RequestUnpacksItsPacking : Prop :=
  ∀ (c : Params) (r : Request), c.ok = true → r.fits c = true →
    Request.unpack c (r.pack c) = some r ∧ r.pack c < 2 ^ totalWidth (requestWidths c)

/-- The packed pending entry (R94), response (R99) and unit request (R101) hold every field of a
record that fits its format. The layouts are the spec's decision D7 (log entry 23), and the width of the
unit request's decimal field is the model's choice (log entry 29). -/
def Obligations.RecordsUnpackTheirPackings : Prop :=
  ∀ (c : Params), c.ok = true →
    (∀ p : Pending, p.fits c = true → Pending.unpack c (p.pack c) = some p) ∧
    (∀ r : Response, r.fits c = true → Response.unpack c (r.pack c) = some r) ∧
    (∀ a : AfRequest, a.fits c = true → AfRequest.unpack c (a.pack c) = some a)

/-! ## Fixed-point helpers -/

/-- `wrap_W(v)` is the one integer of `[-2^(W-1), 2^(W-1))` congruent to `v` modulo `2^W` (R121). -/
def Obligations.WrapGivesTheCongruentElement : Prop :=
  ∀ (w : Nat) (v : Int), 2 ≤ w →
    -(2 ^ (w - 1) : Int) ≤ wrap w v ∧ wrap w v < 2 ^ (w - 1) ∧ (2 ^ w : Int) ∣ wrap w v - v ∧
    ∀ u : Int, -(2 ^ (w - 1) : Int) ≤ u → u < 2 ^ (w - 1) → (2 ^ w : Int) ∣ u - v → u = wrap w v

/-- `v >> n` is `floor(v / 2^n)` (R122): the greatest integer whose product with `2^n` is at most
`v`. -/
def Obligations.ShiftIsFloor : Prop :=
  ∀ (v : Int) (n : Nat), shr v n * 2 ^ n ≤ v ∧ v < (shr v n + 1) * 2 ^ n

/-- `applySteepness` (R125): a floor shift right below the offset, no change at it, a wrapping shift
left above it; a right shift needs no wrap. -/
def Obligations.SteepnessCases : Prop :=
  ∀ (w so : Nat) (x : Elem) (s : Nat), 2 ≤ w → inRange w x = true →
    (s < so → applySteepness w so x s = ⌊(x : ℚ) / 2 ^ (so - s)⌋) ∧
    (s = so → applySteepness w so x s = x) ∧
    (so < s → applySteepness w so x s = Int.bmod (x * 2 ^ (s - so)) (2 ^ w)) ∧
    inRange w (applySteepness w so x s) = true

/-- The properties of R126 that a proof may use. -/
def Obligations.FixedPointLaws : Prop :=
  (∀ (w : Nat) (a b : Int), wrap w (wrap w a + b) = wrap w (a + b)) ∧
  (∀ (w : Nat) (a b : Int) (d : Nat), mulshift w a b d = mulshift w b a d) ∧
  (∀ (w : Nat) (a : Int) (d : Nat), mulshift w a 0 d = 0) ∧
  (∀ (w : Nat) (a : Int) (d : Nat), 2 ≤ w → inRange w a = true → (2 ^ d : Int) < 2 ^ (w - 1) →
    mulshift w a (2 ^ d) d = a) ∧
  (∃ (w : Nat) (a b : Int) (d : Nat), mulshift w (-a) b d ≠ -mulshift w a b d) ∧
  (∀ (a b : Int) (d : Nat), 0 ≤ a * b - shr (a * b) d * 2 ^ d ∧
    a * b - shr (a * b) d * 2 ^ d < 2 ^ d) ∧
  (∀ (w d : Nat) (bias : Elem) (terms : List (Elem × Elem)), 2 ≤ w → inRange w bias = true →
    terms.foldl (fun acc t => accum w acc t.1 t.2 d) bias =
      wrap w (bias + (terms.map fun t => mulshift w t.1 t.2 d).sum))

/-! ## PE control -/

/-- UNALLOCATED (R176): the advance clears `hasBias`, writes no other register and goes to GET_INFO;
the allocation's semi-static fields are those of this request (R302). -/
def Obligations.UnallocatedOpensAllocation : Prop :=
  ∀ (s : State) (n : Nat) (pe : Pe), Serviced Code.unallocated s n pe →
    exec .unallocated s = .next (s.served Code.unallocated n pe
      { pe with hasBias := false, state := Code.getInfo,
                alloc := some (semiStatic (s.peInput n).req) }) ∧
    respValid Code.unallocated = false

/-- GET_INFO (R177): the advance sets `dataOut` and `index` to 0, writes no other register and goes to
WAIT_FOR_INFO. -/
def Obligations.GetInfoClears : Prop :=
  ∀ (s : State) (n : Nat) (pe : Pe), Serviced Code.getInfo s n pe →
    exec .getInfo s = .next (s.served Code.getInfo n pe
      { pe with dataOut := 0, index := 0, state := Code.waitForInfo }) ∧
    respValid Code.getInfo = true

/-- WAIT_FOR_INFO (R178): the branch on `stateLearn`; a reserved code goes to ERROR and raises
PE_ERROR_STATE (recorded where the record is empty, R276). -/
def Obligations.WaitForInfoBranches : Prop :=
  ∀ (s : State) (n : Nat) (pe : Pe), Serviced Code.waitForInfo s n pe →
    exec .waitForInfo s = .next (s.served Code.waitForInfo n pe
      (match (s.peInput n).req.stateLearn.toNat with
       | 0 => { pe with state := Code.requestInputsAndWeights }
       | 1 => { pe with state := Code.requestInputsAndWeights }
       | 2 => { pe with state := Code.requestInputsAndWeights }
       | 3 => { pe with state := Code.requestOutputsErrorBackprop }
       | 4 => { pe with state := Code.weightUpdateRequestDelta }
       | _ => { pe with
                state := Code.error,
                peFault := some (pe.peFault.getD
                  { pe := n, cycle := s.cycle, fromState := Code.waitForInfo,
                    stateLearn := some (s.peInput n).req.stateLearn }) })) ∧
    respValid Code.waitForInfo = false

/-- REQUEST_INPUTS_AND_WEIGHTS (R179): the bias is loaded, and `hasBias` set, only where `hasBias` is
clear. -/
def Obligations.BiasLoadedOnce : Prop :=
  ∀ (s : State) (n : Nat) (pe : Pe), Serviced Code.requestInputsAndWeights s n pe →
    exec .requestInputsAndWeights s = .next (s.served Code.requestInputsAndWeights n pe
      (if pe.hasBias = true then { pe with state := Code.waitForInputsAndWeights }
       else { pe with hasBias := true, acc := (s.peInput n).req.bias,
                      state := Code.waitForInputsAndWeights })) ∧
    respValid Code.requestInputsAndWeights = true

/-- WAIT_FOR_INPUTS_AND_WEIGHTS (R180): the branch on `stateLearn` and `tType`; a reserved code goes
to ERROR and raises PE_ERROR_STATE. -/
def Obligations.WaitForInputsBranches : Prop :=
  ∀ (s : State) (n : Nat) (pe : Pe), Serviced Code.waitForInputsAndWeights s n pe →
    exec .waitForInputsAndWeights s = .next (s.served Code.waitForInputsAndWeights n pe
      (match (s.peInput n).req.stateLearn.toNat with
       | 0 => { pe with state := Code.run }
       | 1 => { pe with state := Code.run }
       | 2 => { pe with state := Code.runUpdateSlope }
       | 3 => { pe with
                state := if (s.peInput n).req.tType = true then Code.runUpdateSlope
                         else Code.runWeightUpdate }
       | 4 => { pe with state := Code.runWeightUpdate }
       | _ => { pe with
                state := Code.error,
                peFault := some (pe.peFault.getD
                  { pe := n, cycle := s.cycle, fromState := Code.waitForInputsAndWeights,
                    stateLearn := some (s.peInput n).req.stateLearn }) })) ∧
    respValid Code.waitForInputsAndWeights = false

/-- DONE (R181): the response carries `dataOut` (which field shows which register is the spec's
decision D19), `incWriteCount` is set in the cycle of the advance and in no hold cycle (decision D20,
log entry 23), no register is written, and the PE goes to UNALLOCATED. -/
def Obligations.DoneReleases : Prop :=
  ∀ (s : State) (n : Nat) (pe : Pe), Serviced Code.done s n pe →
    exec .done s = .next (s.served Code.done n pe { pe with state := Code.unallocated }) ∧
    respValid Code.done = true ∧
    ∀ inp, (peOutputs s.params Code.done pe inp).resp.incWriteCount = inp.reqValid ∧
      (peOutputs s.params Code.done pe inp).resp.data = pe.dataOut

/-- ERROR (R182), and code 31, which is treated as ERROR (R106): whatever the request, `ready`,
`resp_valid` and `af_req_valid` are 0 and nothing is written but the fault record where it is still
empty (R273 b). -/
def Obligations.ErrorStateAbsorbs : Prop :=
  ∀ (s : State) (n : Nat) (pe : Pe) (i : Instr) (code : StateCode),
    s.activePe = some (n, pe) →
    (i = .error ∧ code = Code.error ∨ i = .reservedState31 ∧ code = Code.reservedState31) →
    ∃ (o : PeOutputs) (f : PeFault),
      o.ready = false ∧ o.respValid = false ∧ o.afReq = none ∧ o.resp.state = pe.state ∧
      f.pe = n ∧ f.cycle = s.cycle ∧ f.fromState = code ∧
      exec i s = .next (s.setPe n { pe with peFault := some (pe.peFault.getD f), out := o })

/-! ## Feed-forward -/

/-- RUN (R200): the exact product of element `k` of the two blocks, shifted with floor, truncated,
added to `acc`, truncated; `index` moves on; `last` has priority over the end of the block. -/
def Obligations.RunAccumulates : Prop :=
  ∀ (s : State) (n : Nat) (pe : Pe) (k : Nat) (a b : Elem), Serviced Code.run s n pe →
    k = pe.index.toNat % s.params.epb →
    (s.peInput n).req.iBlock[k]? = some a → (s.peInput n).req.wBlock[k]? = some b →
    exec .run s = .next (s.served Code.run n pe
      { pe with
        acc := Int.bmod (pe.acc +
          Int.bmod (a * b / 2 ^ (s.params.dpo + (s.peInput n).req.decimalPoint))
            (2 ^ s.params.w)) (2 ^ s.params.w),
        index := pe.index + 1,
        state := if pe.index.toNat + 1 = (s.peInput n).req.numWeights.toNat then
                   Code.activationFunction
                 else if k + 1 = s.params.epb then Code.requestInputsAndWeights
                 else Code.run }) ∧
    respValid Code.run = false

/-- ACTIVATION_FUNCTION (R201): with a request and a response of the unit, the response, which is AF of
`acc`, becomes `dataOut`, and the PE goes on to COMPUTE_DERIVATIVE after the last input of a
learn-feed-forward pass, else to DONE. -/
def Obligations.ActivationLatchesTheAnswer : Prop :=
  ∀ (s : State) (n : Nat) (pe : Pe), Serviced Code.activationFunction s n pe →
    exec .activationFunction s = .next (s.served Code.activationFunction n pe
      { pe with
        dataOut := (s.peInput n).afOut,
        state := if (s.peInput n).req.stateLearn = 1 ∧ (s.peInput n).req.inLast = true then
                   Code.computeDerivative
                 else Code.done }) ∧
    respValid Code.activationFunction = false ∧
    (∀ inp, ready Code.activationFunction inp = inp.afRespValid ∧
      advances Code.activationFunction inp = (inp.reqValid && inp.afRespValid) ∧
      (peOutputs s.params Code.activationFunction pe inp).afReq.isSome = inp.reqValid) ∧
    (peOutputs s.params Code.activationFunction pe (s.peInput n)).afReq = some
      { input := pe.acc, decimal := s.params.dpo + (s.peInput n).req.decimalPoint,
        steepness := (s.peInput n).req.steepness,
        activationFunction := (s.peInput n).req.activationFunction,
        errorFunction := (s.peInput n).req.errorFunction, opKind := false } ∧
    (s.peInput n).afOut = wrap s.params.w (Config.af s.params pe.acc
      (s.params.dpo + (s.peInput n).req.decimalPoint) (s.peInput n).req.steepness
      (s.peInput n).req.activationFunction)

/-- Accumulation (R202): successive RUN advances with requests of one decimal point add up the
truncated terms, whatever the blocks. -/
def Obligations.AccumulationIsTheSum : Prop :=
  ∀ (c : Params) (n cyc dp : Nat) (out : Elem) (rs : List Request) (pe : Pe), c.ok = true →
    inRange c.w pe.acc = true → (∀ r ∈ rs, r.decimalPoint = dp) →
    pe.index.toNat + rs.length ≤ 255 →
    (rs.foldl (fun p r => ruleRun ⟨c, n, cyc, r, out⟩ p) pe).acc =
      wrap c.w (pe.acc + (rs.zipIdx.map fun x =>
        wrap c.w (x.1.iBlock.getD ((pe.index.toNat + x.2) % c.epb) 0 *
          x.1.wBlock.getD ((pe.index.toNat + x.2) % c.epb) 0 / 2 ^ (c.dpo + dp))).sum)

/-- An allocation comes to its end (R184, R309, R310), in every phase and training mode: whatever the
scheduler holds back, whether or not the unit responds in a cycle with a valid request (in a held cycle
it gives no response here: `Offer.input`), and whatever data each cycle shows, a PE that starts in
UNALLOCATED is in UNALLOCATED again after exactly the advances that R309 lists, and after no fewer; its
`index` is then `numWeights`, and after a feed-forward pass its output is AF of its accumulator.
Every cycle with a valid request and a unit that responds advances. The counts follow from the spec's
own decisions D17 to D22, and carry no more authority than those (R309, log entry 23). -/
def Obligations.AllocationEnds : Prop :=
  ∀ (s : State) (m : Nat) (pe : Pe) (r : Request) (os : List Offer), s.params.ok = true →
    s.activePe = some (m, pe) → pe.state = Code.unallocated → pe.alloc = none →
    r.stateLearn.toNat ≤ 4 → r.numWeights ≠ 0 →
    (∀ o ∈ os, o.req.fits s.params = true ∧ semiStatic o.req = semiStatic r) →
    ∃ t k u, s.serve os = some (t, k) ∧ t.activePe = some (m, u) ∧
      os.countP (fun o => o.valid && o.answer) ≤ k ∧ k ≤ os.length ∧
      (0 < k → k < allocationAdvances s.params r → u.state ≠ Code.unallocated) ∧
      (k = allocationAdvances s.params r →
        u.state = Code.unallocated ∧ u.index = r.numWeights ∧
        (r.stateLearn = Phase.feedforward ∨
            r.stateLearn = Phase.learnFeedforward ∧ r.inLast = false →
          u.dataOut = wrap s.params.w (Config.af s.params u.acc
            (s.params.dpo + r.decimalPoint) r.steepness r.activationFunction)))

/-! ## Derivative, error, delta -/

/-- COMPUTE_DERIVATIVE (R210): `derivative` becomes DERIV of the selector, `dataOut`, the decimal point
and the steepness. -/
def Obligations.DerivativeIsLatched : Prop :=
  ∀ (s : State) (n : Nat) (pe : Pe), Serviced Code.computeDerivative s n pe →
    exec .computeDerivative s = .next (s.served Code.computeDerivative n pe
      { pe with
        derivative := wrap s.params.w (Config.deriv s.params (s.peInput n).req.activationFunction
          pe.dataOut (s.params.dpo + (s.peInput n).req.decimalPoint)
          (s.peInput n).req.steepness),
        state := if (s.peInput n).req.stateLearn = 3 then Code.computeDelta
                 else Code.requestExpectedOutput }) ∧
    respValid Code.computeDerivative = false

/-- The nine states that write no register and have one successor (R211, R212, R230, R231, R234, R236,
R237, R252, R253), with their `resp_valid`. -/
def Obligations.PlainTransitions : Prop :=
  ∀ (s : State) (n : Nat) (pe : Pe) (i : Instr) (code nxt : StateCode) (emits : Bool),
    (i, code, nxt, emits) ∈
      [(Instr.requestExpectedOutput, Code.requestExpectedOutput, Code.waitForExpectedOutput, true),
       (.waitForExpectedOutput, Code.waitForExpectedOutput, Code.computeError, false),
       (.errorBackpropRequestWeights, Code.errorBackpropRequestWeights,
         Code.errorBackpropWaitForWeights, true),
       (.errorBackpropWaitForWeights, Code.errorBackpropWaitForWeights,
         Code.errorBackpropDeltaWeightMul, false),
       (.requestOutputsErrorBackprop, Code.requestOutputsErrorBackprop,
         Code.waitForOutputsErrorBackprop, true),
       (.requestDeltaWeightProductErrorBackprop, Code.requestDeltaWeightProductErrorBackprop,
         Code.waitForDeltaWeightProductErrorBackprop, true),
       (.waitForDeltaWeightProductErrorBackprop, Code.waitForDeltaWeightProductErrorBackprop,
         Code.computeDerivative, false),
       (.weightUpdateRequestDelta, Code.weightUpdateRequestDelta,
         Code.weightUpdateWaitForDelta, true),
       (.weightUpdateWaitForDelta, Code.weightUpdateWaitForDelta,
         Code.requestInputsAndWeights, false)] →
    Serviced code s n pe →
    exec i s = .next (s.served code n pe { pe with state := nxt }) ∧ respValid code = emits

/-- COMPUTE_ERROR (R213): the exact difference of `learnReg` and `dataOut`, halved with floor for a
symmetric selector, then truncated; `mse` is MSE of the new error. -/
def Obligations.ErrorIsComputed : Prop :=
  ∀ (s : State) (n : Nat) (pe : Pe) (e : Int), Serviced Code.computeError s n pe →
    e = (if (s.peInput n).req.activationFunction = 3 ∨ (s.peInput n).req.activationFunction = 4 ∨
            (s.peInput n).req.activationFunction = 6 then
          ((s.peInput n).req.learnReg - pe.dataOut) / 2
        else (s.peInput n).req.learnReg - pe.dataOut) →
    exec .computeError s = .next (s.served Code.computeError n pe
      { pe with
        errorOut := Int.bmod e (2 ^ s.params.w),
        mse := wrap s.params.w (Config.mse s.params (Int.bmod e (2 ^ s.params.w))
          (s.params.dpo + (s.peInput n).req.decimalPoint)),
        state := Code.errorFunction }) ∧
    respValid Code.computeError = false

/-- ERROR_FUNCTION (R214): with a request and a response of the unit, the response, which is EF of
`errorOut`, becomes `errorOut`. -/
def Obligations.ErrorFunctionLatchesTheAnswer : Prop :=
  ∀ (s : State) (n : Nat) (pe : Pe), Serviced Code.errorFunction s n pe →
    exec .errorFunction s = .next (s.served Code.errorFunction n pe
      { pe with errorOut := (s.peInput n).afOut, state := Code.computeDelta }) ∧
    respValid Code.errorFunction = false ∧
    (∀ inp, ready Code.errorFunction inp = inp.afRespValid ∧
      advances Code.errorFunction inp = (inp.reqValid && inp.afRespValid) ∧
      (peOutputs s.params Code.errorFunction pe inp).afReq.isSome = inp.reqValid) ∧
    (peOutputs s.params Code.errorFunction pe (s.peInput n)).afReq = some
      { input := pe.errorOut, decimal := s.params.dpo + (s.peInput n).req.decimalPoint,
        steepness := (s.peInput n).req.steepness,
        activationFunction := (s.peInput n).req.activationFunction,
        errorFunction := (s.peInput n).req.errorFunction, opKind := true } ∧
    (s.peInput n).afOut = wrap s.params.w (Config.ef s.params pe.errorOut
      (s.params.dpo + (s.peInput n).req.decimalPoint) (s.peInput n).req.steepness
      (s.peInput n).req.errorFunction)

/-- COMPUTE_DELTA (R215): the derivative, or the integer 1 for a derivative of exactly 0, times `dw_in`
in the error-backprop phase and times `errorOut` otherwise; `index` becomes 0. -/
def Obligations.DeltaIsComputed : Prop :=
  ∀ (s : State) (n : Nat) (pe : Pe) (der : Int), Serviced Code.computeDelta s n pe →
    der = (if pe.derivative = 0 then 1 else pe.derivative) →
    exec .computeDelta s = .next (s.served Code.computeDelta n pe
      (if (s.peInput n).req.stateLearn = 3 then
        { pe with
          errorOut := Int.bmod (der * (s.peInput n).req.dw_in /
            2 ^ (s.params.dpo + (s.peInput n).req.decimalPoint)) (2 ^ s.params.w),
          index := 0,
          state := if (s.peInput n).req.inFirst = true then Code.requestInputsAndWeights
                   else Code.deltaWriteBack }
       else
        { pe with
          errorOut := Int.bmod (der * pe.errorOut /
            2 ^ (s.params.dpo + (s.peInput n).req.decimalPoint)) (2 ^ s.params.w),
          index := 0,
          state := Code.deltaWriteBack })) ∧
    respValid Code.computeDelta = false

/-- DELTA_WRITE_BACK (R216): no register is written; `incWriteCount` pulses outside batch mode; the
four branches. -/
def Obligations.DeltaWriteBackBranches : Prop :=
  ∀ (s : State) (n : Nat) (pe : Pe), Serviced Code.deltaWriteBack s n pe →
    exec .deltaWriteBack s = .next (s.served Code.deltaWriteBack n pe
      { pe with
        state :=
          if (s.peInput n).req.stateLearn = 3 then
            if (s.peInput n).req.tType = true then Code.requestInputsAndWeights
            else Code.errorBackpropRequestWeights
          else if (s.peInput n).req.stateLearn = 1 ∧ (s.peInput n).req.inLast = true then
            Code.errorBackpropRequestWeights
          else Code.done }) ∧
    respValid Code.deltaWriteBack = true ∧
    ∀ inp, (peOutputs s.params Code.deltaWriteBack pe inp).resp.incWriteCount =
      (inp.reqValid && !inp.req.tType)

/-! ## Back-propagation, slopes, weights -/

/-- ERROR_BACKPROP_DELTA_WEIGHT_MUL (R232): only element `k` of `weightWB` is written. -/
def Obligations.DeltaWeightProduct : Prop :=
  ∀ (s : State) (n : Nat) (pe : Pe) (k : Nat) (b : Elem),
    Serviced Code.errorBackpropDeltaWeightMul s n pe → k = pe.index.toNat % s.params.epb →
    (s.peInput n).req.wBlock[k]? = some b →
    exec .errorBackpropDeltaWeightMul s = .next (s.served Code.errorBackpropDeltaWeightMul n pe
      { pe with
        weightWB := pe.weightWB.set k (Int.bmod (pe.errorOut * b /
          2 ^ (s.params.dpo + (s.peInput n).req.decimalPoint)) (2 ^ s.params.w)),
        index := pe.index + 1,
        state := if pe.index.toNat + 1 = (s.peInput n).req.numWeights.toNat ∨ k + 1 = s.params.epb
                 then Code.errorBackpropWeightWb else Code.errorBackpropDeltaWeightMul }) ∧
    respValid Code.errorBackpropDeltaWeightMul = false

/-- The write-back states (R233, R251, R255, R256) write no register: each emits `weightWB`, and
branches on `index = numWeights`. -/
def Obligations.WriteBacksBranch : Prop :=
  ∀ (s : State) (n : Nat) (pe : Pe),
    (Serviced Code.errorBackpropWeightWb s n pe →
      exec .errorBackpropWeightWb s = .next (s.served Code.errorBackpropWeightWb n pe
        { pe with
          state := if pe.index ≠ (s.peInput n).req.numWeights then
                     Code.errorBackpropRequestWeights
                   else if (s.peInput n).req.stateLearn = 3 then Code.unallocated
                   else Code.done }) ∧
      respValid Code.errorBackpropWeightWb = true ∧
      ∀ inp, ((peOutputs s.params Code.errorBackpropWeightWb pe inp).resp.incWriteCount = true ↔
        inp.reqValid = true ∧ pe.index = inp.req.numWeights)) ∧
    (Serviced Code.slopeWb s n pe →
      exec .slopeWb s = .next (s.served Code.slopeWb n pe
        { pe with
          state := if pe.index = (s.peInput n).req.numWeights then Code.unallocated
                   else Code.requestInputsAndWeights }) ∧
      respValid Code.slopeWb = true ∧
      ∀ inp, ((peOutputs s.params Code.slopeWb pe inp).resp.incWriteCount = true ↔
        inp.reqValid = true ∧ pe.index = inp.req.numWeights)) ∧
    (Serviced Code.weightUpdateWriteBack s n pe →
      exec .weightUpdateWriteBack s = .next (s.served Code.weightUpdateWriteBack n pe
        { pe with
          state := if pe.index = (s.peInput n).req.numWeights then Code.weightUpdateWriteBias
                   else Code.requestInputsAndWeights }) ∧
      respValid Code.weightUpdateWriteBack = true ∧
      ∀ inp, (peOutputs s.params Code.weightUpdateWriteBack pe inp).resp.incWriteCount =
        false) ∧
    (Serviced Code.weightUpdateWriteBias s n pe →
      exec .weightUpdateWriteBias s = .next (s.served Code.weightUpdateWriteBias n pe
        { pe with state := Code.unallocated }) ∧
      respValid Code.weightUpdateWriteBias = true ∧
      ∀ inp, (peOutputs s.params Code.weightUpdateWriteBias pe inp).resp.incWriteCount =
        inp.reqValid)

/-- WAIT_FOR_OUTPUTS_ERROR_BACKPROP (R235): `dataOut` is loaded from `learnReg`. -/
def Obligations.OutputIsReloaded : Prop :=
  ∀ (s : State) (n : Nat) (pe : Pe), Serviced Code.waitForOutputsErrorBackprop s n pe →
    exec .waitForOutputsErrorBackprop s = .next (s.served Code.waitForOutputsErrorBackprop n pe
      { pe with dataOut := (s.peInput n).req.learnReg,
                state := Code.requestDeltaWeightProductErrorBackprop }) ∧
    respValid Code.waitForOutputsErrorBackprop = false

/-- RUN_UPDATE_SLOPE (R250): the delta is `errorOut` with `inFirst`, else `learnReg`; only element `k`
of `weightWB` is written. -/
def Obligations.SlopeIsComputed : Prop :=
  ∀ (s : State) (n : Nat) (pe : Pe) (k : Nat) (a delta : Elem),
    Serviced Code.runUpdateSlope s n pe → k = pe.index.toNat % s.params.epb →
    (s.peInput n).req.iBlock[k]? = some a →
    delta = (if (s.peInput n).req.inFirst = true then pe.errorOut
             else (s.peInput n).req.learnReg) →
    exec .runUpdateSlope s = .next (s.served Code.runUpdateSlope n pe
      { pe with
        weightWB := pe.weightWB.set k (Int.bmod (delta * a /
          2 ^ (s.params.dpo + (s.peInput n).req.decimalPoint)) (2 ^ s.params.w)),
        index := pe.index + 1,
        state := if pe.index.toNat + 1 = (s.peInput n).req.numWeights.toNat ∨ k + 1 = s.params.epb
                 then Code.slopeWb else Code.runUpdateSlope }) ∧
    respValid Code.runUpdateSlope = false

/-- RUN_WEIGHT_UPDATE (R254): the learning-rate-scaled delta, the weight decay with an exact negation,
the result with or without the input factor, and the weight change. -/
def Obligations.WeightChangeIsComputed : Prop :=
  ∀ (s : State) (n : Nat) (pe : Pe) (k : Nat) (a b sel delta decay result : Elem) (d : Nat),
    Serviced Code.runWeightUpdate s n pe → k = pe.index.toNat % s.params.epb →
    (s.peInput n).req.iBlock[k]? = some a → (s.peInput n).req.wBlock[k]? = some b →
    d = s.params.dpo + (s.peInput n).req.decimalPoint →
    sel = (if (s.peInput n).req.inFirst = true then pe.errorOut
           else (s.peInput n).req.learnReg) →
    delta = Int.bmod (sel * (s.peInput n).req.learningRate / 2 ^ d) (2 ^ s.params.w) →
    decay = Int.bmod (-b * (s.peInput n).req.lambda / 2 ^ d) (2 ^ s.params.w) →
    result = (if (s.peInput n).req.tType = true then delta
              else Int.bmod (delta * a / 2 ^ d) (2 ^ s.params.w)) →
    exec .runWeightUpdate s = .next (s.served Code.runWeightUpdate n pe
      { pe with
        weightWB := pe.weightWB.set k (Int.bmod (result + decay) (2 ^ s.params.w)),
        dataOut := delta,
        index := pe.index + 1,
        state := if pe.index.toNat + 1 = (s.peInput n).req.numWeights.toNat ∨ k + 1 = s.params.epb
                 then Code.weightUpdateWriteBack else Code.runWeightUpdate }) ∧
    respValid Code.runWeightUpdate = false

/-! ## The PE's cycle and its outputs -/

/-- A PE that is not served holds (R170, R21): every register keeps its value, whatever its state; in
a state that waits for the unit, a request already presented and a response already given are
remembered (R302, log entry 15). -/
def Obligations.UnservedPeHolds : Prop :=
  ∀ (s : State) (n : Nat) (pe : Pe) (i : Instr) (code : StateCode),
    encode s.params i = .peState code → isErrorState code = false → Unserved code s n pe →
    exec i s = .next (s.setPe n
      { pe with
        out := peOutputs s.params code pe (s.peInput n),
        afSeen := if waitsForUnit code = true ∧ (s.peInput n).afRespValid = true then
                    some (s.peInput n).afOut
                  else pe.afSeen,
        afAsked := if waitsForUnit code = true then
                     if (s.peInput n).reqValid = true then
                       some (unitRequest s.params code (s.peInput n).req pe)
                     else pe.afAsked
                   else none })

/-- What a PE drives in a cycle (R171, R172, R174, and the response record of R34), in every state. -/
def Obligations.HandshakeOutputs : Prop :=
  ∀ (s t : State) (n : Nat) (pe : Pe) (i : Instr) (code : StateCode),
    s.activePe = some (n, pe) → encode s.params i = .peState code → exec i s = .next t →
    ∃ u, t.pes[n]? = some u ∧
      (u.out.ready = true ↔ code ≠ 30 ∧ code ≠ 31 ∧
        (code = 6 ∨ code = 11 → (s.peInput n).afRespValid = true)) ∧
      (u.out.respValid = true ↔ code ∈ ([1, 3, 13, 22, 28, 29, 17, 24, 8, 14, 18, 20, 25] :
        List StateCode)) ∧
      u.out.resp.data = pe.dataOut ∧ u.out.resp.dataBlock = pe.weightWB ∧
      u.out.resp.state = pe.state ∧ u.out.resp.index = pe.index ∧
      u.out.resp.error = pe.errorOut ∧
      u.out.afReq =
        if (s.peInput n).reqValid = true ∧ (code = 6 ∨ code = 11) then
          some { input := if code = 11 then pe.errorOut else pe.acc,
                 decimal := s.params.dpo + (s.peInput n).req.decimalPoint,
                 steepness := (s.peInput n).req.steepness,
                 activationFunction := (s.peInput n).req.activationFunction,
                 errorFunction := (s.peInput n).req.errorFunction,
                 opKind := decide (code = 11) }
        else none

/-- `incWriteCount` (R173): it pulses on an advance only, in the five states that close a write group
under their conditions. -/
def Obligations.IncWriteCountPulses : Prop :=
  ∀ (s t : State) (n : Nat) (pe : Pe) (i : Instr) (code : StateCode),
    s.activePe = some (n, pe) → encode s.params i = .peState code → exec i s = .next t →
    ∃ u, t.pes[n]? = some u ∧
      (u.out.resp.incWriteCount = true ↔
        (s.peInput n).reqValid = true ∧
        (code = 13 ∧ (s.peInput n).req.tType = false ∨
         code = 17 ∧ pe.index = (s.peInput n).req.numWeights ∨
         code = 22 ∨
         code = 24 ∧ pe.index = (s.peInput n).req.numWeights ∨
         code = 29))

/-- The duties whose breach is refused (R280, R302): a semi-static field changed inside an allocation,
`numWeights = 0` on an advance, a unit response withdrawn or changed before the PE advances, given
before a request is presented, or answering another request than the one presented, and a bank address
that names no block or element. A bank command that raises a violation is judged by that first (R150,
log entry 18). -/
def Obligations.BrokenDutiesAreRefused : Prop :=
  (∀ (s : State) (n : Nat) (pe : Pe) (i : Instr) (code : StateCode) (ss : SemiStatic),
    s.activePe = some (n, pe) → encode s.params i = .peState code → isErrorState code = false →
    (s.peInput n).reqValid = true → pe.alloc = some ss → semiStatic (s.peInput n).req ≠ ss →
    ∃ r, exec i s = .refused r) ∧
  (∀ (s : State) (n : Nat) (pe : Pe) (i : Instr) (code : StateCode),
    s.activePe = some (n, pe) → encode s.params i = .peState code → isErrorState code = false →
    (s.peInput n).reqValid = true → (waitsForUnit code = true → (s.peInput n).afRespValid = true) →
    (s.peInput n).req.numWeights = 0 → ∃ r, exec i s = .refused r) ∧
  (∀ (s : State) (n : Nat) (pe : Pe) (i : Instr) (code : StateCode) (v : Elem),
    s.activePe = some (n, pe) → encode s.params i = .peState code → waitsForUnit code = true →
    pe.afSeen = some v → ((s.peInput n).afRespValid = false ∨ (s.peInput n).afOut ≠ v) →
    ∃ r, exec i s = .refused r) ∧
  (∀ (s : State) (n : Nat) (pe : Pe) (i : Instr) (code : StateCode),
    s.activePe = some (n, pe) → encode s.params i = .peState code → waitsForUnit code = true →
    (s.peInput n).afRespValid = true →
    ((s.peInput n).reqValid = false → pe.afAsked = none → ∃ r, exec i s = .refused r) ∧
    ((s.peInput n).reqValid = false → ∀ a, pe.afAsked = some a →
      (s.peInput n).afOut ≠ unitAnswer s.params a → ∃ r, exec i s = .refused r) ∧
    ((s.peInput n).reqValid = true → ¬unitAnswers s.params code pe (s.peInput n) →
      ∃ r, exec i s = .refused r)) ∧
  (∀ (s : State) (p : Nat) (q : Port) (r hi lo : Nat) (e : Elem) (b : Block), PortReady s p q →
    (s.params.nb ≤ r → exec (.rd r) s = .refused .addressOutOfRange) ∧
    (s.params.nb ≤ r ∨ s.params.nb ≤ hi ∨ s.params.epb ≤ lo →
      (q.pend.valid = true ∧ q.pend.addrHi = hi → q.pend.wType = 0) →
      exec (.wrE r hi lo e b) s = .refused .addressOutOfRange) ∧
    (s.params.nb ≤ r ∨ s.params.nb ≤ hi ∨ s.params.epb ≤ lo →
      (q.pend.valid = true ∧ q.pend.addrHi = hi → q.pend.wType = 1) →
      exec (.wrB r hi lo e b) s = .refused .addressOutOfRange) ∧
    (s.params.nb ≤ r ∨ s.params.nb ≤ hi ∨ s.params.epb ≤ lo →
      (q.pend.valid = true ∧ q.pend.addrHi = hi → q.pend.wType = 2) →
      exec (.wrA r hi lo e b) s = .refused .addressOutOfRange))

/-! ## The bank -/

/-- RD (R141): `dout` is the architectural contents of the block, the pending write is stored, and the
pending entry empties. The bypass and a store-back whatever is read are the spec's decision D11, the
fields that an invalid entry keeps its decision D15 (log entry 23). -/
def Obligations.ReadReturnsContents : Prop :=
  ∀ (s : State) (p : Nat) (q : Port) (r : Nat), PortReady s p q → r < s.params.nb →
    exec (.rd r) s = .next (s.setPort p
      { q with
        dout := q.arch s.params r,
        mem := if q.pend.valid = true then
                 q.storeBlock s.params q.pend.addrHi (q.arch s.params q.pend.addrHi)
               else q.mem,
        pend := { q.pend with valid := false } })

/-- WR.E (R142): a pending element write of the same block takes the new element in and is stored;
otherwise the write is deferred to the pending entry. -/
def Obligations.ElementWrite : Prop :=
  ∀ (s : State) (p : Nat) (q : Port) (r hi lo : Nat) (e : Elem) (b : Block), PortReady s p q →
    r < s.params.nb → hi < s.params.nb → lo < s.params.epb →
    (q.pend.valid = true → q.pend.addrHi = hi → q.pend.wType = 0 →
      ∀ blk, blk = ((q.readBlock s.params hi).set q.pend.addrLo q.pend.dataElement).set lo e →
      exec (.wrE r hi lo e b) s = .next (s.setPort p
        { q with
          dout := if r = hi then blk else q.readBlock s.params r,
          mem := q.storeBlock s.params hi blk,
          pend := { q.pend with valid := false } })) ∧
    (¬(q.pend.valid = true ∧ q.pend.addrHi = hi) →
      exec (.wrE r hi lo e b) s = .next (s.setPort p
        { q with
          dout := q.arch s.params r,
          mem := if q.pend.valid = true then
                   q.storeBlock s.params q.pend.addrHi (q.arch s.params q.pend.addrHi)
                 else q.mem,
          pend := { valid := true, wType := 0, dataElement := e, dataBlock := b, addrHi := hi,
                    addrLo := lo } }))

/-- WR.B (R143): a pending overwrite of the same block is replaced by the new block, which is stored;
otherwise the write is deferred. -/
def Obligations.BlockOverwrite : Prop :=
  ∀ (s : State) (p : Nat) (q : Port) (r hi lo : Nat) (e : Elem) (b : Block), PortReady s p q →
    r < s.params.nb → hi < s.params.nb → lo < s.params.epb →
    (q.pend.valid = true → q.pend.addrHi = hi → q.pend.wType = 1 →
      exec (.wrB r hi lo e b) s = .next (s.setPort p
        { q with
          dout := if r = hi then b else q.readBlock s.params r,
          mem := q.storeBlock s.params hi b,
          pend := { q.pend with valid := false } })) ∧
    (¬(q.pend.valid = true ∧ q.pend.addrHi = hi) →
      exec (.wrB r hi lo e b) s = .next (s.setPort p
        { q with
          dout := q.arch s.params r,
          mem := if q.pend.valid = true then
                   q.storeBlock s.params q.pend.addrHi (q.arch s.params q.pend.addrHi)
                 else q.mem,
          pend := { valid := true, wType := 1, dataElement := e, dataBlock := b, addrHi := hi,
                    addrLo := lo } }))

/-- WR.A (R144): with a pending accumulate of the same block, new element, pending element and stored
element are added in one store-back, wrapped per element; otherwise the write is deferred. -/
def Obligations.BlockAccumulate : Prop :=
  ∀ (s : State) (p : Nat) (q : Port) (r hi lo : Nat) (e : Elem) (b : Block), PortReady s p q →
    r < s.params.nb → hi < s.params.nb → lo < s.params.epb → b.length = s.params.epb →
    (q.pend.valid = true → q.pend.addrHi = hi → q.pend.wType = 2 →
      ∀ blk, blk = (List.range s.params.epb).map (fun j =>
          Int.bmod (b.getD j 0 + q.pend.dataBlock.getD j 0 +
            q.readElem s.params (elemAddr s.params hi j)) (2 ^ s.params.w)) →
      exec (.wrA r hi lo e b) s = .next (s.setPort p
        { q with
          dout := if r = hi then blk else q.readBlock s.params r,
          mem := q.storeBlock s.params hi blk,
          pend := { q.pend with valid := false } })) ∧
    (¬(q.pend.valid = true ∧ q.pend.addrHi = hi) →
      exec (.wrA r hi lo e b) s = .next (s.setPort p
        { q with
          dout := q.arch s.params r,
          mem := if q.pend.valid = true then
                   q.storeBlock s.params q.pend.addrHi (q.arch s.params q.pend.addrHi)
                 else q.mem,
          pend := { valid := true, wType := 2, dataElement := e, dataBlock := b, addrHi := hi,
                    addrLo := lo } }))

/-- The illegal command (R271): BANK_WTYPE_ILLEGAL with port, cycle, type and block, whatever is
pending and whatever is addressed; no other agent changes. That the violation is judged before the
addresses is log entry 18, and that a fault is a next state log entry 10. -/
def Obligations.IllegalTypeFaults : Prop :=
  ∀ (s : State) (p : Nat) (q : Port) (r hi lo : Nat) (e : Elem) (b : Block),
    s.activePort = some (p, q) → q.bankFault = none →
    ∃ u, exec (.illegalWtype3 r hi lo e b) s = .next (s.setPort p u) ∧
      u.bankFault = some (.wtypeIllegal p s.cycle 3 hi)

/-- A write of another type to the pending block (R272): BANK_WTYPE_MISMATCH with port, cycle, both
types and the block, for every ordered pair of different types. That the violation is judged before
the addresses is log entry 18, and that a fault is a next state log entry 10. -/
def Obligations.TypeMismatchFaults : Prop :=
  ∀ (s : State) (p : Nat) (q : Port) (r hi lo : Nat) (e : Elem) (b : Block),
    s.activePort = some (p, q) → q.bankFault = none → q.pend.valid = true → q.pend.addrHi = hi →
    (q.pend.wType ≠ 0 → ∃ u, exec (.wrE r hi lo e b) s = .next (s.setPort p u) ∧
      u.bankFault = some (.wtypeMismatch p s.cycle q.pend.wType 0 hi)) ∧
    (q.pend.wType ≠ 1 → ∃ u, exec (.wrB r hi lo e b) s = .next (s.setPort p u) ∧
      u.bankFault = some (.wtypeMismatch p s.cycle q.pend.wType 1 hi)) ∧
    (q.pend.wType ≠ 2 → ∃ u, exec (.wrA r hi lo e b) s = .next (s.setPort p u) ∧
      u.bankFault = some (.wtypeMismatch p s.cycle q.pend.wType 2 hi))

/-- A faulted port (R276; the form of its unspecified contents is the model's, log entries 8 and 9):
every command runs and the record stays the first one; and from the faulting cycle on storage, pending
entry and read data are unspecified, anew (from a new generation) in every cycle. -/
def Obligations.FaultedPortStaysFaulted : Prop :=
  ∀ (s : State) (p : Nat) (q : Port) (i : Instr) (bits : Nat),
    s.activePort = some (p, q) → encode s.params i = .bank bits →
    (∀ f, q.bankFault = some f →
      ∃ u, exec i s = .next (s.setPort p u) ∧ u.bankFault = some f) ∧
    ∀ t u, exec i s = .next t → t.ports[p]? = some u → u.bankFault.isSome = true →
      u.origin.gen = q.origin.gen + 1 ∧ u.dout = unspecDout s.params u.origin ∧
      u.pend = unspecPending s.params u.origin
        (bitBool (Config.unspecified (.pend u.origin .valid 0)).toNat) ∧
      ∀ a, u.readElem s.params a = unspecElem s.params (.mem u.origin a)

/-- Writes take effect in issue order, each by its sequential meaning (R69 points 1 to 3): a command
that raises no violation turns the architectural contents A into A with the write applied, and `dout`
is A of the read block, with the write applied where it is forwarded to that block. -/
def Obligations.WritesApplyInOrder : Prop :=
  ∀ (s : State) (p : Nat) (q : Port) (r hi lo : Nat) (e : Elem) (b : Block), PortReady s p q →
    1 ≤ s.params.w → r < s.params.nb → hi < s.params.nb → lo < s.params.epb →
    b.length = s.params.epb →
    (∃ u, exec (.rd r) s = .next (s.setPort p u) ∧ u.dout = q.arch s.params r ∧
      ∀ x, u.arch s.params x = q.arch s.params x) ∧
    ((q.pend.valid = true ∧ q.pend.addrHi = hi → q.pend.wType = 0) →
      ∃ u, exec (.wrE r hi lo e b) s = .next (s.setPort p u) ∧
        (∀ x, u.arch s.params x =
          if x = hi then (q.arch s.params x).set lo e else q.arch s.params x) ∧
        u.dout = if q.pend.valid = true ∧ q.pend.addrHi = hi ∧ r = hi then u.arch s.params r
                 else q.arch s.params r) ∧
    ((q.pend.valid = true ∧ q.pend.addrHi = hi → q.pend.wType = 1) →
      ∃ u, exec (.wrB r hi lo e b) s = .next (s.setPort p u) ∧
        (∀ x, u.arch s.params x = if x = hi then b else q.arch s.params x) ∧
        u.dout = if q.pend.valid = true ∧ q.pend.addrHi = hi ∧ r = hi then u.arch s.params r
                 else q.arch s.params r) ∧
    ((q.pend.valid = true ∧ q.pend.addrHi = hi → q.pend.wType = 2) →
      ∃ u, exec (.wrA r hi lo e b) s = .next (s.setPort p u) ∧
        (∀ x, u.arch s.params x =
          if x = hi then List.zipWith (fun y z => wrap s.params.w (y + z)) (q.arch s.params x) b
          else q.arch s.params x) ∧
        u.dout = if q.pend.valid = true ∧ q.pend.addrHi = hi ∧ r = hi then u.arch s.params r
                 else q.arch s.params r)

/-- Forwarding correctness (R151): for a deferred write and a write of the same type to the same block
in the next cycle, that cycle's `dout` at the block, and the stored block from then on, are the block
with the two writes applied in order. -/
def Obligations.ForwardingIsSequential : Prop :=
  ∀ (s : State) (p : Nat) (q : Port) (r hi lo₁ lo₂ : Nat) (e₁ e₂ : Elem) (b₁ b₂ : Block),
    PortReady s p q → 1 ≤ s.params.w → r < s.params.nb → hi < s.params.nb →
    lo₁ < s.params.epb → lo₂ < s.params.epb →
    b₁.length = s.params.epb → b₂.length = s.params.epb →
    ¬(q.pend.valid = true ∧ q.pend.addrHi = hi) →
    (∃ u v, exec (.wrE r hi lo₁ e₁ b₁) s = .next (s.setPort p u) ∧
      exec (.wrE hi hi lo₂ e₂ b₂) (s.setPort p u) = .next (s.setPort p v) ∧
      v.dout = ((q.readBlock s.params hi).set lo₁ e₁).set lo₂ e₂ ∧
      v.readBlock s.params hi = v.dout ∧ v.pend.valid = false) ∧
    (∃ u v, exec (.wrB r hi lo₁ e₁ b₁) s = .next (s.setPort p u) ∧
      exec (.wrB hi hi lo₂ e₂ b₂) (s.setPort p u) = .next (s.setPort p v) ∧
      v.dout = b₂ ∧ v.readBlock s.params hi = v.dout ∧ v.pend.valid = false) ∧
    (∃ u v, exec (.wrA r hi lo₁ e₁ b₁) s = .next (s.setPort p u) ∧
      exec (.wrA hi hi lo₂ e₂ b₂) (s.setPort p u) = .next (s.setPort p v) ∧
      v.dout = (List.range s.params.epb).map (fun j =>
        wrap s.params.w (q.readElem s.params (elemAddr s.params hi j) + b₁.getD j 0 +
          b₂.getD j 0)) ∧
      v.readBlock s.params hi = v.dout ∧ v.pend.valid = false)

/-- Quiescence (R153): after a cycle without a write nothing is pending and storage equals the
architectural contents; and while nothing is pending no command changes storage in its own cycle. -/
def Obligations.QuietPortIsSettled : Prop :=
  (∀ (s : State) (p : Nat) (q : Port) (r : Nat), PortReady s p q → r < s.params.nb →
    ∃ u, exec (.rd r) s = .next (s.setPort p u) ∧ u.pend.valid = false ∧
      ∀ x, u.readBlock s.params x = q.arch s.params x) ∧
  (∀ (s t : State) (p : Nat) (q : Port) (i : Instr) (bits : Nat), PortReady s p q →
    q.pend.valid = false → encode s.params i = .bank bits → (∀ r hi lo e b, i ≠ .illegalWtype3 r hi lo e b) →
    exec i s = .next t → ∃ u, t.ports[p]? = some u ∧ u.mem = q.mem)

/-! ## Frames and independence -/

/-- One instruction moves one agent (R7, R8): nothing of the state changes but the active PE, or the
active port. -/
def Obligations.OneAgentMoves : Prop :=
  ∀ (i : Instr) (s t : State), exec i s = .next t →
    (∃ n pe u, s.activePe = some (n, pe) ∧ t = s.setPe n u ∧ (∃ code, encode s.params i = .peState code)) ∨
    (∃ p q u, s.activePort = some (p, q) ∧ t = s.setPort p u ∧ (∃ bits, encode s.params i = .bank bits))

/-- The frame on storage, element by element (R60, R65, R75): a PE action changes no element of any
port; a bank command that leaves its port without a fault changes only the block that the pending
entry of the cycle's start addresses, on its own port. -/
def Obligations.StorageFrame : Prop :=
  (∀ (i : Instr) (s t : State) (code : StateCode), encode s.params i = .peState code →
    exec i s = .next t →
    ∀ (p : Nat) (q : Port), s.ports[p]? = some q → ∃ u, t.ports[p]? = some u ∧
      ∀ a, u.readElem s.params a = q.readElem s.params a) ∧
  (∀ (i : Instr) (s t : State) (p : Nat) (q u : Port), PortReady s p q →
    i.wellFormed s.params = true → exec i s = .next t → t.ports[p]? = some u →
    u.bankFault = none →
    (∀ hi j, j < s.params.epb → ¬(q.pend.valid = true ∧ hi = q.pend.addrHi) →
      u.readElem s.params (elemAddr s.params hi j) =
        q.readElem s.params (elemAddr s.params hi j)) ∧
    (∀ p', p' ≠ p → t.ports[p']? = s.ports[p']?))

/-- Ports do not interact, and neither do PEs (R70, R283): what an agent becomes in its cycle depends
on its own registers, its own inputs, the sizes and the cycle number, and on nothing else of the
state. That each port has a storage of its own is the spec's decision D12 (R37, log entry 23). -/
def Obligations.AgentsDoNotInteract : Prop :=
  (∀ (s₁ s₂ t₁ : State) (p : Nat) (q : Port) (i : Instr), s₁.params = s₂.params →
    s₁.cycle = s₂.cycle → s₁.activePort = some (p, q) → s₂.activePort = some (p, q) →
    exec i s₁ = .next t₁ → ∃ t₂, exec i s₂ = .next t₂ ∧ t₁.ports[p]? = t₂.ports[p]?) ∧
  (∀ (s₁ s₂ t₁ : State) (n : Nat) (pe : Pe) (i : Instr), s₁.params = s₂.params →
    s₁.cycle = s₂.cycle → s₁.activePe = some (n, pe) → s₂.activePe = some (n, pe) →
    s₁.peInput n = s₂.peInput n →
    exec i s₁ = .next t₁ → ∃ t₂, exec i s₂ = .next t₂ ∧ t₁.pes[n]? = t₂.pes[n]?)

/-! ## The step -/

/-- A step runs the decoded instruction: the one that the active PE's state register holds, or the one
that the active port's command word of the cycle spells; then the turn passes on. -/
def Obligations.StepRunsTheDecodedInstruction : Prop :=
  ∀ (s : State) (i : Instr), s.resetAsked = false → s.fetch = .ok i →
    (∀ n pe, s.turn = .pe n → s.pes[n]? = some pe → i = decodeState pe.state) ∧
    (∀ p, s.turn = .port p → decodeBank s.params (s.cmdWord p) = .ok i) ∧
    (∀ t, exec i s = .next t → step s = .next t.endTurn) ∧
    (∀ f, exec i s = .fault f → step s = .fault f) ∧
    (∀ r, exec i s = .refused r → step s = .refused r)

/-- The turns make one cycle (R7): from the first agent's turn, as many turns as there are agents give
the first agent's turn again, one cycle later, with the stimulus one line on. -/
def Obligations.TurnsMakeOneCycle : Prop :=
  ∀ s : State, s.turn = .pe 0 → 1 ≤ s.pes.length → 1 ≤ s.ports.length →
    State.endTurn^[s.pes.length + s.ports.length] s =
      { s with cycle := s.cycle + 1, stimulus := s.stimulus.tail }

/-- A step that is no reset keeps every fault record that is written (R276, R277). -/
def Obligations.FaultRecordsAreSticky : Prop :=
  ∀ s t : State, s.resetAsked = false → step s = .next t →
    (∀ (n : Nat) (pe : Pe) (f : PeFault), s.pes[n]? = some pe → pe.peFault = some f →
      ∃ u, t.pes[n]? = some u ∧ u.peFault = some f) ∧
    (∀ (p : Nat) (q : Port) (f : BankFault), s.ports[p]? = some q → q.bankFault = some f →
      ∃ u, t.ports[p]? = some u ∧ u.bankFault = some f)

/-- Every register has its writers and no others (the "written by" column of R20, with R21): a step
that is no reset changes a register of a PE only in the states whose rules assign it. -/
def Obligations.RegistersKeepToTheirWriters : Prop :=
  ∀ (s t : State) (n : Nat) (pe u : Pe), s.resetAsked = false → step s = .next t →
    s.pes[n]? = some pe → t.pes[n]? = some u →
    (u.hasBias ≠ pe.hasBias → pe.state ∈ ([0, 3] : List StateCode)) ∧
    (u.index ≠ pe.index → pe.state ∈ ([1, 5, 12, 16, 23, 27] : List StateCode)) ∧
    (u.acc ≠ pe.acc → pe.state ∈ ([3, 5] : List StateCode)) ∧
    (u.weightWB ≠ pe.weightWB → pe.state ∈ ([16, 23, 27] : List StateCode)) ∧
    (u.dataOut ≠ pe.dataOut → pe.state ∈ ([1, 6, 19, 27] : List StateCode)) ∧
    (u.derivative ≠ pe.derivative → pe.state = 7) ∧
    (u.errorOut ≠ pe.errorOut → pe.state ∈ ([10, 11, 12] : List StateCode)) ∧
    (u.mse ≠ pe.mse → pe.state = 10)

/-- A PE is returned to UNALLOCATED only by its own completion (R278), enters ERROR only on a reserved
`stateLearn` code (R182, the spec's decision D31, log entry 23), and never leaves it (R182, R183): no
step but a reset does otherwise. -/
def Obligations.OnlyCompletionReleases : Prop :=
  ∀ (s t : State) (n : Nat) (pe u : Pe), s.resetAsked = false → step s = .next t →
    s.pes[n]? = some pe → t.pes[n]? = some u →
    (u.state = Code.unallocated → pe.state ≠ Code.unallocated →
      pe.state ∈ [Code.done, Code.slopeWb, Code.errorBackpropWeightWb,
        Code.weightUpdateWriteBias]) ∧
    (u.state = Code.error → pe.state ≠ Code.error →
      pe.state ∈ [Code.waitForInfo, Code.waitForInputsAndWeights] ∧
      5 ≤ (s.peInput n).req.stateLearn.toNat) ∧
    (pe.state = Code.error → u.state = Code.error)

/-! ## Reset -/

/-- The reset values that the spec gives (R42, R301), for every legal size and every PE and port. -/
def Obligations.ResetValues : Prop :=
  ∀ (c : Params) (run : Nat),
    (State.resetOf c run).pes.length = c.npe ∧ (State.resetOf c run).ports.length = c.np ∧
    (∀ pe ∈ (State.resetOf c run).pes, pe.state = Code.unallocated ∧ pe.index = 0 ∧
      pe.hasBias = false ∧ pe.peFault = none ∧ pe.out.respValid = false ∧ pe.out.ready = true) ∧
    (∀ q ∈ (State.resetOf c run).ports, q.pend.valid = false ∧ q.bankFault = none) ∧
    (State.resetOf c run).cycle = 0 ∧ State.reset = State.resetOf Params.table 0

/-- The global reset (R300): asked for by the stimulus, it puts every PE and port into the reset
state, clears every fault record, and is one step, from any state. -/
def Obligations.GlobalResetRestarts : Prop :=
  ∀ (s : State) (rest : List Event), s.stimulus = .reset :: rest →
    ∃ t, step s = .next t ∧ t.pes = (State.resetOf s.params (s.run + 1)).pes ∧
      t.ports = (State.resetOf s.params (s.run + 1)).ports ∧ t.faultFree = true ∧
      t.turn = .pe 0 ∧ t.cycle = 0 ∧ t.params = s.params ∧ t.stimulus = rest

/-! ## Invariants -/

/-- Every step keeps a well-formed state well formed: the sizes, the number of agents, every register
and every stored element within its width (R20, R37, R38, R120), each storage in its canonical form,
every PE in one of the 31 named states (R100). -/
def Obligations.StepKeepsWellFormed : Prop :=
  ∀ s t : State, s.wf = true → step s = .next t → t.wf = true

/-- Every step keeps `index` within `[0, numWeights]` of the open allocation (R23, marked derived) in
every state but GET_INFO, which shows the last allocation's `index` until its advance clears it (R177,
vector P14 cycle 1); and below `numWeights` in the states that still have a weight to process. The
open allocation's `numWeights` is the model's record of it (log entry 16). -/
def Obligations.StepKeepsIndexInRange : Prop :=
  ∀ s t : State, (∀ pe ∈ s.pes, pe.indexOk = true) → step s = .next t →
    ∀ pe ∈ t.pes, pe.indexOk = true

/-- Every step keeps the bias loaded where it is needed (R24, R307), and a PE in ERROR exactly where
its fault is recorded (R273, R276). -/
def Obligations.StepKeepsBiasAndErrorRecords : Prop :=
  ∀ s t : State, (∀ pe ∈ s.pes, pe.biasOk = true ∧ pe.errorOk = true) → step s = .next t →
    ∀ pe ∈ t.pes, pe.biasOk = true ∧ pe.errorOk = true

/-- Reset meets the invariants, for all legal sizes. -/
def Obligations.ResetMeetsTheInvariants : Prop :=
  ∀ (c : Params) (run : Nat), c.ok = true →
    (State.resetOf c run).wf = true ∧
    ∀ pe ∈ (State.resetOf c run).pes, pe.indexOk = true ∧ pe.biasOk = true ∧ pe.errorOk = true

/-- From a well-formed state no step ends in a fault: what stops the machine is only a breach of an
environment duty (R280). -/
def Obligations.WellFormedNeverFaults : Prop :=
  ∀ (s : State) (f : Fault), s.wf = true → step s ≠ .fault f
end

