-- ==== Sys2Proof/Laws/FixedPoint.lean ====
section
/-! SUPPORT. What the fixed-point helpers give: ranges, and how truncation composes. -/

namespace Sys2Proof

theorem two_pow_pred {w : Nat} (hw : 1 ≤ w) : (2 : Nat) ^ w = 2 * 2 ^ (w - 1) := by
  obtain ⟨k, rfl⟩ : ∃ k, w = k + 1 := ⟨w - 1, by omega⟩
  simp [Nat.pow_succ, Nat.mul_comm]

theorem inRange_iff {w : Nat} {v : Int} :
    inRange w v = true ↔ -((2 ^ (w - 1) : Nat) : Int) ≤ v ∧ v < ((2 ^ (w - 1) : Nat) : Int) := by
  simp only [inRange, decide_eq_true_eq]

theorem wrap_inRange {w : Nat} (hw : 1 ≤ w) (v : Int) : inRange w (wrap w v) = true := by
  rw [inRange_iff]
  have hpos : 0 < 2 ^ w := Nat.two_pow_pos w
  have h1 := Int.le_bmod (x := v) hpos
  have h2 := Int.bmod_lt (x := v) hpos
  have h := two_pow_pred hw
  unfold wrap
  omega

/-- A truncated value is in range at every width (at width 0 the range is that of width 1). -/
theorem wrap_inRange_any (w : Nat) (v : Int) : inRange w (wrap w v) = true := by
  rcases Nat.eq_zero_or_pos w with rfl | hw
  · simp [wrap, inRange, Int.bmod]
  · exact wrap_inRange hw v

theorem wrap_of_inRange {w : Nat} (hw : 1 ≤ w) {v : Int} (h : inRange w v = true) :
    wrap w v = v := by
  rw [inRange_iff] at h
  have h2 := two_pow_pred hw
  unfold wrap
  apply Int.bmod_eq_of_le <;> omega

theorem zero_inRange (w : Nat) : inRange w 0 = true := by
  rw [inRange_iff]
  have := Nat.two_pow_pos (w - 1)
  omega

theorem mulshift_inRange {w : Nat} (hw : 1 ≤ w) (a b : Int) (d : Nat) :
    inRange w (mulshift w a b d) = true := wrap_inRange hw _

theorem accum_inRange {w : Nat} (hw : 1 ≤ w) (acc a b : Int) (d : Nat) :
    inRange w (accum w acc a b d) = true := wrap_inRange hw _

/-- Truncating a summand first does not change the truncated sum. -/
theorem wrap_wrap_add (w : Nat) (a b : Int) : wrap w (wrap w a + b) = wrap w (a + b) :=
  Int.bmod_add_bmod

theorem wrap_add_wrap (w : Nat) (a b : Int) : wrap w (a + wrap w b) = wrap w (a + b) := by
  rw [Int.add_comm, wrap_wrap_add, Int.add_comm]

theorem unspecElem_inRange {c : Params} (hw : 1 ≤ c.w) (p : Config.Place) :
    inRange c.w (unspecElem c p) = true := wrap_inRange hw _

theorem toBits_lt (w : Nat) (v : Elem) : toBits w v < 2 ^ w := by
  unfold toBits
  have h0 : (0 : Int) < ((2 ^ w : Nat) : Int) := by exact_mod_cast Nat.two_pow_pos w
  have h1 := Int.emod_lt_of_pos v h0
  have h2 := Int.emod_nonneg v (ne_of_gt h0)
  omega

/-- Reading back the bit pattern of a `W`-bit element gives the element. -/
theorem ofBits_toBits {w : Nat} (hw : 1 ≤ w) {v : Elem} (h : inRange w v = true) :
    ofBits w (toBits w v) = v := by
  unfold ofBits toBits
  have h0 : ((2 ^ w : Nat) : Int) ≠ 0 := by exact_mod_cast (Nat.two_pow_pos w).ne'
  rw [Int.toNat_of_nonneg (Int.emod_nonneg v h0)]
  have : wrap w (v % ((2 ^ w : Nat) : Int)) = wrap w v := Int.emod_bmod v (2 ^ w)
  rw [this, wrap_of_inRange hw h]

theorem ofBits_inRange {w : Nat} (hw : 1 ≤ w) (n : Nat) : inRange w (ofBits w n) = true :=
  wrap_inRange hw _

theorem fitsBlock_iff {c : Params} {b : Block} :
    fitsBlock c b = true ↔ b.length = c.epb ∧ ∀ v ∈ b, inRange c.w v = true := by
  simp [fitsBlock]

theorem fitsBlock_set {c : Params} {b : Block} {k : Nat} {v : Elem} (hb : fitsBlock c b = true)
    (hv : inRange c.w v = true) : fitsBlock c (b.set k v) = true := by
  rw [fitsBlock_iff] at *
  refine ⟨by simp [hb.1], fun u hu => ?_⟩
  rcases List.mem_or_eq_of_mem_set hu with h | h
  · exact hb.2 u h
  · exact h ▸ hv

theorem fitsBlock_map_range {c : Params} {f : Nat → Elem} (hf : ∀ j, inRange c.w (f j) = true) :
    fitsBlock c ((List.range c.epb).map f) = true := by
  rw [fitsBlock_iff]
  refine ⟨by simp, fun v hv => ?_⟩
  obtain ⟨j, -, rfl⟩ := List.mem_map.mp hv
  exact hf j

/-- An element of a block that fits its format is a `W`-bit value. -/
theorem fitsBlock_getD {c : Params} {b : Block} (hb : fitsBlock c b = true) (k : Nat) :
    inRange c.w (b.getD k 0) = true := by
  rw [List.getD_eq_getElem?_getD]
  cases h : b[k]? with
  | none => exact zero_inRange _
  | some v => exact (fitsBlock_iff.mp hb).2 v (List.mem_of_getElem? h)

theorem clog2Aux_spec (fuel n : Nat) (h : n ≤ fuel) : n ≤ 2 ^ clog2Aux fuel n := by
  induction fuel generalizing n with
  | zero => simp [clog2Aux]; omega
  | succ f ih =>
    simp only [clog2Aux]
    split
    · simpa using ‹n ≤ 1›
    · have := ih ((n + 1) / 2) (by omega)
      rw [Nat.pow_add]
      omega

/-- Every address below `n` fits `ceil(log2 n)` bits. -/
theorem le_two_pow_clog2 (n : Nat) : n ≤ 2 ^ clog2 n := clog2Aux_spec n n le_rfl

end Sys2Proof
end

