-- ==== Sys2Proof/Laws/Memory.lean ====
section
/-! SUPPORT. Storage: a read after a write, and every operation keeps the canonical form. -/

namespace Sys2Proof.Machine

/-- A read after a write of one element, at any address. -/
theorem lookup_write (m : Memory) (x y : Nat) (v : Elem) :
    Memory.lookup (Memory.write m x v) y = if x = y then some v else Memory.lookup m y := by
  induction m with
  | nil => simp [Memory.write, Memory.lookup]
  | cons e m ih =>
    obtain ⟨a, u⟩ := e
    simp only [Memory.write]
    split
    · simp [Memory.lookup]
    · split
      · rename_i h
        subst h
        simp only [Memory.lookup]
        split <;> rfl
      · rename_i h
        simp only [Memory.lookup, ih]
        by_cases h2 : a = y
        · subst h2
          simp [h]
        · simp [h2]

/-- Every address of a written storage was there or is the written one. -/
theorem mem_write {m : Memory} {x : Nat} {v : Elem} {e : Nat × Elem}
    (h : e ∈ Memory.write m x v) : e = (x, v) ∨ e ∈ m := by
  induction m with
  | nil => simpa [Memory.write] using h
  | cons a m ih =>
    obtain ⟨a, u⟩ := a
    simp only [Memory.write] at h
    split at h
    · simpa using h
    · split at h
      · rcases List.mem_cons.mp h with h | h
        · exact .inl h
        · exact .inr (List.mem_cons_of_mem _ h)
      · rcases List.mem_cons.mp h with h | h
        · exact .inr (h ▸ List.mem_cons_self)
        · rcases ih h with h | h
          · exact .inl h
          · exact .inr (List.mem_cons_of_mem _ h)

/-- Writing one element keeps the canonical form. -/
theorem write_wf {m : Memory} (h : Memory.wf m = true) (x : Nat) (v : Elem) :
    Memory.wf (Memory.write m x v) = true := by
  simp only [Memory.wf, decide_eq_true_eq] at *
  induction m with
  | nil => simp [Memory.write]
  | cons e m ih =>
    obtain ⟨a, u⟩ := e
    obtain ⟨h1, h2⟩ := List.pairwise_cons.mp h
    simp only [Memory.write]
    split
    · refine List.pairwise_cons.mpr ⟨fun e he => ?_, h⟩
      rcases List.mem_cons.mp he with rfl | he
      · assumption
      · exact lt_trans ‹x < a› (h1 e he)
    · split
      · exact List.pairwise_cons.mpr ⟨fun e he => ‹x = a› ▸ h1 e he, h2⟩
      · refine List.pairwise_cons.mpr ⟨fun e he => ?_, ih h2⟩
        rcases mem_write he with rfl | he
        · simp only
          omega
        · exact h1 e he

/-- Writing an element within the storage keeps every entry within it. -/
theorem write_within {c : Params} {m : Memory} (h : Memory.within c m = true) {x : Nat} {v : Elem}
    (hx : x < c.nb * c.epb) (hv : inRange c.w v = true) :
    Memory.within c (Memory.write m x v) = true := by
  simp only [Memory.within, List.all_eq_true, Bool.and_eq_true, decide_eq_true_eq] at *
  intro e he
  rcases mem_write he with rfl | he
  · exact ⟨hx, hv⟩
  · exact h e he

/-- A read after a write of consecutive elements. -/
theorem lookup_writeFrom (m : Memory) (x y : Nat) (b : Block) :
    Memory.lookup (Memory.writeFrom m x b) y =
      if x ≤ y ∧ y < x + b.length then b[y - x]? else Memory.lookup m y := by
  induction b generalizing m x with
  | nil =>
    simp [Memory.writeFrom]
  | cons v vs ih =>
    simp only [Memory.writeFrom, ih, lookup_write, List.length_cons]
    by_cases h : x = y
    · subst h
      simp
    · by_cases h2 : x + 1 ≤ y ∧ y < x + 1 + vs.length
      · have h3 : x ≤ y ∧ y < x + (vs.length + 1) := by omega
        obtain ⟨k, hk⟩ : ∃ k, y - x = k + 1 := ⟨y - x - 1, by omega⟩
        have hk2 : y - (x + 1) = k := by omega
        simp [h2, h3, hk, hk2]
      · have h3 : ¬(x ≤ y ∧ y < x + (vs.length + 1)) := by omega
        rw [if_neg h2, if_neg h, if_neg h3]

/-- Writing consecutive elements keeps the canonical form. -/
theorem writeFrom_wf {m : Memory} (h : Memory.wf m = true) (x : Nat) (b : Block) :
    Memory.wf (Memory.writeFrom m x b) = true := by
  induction b generalizing m x with
  | nil => exact h
  | cons v vs ih => exact ih (write_wf h x v) (x + 1)

/-- Writing consecutive elements within the storage keeps every entry within it. -/
theorem writeFrom_within {c : Params} {m : Memory} (h : Memory.within c m = true) {x : Nat}
    {b : Block} (hx : x + b.length ≤ c.nb * c.epb) (hb : ∀ v ∈ b, inRange c.w v = true) :
    Memory.within c (Memory.writeFrom m x b) = true := by
  induction b generalizing m x with
  | nil => exact h
  | cons v vs ih =>
    simp only [List.length_cons] at hx
    exact ih (write_within h (by omega) (hb v List.mem_cons_self)) (by omega)
      fun u hu => hb u (List.mem_cons_of_mem _ hu)

/-- Two elements are at one address only if they are the same element of the same block. -/
theorem elemAddr_inj {c : Params} {hi hi' j k : Nat} (hj : j < c.epb) (hk : k < c.epb)
    (h : elemAddr c hi j = elemAddr c hi' k) : hi = hi' ∧ j = k := by
  unfold elemAddr at h
  have h1 : (hi * c.epb + j) / c.epb = hi := by
    rw [Nat.mul_comm, Nat.mul_add_div (by omega), Nat.div_eq_of_lt hj, Nat.add_zero]
  have h2 : (hi' * c.epb + k) / c.epb = hi' := by
    rw [Nat.mul_comm, Nat.mul_add_div (by omega), Nat.div_eq_of_lt hk, Nat.add_zero]
  have : hi = hi' := by rw [← h1, ← h2, h]
  subst this
  exact ⟨rfl, by omega⟩

theorem elemAddr_lt {c : Params} {hi j : Nat} (hh : hi < c.nb) (hj : j < c.epb) :
    elemAddr c hi j < c.nb * c.epb := by
  unfold elemAddr
  calc hi * c.epb + j < hi * c.epb + c.epb := by omega
    _ = (hi + 1) * c.epb := by rw [Nat.add_mul, Nat.one_mul]
    _ ≤ c.nb * c.epb := Nat.mul_le_mul_right _ hh

theorem length_readBlock (c : Params) (q : Port) (hi : Nat) :
    (q.readBlock c hi).length = c.epb := by simp [Port.readBlock]

/-- A read of an element after a block has been stored (R65): the block's own elements are the stored
ones, every other element is as it was. -/
theorem readElem_storeBlock {c : Params} {q t : Port} {hi : Nat} {blk : Block}
    (hlen : blk.length = c.epb) (hmem : t.mem = q.storeBlock c hi blk)
    (ho : t.origin = q.origin) (hi' j : Nat) (hj : j < c.epb) :
    t.readElem c (elemAddr c hi' j) =
      if hi' = hi then blk.getD j 0 else q.readElem c (elemAddr c hi' j) := by
  unfold Port.readElem
  rw [hmem, ho, Port.storeBlock, lookup_writeFrom]
  have hz : elemAddr c hi 0 = hi * c.epb := by simp [elemAddr]
  rw [hz]
  by_cases h : hi' = hi
  · subst h
    have h1 : hi' * c.epb ≤ elemAddr c hi' j ∧ elemAddr c hi' j < hi' * c.epb + blk.length := by
      unfold elemAddr
      omega
    have h2 : elemAddr c hi' j - hi' * c.epb = j := by
      unfold elemAddr
      omega
    have h3 : j < blk.length := by omega
    simp [h1, h2, h3]
  · have h1 : ¬(hi * c.epb ≤ elemAddr c hi' j ∧ elemAddr c hi' j < hi * c.epb + blk.length) := by
      rintro ⟨ha, hb⟩
      have hk : elemAddr c hi' j - hi * c.epb < c.epb := by omega
      have : elemAddr c hi' j = elemAddr c hi (elemAddr c hi' j - hi * c.epb) := by
        conv_rhs => unfold elemAddr
        unfold elemAddr at ha ⊢
        omega
      exact h (elemAddr_inj hj hk this).1
    simp [h, h1]

/-- A read of a block after a block has been stored (R65). -/
theorem readBlock_storeBlock {c : Params} {q t : Port} {hi : Nat} {blk : Block}
    (hlen : blk.length = c.epb) (hmem : t.mem = q.storeBlock c hi blk)
    (ho : t.origin = q.origin) (hi' : Nat) :
    t.readBlock c hi' = if hi' = hi then blk else q.readBlock c hi' := by
  unfold Port.readBlock
  by_cases h : hi' = hi
  · subst h
    rw [if_pos rfl]
    apply List.ext_getElem
    · simp [hlen]
    · intro j h1 h2
      simp only [List.getElem_map, List.getElem_range]
      rw [readElem_storeBlock hlen hmem ho hi' j (by simpa using h1), if_pos rfl]
      simp [h2]
  · rw [if_neg h]
    apply List.map_congr_left
    intro j hj
    rw [readElem_storeBlock hlen hmem ho hi' j (List.mem_range.mp hj), if_neg h]

/-- Elements of a storage within its formats are `W`-bit values, the never-written ones too. -/
theorem readElem_inRange {c : Params} (hw : 1 ≤ c.w) {q : Port}
    (h : Memory.within c q.mem = true) (a : Nat) : inRange c.w (q.readElem c a) = true := by
  unfold Port.readElem
  split
  · rename_i v hv
    suffices ∀ m : Memory, Memory.lookup m a = some v → (a, v) ∈ m by
      simp only [Memory.within, List.all_eq_true, Bool.and_eq_true] at h
      exact (h _ (this _ hv)).2
    intro m
    induction m with
    | nil => simp [Memory.lookup]
    | cons e m ih =>
      obtain ⟨b, u⟩ := e
      simp only [Memory.lookup]
      split
      · intro he
        cases he
        subst_vars
        exact List.mem_cons_self
      · exact fun he => List.mem_cons_of_mem _ (ih he)
  · exact unspecElem_inRange hw _

theorem fitsBlock_readBlock {c : Params} (hw : 1 ≤ c.w) {q : Port}
    (h : Memory.within c q.mem = true) (hi : Nat) : fitsBlock c (q.readBlock c hi) = true :=
  fitsBlock_map_range fun _ => readElem_inRange hw h _

end Sys2Proof.Machine
end

