-- ==== Sys2Proof/Laws/State.lean ====
section
/-! SUPPORT. One small lemma per field per update of the state, and what the accessors give after an
update. -/

namespace Sys2Proof.Machine

section setPe
variable (s : State) (n : Nat) (pe : Pe)
@[simp] theorem setPe_params : (s.setPe n pe).params = s.params := rfl
@[simp] theorem setPe_pes : (s.setPe n pe).pes = s.pes.set n pe := rfl
@[simp] theorem setPe_ports : (s.setPe n pe).ports = s.ports := rfl
@[simp] theorem setPe_turn : (s.setPe n pe).turn = s.turn := rfl
@[simp] theorem setPe_cycle : (s.setPe n pe).cycle = s.cycle := rfl
@[simp] theorem setPe_run : (s.setPe n pe).run = s.run := rfl
@[simp] theorem setPe_stimulus : (s.setPe n pe).stimulus = s.stimulus := rfl
@[simp] theorem setPe_now : (s.setPe n pe).now = s.now := rfl
@[simp] theorem setPe_peInput (k : Nat) : (s.setPe n pe).peInput k = s.peInput k := rfl
@[simp] theorem setPe_cmdWord (k : Nat) : (s.setPe n pe).cmdWord k = s.cmdWord k := rfl
@[simp] theorem setPe_activePort : (s.setPe n pe).activePort = s.activePort := rfl
end setPe

section setPort
variable (s : State) (p : Nat) (q : Port)
@[simp] theorem setPort_params : (s.setPort p q).params = s.params := rfl
@[simp] theorem setPort_pes : (s.setPort p q).pes = s.pes := rfl
@[simp] theorem setPort_ports : (s.setPort p q).ports = s.ports.set p q := rfl
@[simp] theorem setPort_turn : (s.setPort p q).turn = s.turn := rfl
@[simp] theorem setPort_cycle : (s.setPort p q).cycle = s.cycle := rfl
@[simp] theorem setPort_run : (s.setPort p q).run = s.run := rfl
@[simp] theorem setPort_stimulus : (s.setPort p q).stimulus = s.stimulus := rfl
@[simp] theorem setPort_now : (s.setPort p q).now = s.now := rfl
@[simp] theorem setPort_peInput (k : Nat) : (s.setPort p q).peInput k = s.peInput k := rfl
@[simp] theorem setPort_cmdWord (k : Nat) : (s.setPort p q).cmdWord k = s.cmdWord k := rfl
@[simp] theorem setPort_activePe : (s.setPort p q).activePe = s.activePe := rfl
end setPort

section endTurn
variable (s : State)
@[simp] theorem endTurn_params : s.endTurn.params = s.params := by
  unfold State.endTurn; split <;> split <;> rfl
@[simp] theorem endTurn_pes : s.endTurn.pes = s.pes := by
  unfold State.endTurn; split <;> split <;> rfl
@[simp] theorem endTurn_ports : s.endTurn.ports = s.ports := by
  unfold State.endTurn; split <;> split <;> rfl
@[simp] theorem endTurn_run : s.endTurn.run = s.run := by
  unfold State.endTurn; split <;> split <;> rfl
end endTurn

section globalReset
variable (s : State)
@[simp] theorem globalReset_params : s.globalReset.params = s.params := rfl
@[simp] theorem globalReset_pes :
    s.globalReset.pes = (List.range s.params.npe).map (Pe.reset s.params (s.run + 1)) := rfl
@[simp] theorem globalReset_ports :
    s.globalReset.ports = (List.range s.params.np).map (Port.reset s.params (s.run + 1)) := rfl
@[simp] theorem globalReset_turn : s.globalReset.turn = .pe 0 := rfl
@[simp] theorem globalReset_cycle : s.globalReset.cycle = 0 := rfl
@[simp] theorem globalReset_run : s.globalReset.run = s.run + 1 := rfl
@[simp] theorem globalReset_stimulus : s.globalReset.stimulus = s.stimulus.tail := rfl
end globalReset

section place
variable (s : State)
@[simp] theorem placeCommand_pes (b : Nat) : (s.placeCommand b).pes = s.pes := rfl
@[simp] theorem placeCommand_ports (b : Nat) : (s.placeCommand b).ports = s.ports := rfl
@[simp] theorem placeCommand_params (b : Nat) : (s.placeCommand b).params = s.params := rfl
@[simp] theorem placePeState_ports (k : StateCode) (w : Nat) :
    (s.placePeState k w).ports = s.ports := rfl
@[simp] theorem placePeState_params (k : StateCode) (w : Nat) :
    (s.placePeState k w).params = s.params := rfl
end place

section raise
variable (pe : Pe) (f : PeFault)
@[simp] theorem raise_state : (pe.raise f).state = pe.state := rfl
@[simp] theorem raise_index : (pe.raise f).index = pe.index := rfl
@[simp] theorem raise_acc : (pe.raise f).acc = pe.acc := rfl
@[simp] theorem raise_weightWB : (pe.raise f).weightWB = pe.weightWB := rfl
@[simp] theorem raise_dataOut : (pe.raise f).dataOut = pe.dataOut := rfl
@[simp] theorem raise_derivative : (pe.raise f).derivative = pe.derivative := rfl
@[simp] theorem raise_errorOut : (pe.raise f).errorOut = pe.errorOut := rfl
@[simp] theorem raise_mse : (pe.raise f).mse = pe.mse := rfl
@[simp] theorem raise_hasBias : (pe.raise f).hasBias = pe.hasBias := rfl
@[simp] theorem raise_peFault : (pe.raise f).peFault = recordFault pe.peFault f := rfl
@[simp] theorem raise_alloc : (pe.raise f).alloc = pe.alloc := rfl
@[simp] theorem raise_afSeen : (pe.raise f).afSeen = pe.afSeen := rfl
@[simp] theorem raise_afAsked : (pe.raise f).afAsked = pe.afAsked := rfl
end raise

section recordFault
@[simp] theorem recordFault_none {α : Type} (f : α) : recordFault none f = some f := rfl
@[simp] theorem recordFault_some {α : Type} (g f : α) : recordFault (some g) f = some g := rfl
@[simp] theorem recordFault_isSome {α : Type} (o : Option α) (f : α) :
    (recordFault o f).isSome = true := by cases o <;> rfl
end recordFault

section port
variable (c : Params) (q : Port)
@[simp] theorem unspecify_mem : (q.unspecify c).mem = [] := rfl
@[simp] theorem unspecify_bankFault : (q.unspecify c).bankFault = q.bankFault := rfl
@[simp] theorem raisePort_mem (f : BankFault) : (q.raise c f).mem = [] := rfl
@[simp] theorem raisePort_bankFault (f : BankFault) :
    (q.raise c f).bankFault = recordFault q.bankFault f := rfl
@[simp] theorem tick_bankFault (r : Nat) (w : Option WriteCmd) :
    (q.tick c r w).bankFault = q.bankFault := rfl
@[simp] theorem tick_origin (r : Nat) (w : Option WriteCmd) :
    (q.tick c r w).origin = q.origin := rfl
@[simp] theorem tick_pend (r : Nat) (w : Option WriteCmd) :
    (q.tick c r w).pend = nextPending q.pend w := rfl
end port

/-- The active PE is the one that the turn names. -/
theorem activePe_eq {s : State} {n : Nat} {pe : Pe} :
    s.activePe = some (n, pe) ↔ s.turn = .pe n ∧ s.pes[n]? = some pe := by
  unfold State.activePe
  split
  · rename_i m h
    rw [Option.map_eq_some_iff]
    constructor
    · rintro ⟨a, ha, he⟩
      cases he
      exact ⟨h, ha⟩
    · rintro ⟨h1, h2⟩
      rw [h] at h1
      cases h1
      exact ⟨pe, h2, rfl⟩
  · rename_i m h
    simp [h]

/-- The active port is the one that the turn names. -/
theorem activePort_eq {s : State} {p : Nat} {q : Port} :
    s.activePort = some (p, q) ↔ s.turn = .port p ∧ s.ports[p]? = some q := by
  unfold State.activePort
  split
  · rename_i m h
    rw [Option.map_eq_some_iff]
    constructor
    · rintro ⟨a, ha, he⟩
      cases he
      exact ⟨h, ha⟩
    · rintro ⟨h1, h2⟩
      rw [h] at h1
      cases h1
      exact ⟨q, h2, rfl⟩
  · rename_i m h
    simp [h]

/-- After `setPe` on the active PE, the active PE is the new one. -/
theorem activePe_setPe {s : State} {n : Nat} {pe t : Pe} (h : s.activePe = some (n, pe)) :
    (s.setPe n t).activePe = some (n, t) := by
  obtain ⟨h1, h2⟩ := activePe_eq.mp h
  have hlt : n < s.pes.length := by
    by_contra hc
    simp [List.getElem?_eq_none (Nat.le_of_not_lt hc)] at h2
  exact activePe_eq.mpr ⟨h1, by simp [hlt]⟩

/-- After `setPort` on the active port, the active port is the new one. -/
theorem activePort_setPort {s : State} {p : Nat} {q t : Port} (h : s.activePort = some (p, q)) :
    (s.setPort p t).activePort = some (p, t) := by
  obtain ⟨h1, h2⟩ := activePort_eq.mp h
  have hlt : p < s.ports.length := by
    by_contra hc
    simp [List.getElem?_eq_none (Nat.le_of_not_lt hc)] at h2
  exact activePort_eq.mpr ⟨h1, by simp [hlt]⟩

end Sys2Proof.Machine
end

