-- ==== Sys2Proof/Laws/Bank.lean ====
section
/-! SUPPORT. Everything that a cycle of a bank port can do (R140), and what a tick does to the port. -/

namespace Sys2Proof.Machine

/-- Everything that `bankCycle` can answer with a next state: a faulted port's contents change freely,
a violation is taken, or the port ticks. -/
theorem bankCycle_next {r : Nat} {w : Option WriteCmd} {s t : State}
    (h : bankCycle r w s = .next t) :
    ∃ p q, s.activePort = some (p, q) ∧
      ((q.bankFault.isSome = true ∧ t = s.setPort p (q.unspecify s.params)) ∨
        (q.bankFault = none ∧ ∃ f, w.bind (violation p s.cycle q.pend) = some f ∧
          t = s.setPort p (q.raise s.params f)) ∨
        (q.bankFault = none ∧ w.bind (violation p s.cycle q.pend) = none ∧
          outOfRange s.params r w = false ∧ t = s.setPort p (q.tick s.params r w))) := by
  unfold bankCycle at h
  split at h
  · cases h
  · rename_i p q ha
    refine ⟨p, q, ha, ?_⟩
    split at h
    · cases h
      exact .inl ⟨‹_›, rfl⟩
    · rename_i hf
      have hf : q.bankFault = none := by simpa using hf
      split at h
      · rename_i f hv
        cases h
        exact .inr (.inl ⟨hf, f, hv, rfl⟩)
      · rename_i hv
        split at h <;> cases h
        exact .inr (.inr ⟨hf, hv, by simpa using ‹¬outOfRange _ _ _ = true›, rfl⟩)

/-- `bankCycle` faults only where no port is active. -/
theorem bankCycle_fault {r : Nat} {w : Option WriteCmd} {s : State} {f : Fault}
    (h : bankCycle r w s = .fault f) : s.activePort = none := by
  unfold bankCycle at h
  split at h
  · assumption
  · split at h
    · cases h
    · split at h
      · cases h
      · split at h <;> cases h

/-- A command without violation, within the storage, ticks the port (R140). -/
theorem bankCycle_ticks {r : Nat} {w : Option WriteCmd} {s : State} {p : Nat} {q : Port}
    (ha : s.activePort = some (p, q)) (hf : q.bankFault = none)
    (hv : w.bind (violation p s.cycle q.pend) = none)
    (ho : outOfRange s.params r w = false) :
    bankCycle r w s = .next (s.setPort p (q.tick s.params r w)) := by
  unfold bankCycle
  rw [ha]
  simp [hf, hv, ho]

/-- A violation is taken, whatever the addresses (R150, R276). -/
theorem bankCycle_violation {r : Nat} {w : Option WriteCmd} {s : State} {p : Nat} {q : Port}
    {f : BankFault} (ha : s.activePort = some (p, q)) (hf : q.bankFault = none)
    (hv : w.bind (violation p s.cycle q.pend) = some f) :
    bankCycle r w s = .next (s.setPort p (q.raise s.params f)) := by
  unfold bankCycle
  rw [ha]
  simp [hf, hv]

/-- A faulted port stays faulted (R276). -/
theorem bankCycle_faulted {r : Nat} {w : Option WriteCmd} {s : State} {p : Nat} {q : Port}
    (ha : s.activePort = some (p, q)) (hf : q.bankFault.isSome = true) :
    bankCycle r w s = .next (s.setPort p (q.unspecify s.params)) := by
  unfold bankCycle
  rw [ha]
  simp [hf]

/-- When a write raises no violation (R150). -/
theorem violation_none {p cycle : Nat} {pd : Pending} {wc : WriteCmd} :
    violation p cycle pd wc = none ↔
      wc.wType ≠ 3 ∧ (sameBlock pd wc = true → wc.wType = pd.wType) := by
  unfold violation
  by_cases h3 : wc.wType = 3
  · simp [h3]
  · rw [if_neg h3]
    cases hs : sameBlock pd wc <;> by_cases ht : wc.wType = pd.wType <;> simp_all

/-- Without a violation, a write to the pending block is forwarded (R146). -/
theorem forwards_of_noViolation {p cycle : Nat} {pd : Pending} {wc : WriteCmd}
    (h : violation p cycle pd wc = none) : forwards pd wc = sameBlock pd wc := by
  obtain ⟨-, h2⟩ := violation_none.mp h
  unfold forwards
  cases hs : sameBlock pd wc
  · rfl
  · simp [h2 hs]

theorem fitsBlock_addBlocks {c : Params} (hw : 1 ≤ c.w) {a b : Block} (ha : a.length = c.epb)
    (hb : b.length = c.epb) : fitsBlock c (addBlocks c.w a b) = true := by
  rw [fitsBlock_iff]
  refine ⟨by simp [addBlocks, ha, hb], fun v hv => ?_⟩
  obtain ⟨i, hi, rfl⟩ := List.getElem_of_mem hv
  simp only [addBlocks, List.getElem_zipWith]
  exact wrap_inRange hw _

theorem length_addBlocks (w : Nat) {a b : Block} {n : Nat} (ha : a.length = n)
    (hb : b.length = n) : (addBlocks w a b).length = n := by simp [addBlocks, ha, hb]

/-- The read-modify-write value is a block of `EPB` elements when the pending one is. -/
theorem length_rmw {c : Params} {pd : Pending} {old : Block} (hp : pd.dataBlock.length = c.epb)
    (ho : old.length = c.epb) : (rmw c pd old).length = c.epb := by
  unfold rmw
  split
  · simpa using ho
  · split
    · exact hp
    · split
      · exact length_addBlocks _ hp ho
      · exact ho

theorem length_foldWrite {c : Params} {wc : WriteCmd} {t : Block}
    (hw : wc.dinBlock.length = c.epb) (ht : t.length = c.epb) :
    (foldWrite c wc t).length = c.epb := by
  unfold foldWrite
  split
  · simpa using ht
  · split
    · exact hw
    · split
      · exact length_addBlocks _ hw ht
      · exact ht

theorem fitsBlock_rmw {c : Params} (hw : 1 ≤ c.w) {pd : Pending} {old : Block}
    (hp : pd.fits c = true) (ho : fitsBlock c old = true) : fitsBlock c (rmw c pd old) = true := by
  simp only [Pending.fits, Bool.and_eq_true] at hp
  unfold rmw
  split
  · exact fitsBlock_set ho hp.1.1.1
  · split
    · exact hp.1.1.2
    · split
      · exact fitsBlock_addBlocks hw (fitsBlock_iff.mp hp.1.1.2).1 (fitsBlock_iff.mp ho).1
      · exact ho

theorem fitsBlock_foldWrite {c : Params} (hw : 1 ≤ c.w) {wc : WriteCmd} {t : Block}
    (he : inRange c.w wc.dinElement = true) (hb : fitsBlock c wc.dinBlock = true)
    (ht : fitsBlock c t = true) : fitsBlock c (foldWrite c wc t) = true := by
  unfold foldWrite
  split
  · exact fitsBlock_set ht he
  · split
    · exact hb
    · split
      · exact fitsBlock_addBlocks hw (fitsBlock_iff.mp hb).1 (fitsBlock_iff.mp ht).1
      · exact ht

/-- The storage after a tick, block by block (R148): the pending entry's block becomes `comb`. -/
theorem readBlock_tick {c : Params} {q : Port} {r : Nat} {w : Option WriteCmd}
    (hlen : (comb c q w).length = c.epb) (hi : Nat) :
    (q.tick c r w).readBlock c hi =
      if q.pend.valid = true ∧ hi = q.pend.addrHi then comb c q w else q.readBlock c hi := by
  cases hv : q.pend.valid
  · have : (q.tick c r w).mem = q.mem := by simp [Port.tick, hv]
    simp [Port.readBlock, Port.readElem, this]
  · have : (q.tick c r w).mem = q.storeBlock c q.pend.addrHi (comb c q w) := by
      simp [Port.tick, hv]
    rw [readBlock_storeBlock hlen this rfl]
    simp

end Sys2Proof.Machine
end

