-- ==== Sys2Proof/Laws/Handshake.lean ====
section
/-! SUPPORT. Everything that a cycle of a PE can do (R170), and when it advances. -/

namespace Sys2Proof.Machine

/-- Everything that `peCycle` can answer with a next state: no duty is broken, and the PE advances by
its rule or holds. -/
theorem peCycle_next {code : StateCode} {rule : PeCtx → Pe → Pe} {s t : State}
    (h : peCycle code rule s = .next t) :
    ∃ n pe, s.activePe = some (n, pe) ∧ peBreach s.params code pe (s.peInput n) = none ∧
      ((advances code (s.peInput n) = true ∧
          t = s.setPe n (advancePe code rule (s.peCtx n) (s.peInput n) pe)) ∨
        (advances code (s.peInput n) = false ∧
          t = s.setPe n (holdPe s.params code (s.peInput n) pe))) := by
  unfold peCycle at h
  split at h
  · cases h
  · rename_i n pe ha
    split at h
    · cases h
    · rename_i hb
      refine ⟨n, pe, ha, hb, ?_⟩
      split at h <;> cases h
      · exact .inl ⟨‹_›, rfl⟩
      · exact .inr ⟨by simpa using ‹¬advances _ _ = true›, rfl⟩

/-- `peCycle` faults only where no PE is active. -/
theorem peCycle_fault {code : StateCode} {rule : PeCtx → Pe → Pe} {s : State} {f : Fault}
    (h : peCycle code rule s = .fault f) : s.activePe = none := by
  unfold peCycle at h
  split at h
  · assumption
  · split at h
    · cases h
    · split at h <;> cases h

/-- Everything that a cycle in ERROR can answer with a next state (R182). -/
theorem errorCycle_next {code : StateCode} {s t : State} (h : errorCycle code s = .next t) :
    ∃ n pe, s.activePe = some (n, pe) ∧
      t = s.setPe n { pe.raise (foundInError s n code) with
        out := peOutputs s.params code pe (s.peInput n) } := by
  unfold errorCycle at h
  split at h
  · cases h
  · rename_i n pe ha
    cases h
    exact ⟨n, pe, ha, rfl⟩

/-- The unit's answers are `W`-bit values (R6). -/
theorem unitAnswer_inRange (c : Params) (a : AfRequest) : inRange c.w (unitAnswer c a) = true :=
  wrap_inRange_any _ _

@[simp] theorem presented_valid {c : Params} {code : StateCode} {pe : Pe} {inp : PeInput}
    (hu : waitsForUnit code = true) (hv : inp.reqValid = true) :
    presented c code pe inp = some (unitRequest c code inp.req pe) := by
  simp [presented, hu, hv]

/-- The unit keeps its duty exactly when each response answers the request presented (R174). -/
theorem unitAnswerBreach_none {c : Params} {code : StateCode} {pe : Pe} {inp : PeInput} :
    unitAnswerBreach c code pe inp = none ↔
      (waitsForUnit code = true → inp.afRespValid = true →
        ∃ a, presented c code pe inp = some a ∧ inp.afOut = unitAnswer c a) := by
  unfold unitAnswerBreach
  cases waitsForUnit code <;> cases inp.afRespValid <;> simp
  cases presented c code pe inp <;> simp

/-- What keeping the duties means (R280, R302). -/
theorem peBreach_none {c : Params} {code : StateCode} {pe : Pe} {inp : PeInput} :
    peBreach c code pe inp = none ↔
      (inp.reqValid = true → inp.req.fits c = true) ∧
      (waitsForUnit code = true → inp.afRespValid = true → inRange c.w inp.afOut = true) ∧
      semiStaticBroken pe inp = false ∧ unitResponseBroken code pe inp = false ∧
      (advances code inp = true → inp.req.numWeights ≠ 0) ∧
      unitAnswerBreach c code pe inp = none := by
  unfold peBreach
  cases inp.reqValid <;> cases inp.req.fits c <;> cases waitsForUnit code <;>
    cases inp.afRespValid <;> cases inRange c.w inp.afOut <;> cases semiStaticBroken pe inp <;>
    cases unitResponseBroken code pe inp <;> cases advances code inp <;>
    cases unitAnswerBreach c code pe inp <;> cases h : (inp.req.numWeights == 0) <;> simp_all

/-- A served PE breaks no duty (R302). -/
theorem Serviced.noBreach {code : StateCode} {s : State} {n : Nat} {pe : Pe}
    (h : Serviced code s n pe) : peBreach s.params code pe (s.peInput n) = none := by
  refine peBreach_none.mpr ⟨fun _ => h.fits,
    fun hu _ => (h.unit hu).2.1 ▸ unitAnswer_inRange _ _, ?_, ?_, fun _ => h.weights,
    unitAnswerBreach_none.mpr fun hu _ => ⟨_, presented_valid hu h.valid, (h.unit hu).2.1⟩⟩
  · unfold semiStaticBroken
    split
    · rfl
    · rename_i ss hs
      simp [h.stable ss hs]
  · unfold unitResponseBroken
    split
    · rfl
    · rename_i v hv
      cases hu : waitsForUnit code
      · rfl
      · obtain ⟨h1, -, h3⟩ := h.unit hu
        simp [h1, (h3 v hv).symm]

/-- A served PE outside ERROR advances (R170, R171). -/
theorem Serviced.advances {code : StateCode} {s : State} {n : Nat} {pe : Pe}
    (h : Serviced code s n pe) (he : isErrorState code = false) :
    Machine.advances code (s.peInput n) = true := by
  unfold Machine.advances ready
  rw [h.valid, he]
  cases hu : waitsForUnit code
  · rfl
  · simp [(h.unit hu).1]

/-- A served PE outside ERROR completes its state's rule (R170). -/
theorem peCycle_serviced {code : StateCode} {rule : PeCtx → Pe → Pe} {s : State} {n : Nat}
    {pe : Pe} (h : Serviced code s n pe) (he : isErrorState code = false) :
    peCycle code rule s =
      .next (s.setPe n (advancePe code rule (s.peCtx n) (s.peInput n) pe)) := by
  unfold peCycle
  rw [h.active]
  simp [h.noBreach, h.advances he]

/-- A PE that is not served breaks no duty either. -/
theorem Unserved.noBreach {code : StateCode} {s : State} {n : Nat} {pe : Pe}
    (h : Unserved code s n pe) : peBreach s.params code pe (s.peInput n) = none := by
  have hadv : Machine.advances code (s.peInput n) = false := by
    unfold Machine.advances ready
    rcases h.idle with hi | ⟨h1, h2⟩
    · simp [hi]
    · simp [h1, h2]
  refine peBreach_none.mpr ⟨h.fits, fun hu hr => ?_, ?_, ?_, fun ha => by simp [hadv] at ha,
    unitAnswerBreach_none.mpr h.unit⟩
  · obtain ⟨a, -, he⟩ := h.unit hu hr
    exact he ▸ unitAnswer_inRange _ _
  · unfold semiStaticBroken
    split
    · rfl
    · rename_i ss hs
      cases hv : (s.peInput n).reqValid
      · rfl
      · simp [h.stable hv ss hs]
  · unfold unitResponseBroken
    split
    · rfl
    · rename_i v hv
      cases hu : waitsForUnit code
      · rfl
      · obtain ⟨h1, h2⟩ := h.kept hu v hv
        simp [h1, h2.symm]

/-- A PE that is not served holds (R170). -/
theorem peCycle_unserved {code : StateCode} {rule : PeCtx → Pe → Pe} {s : State} {n : Nat}
    {pe : Pe} (h : Unserved code s n pe) :
    peCycle code rule s = .next (s.setPe n (holdPe s.params code (s.peInput n) pe)) := by
  have hadv : Machine.advances code (s.peInput n) = false := by
    unfold Machine.advances ready
    rcases h.idle with hi | ⟨h1, h2⟩
    · simp [hi]
    · simp [h1, h2]
  unfold peCycle
  rw [h.active]
  simp [h.noBreach, hadv]

end Sys2Proof.Machine
end

