-- ==== Sys2Proof/Laws/Packing.lean ====
section
/-! SUPPORT. Packing and unpacking (R90) are inverse on fields that fit their widths. -/

namespace Sys2Proof

/-- Unpacking a packed record gives the fields, each cut to its width. -/
theorem unpackFields_packFields (fs : List (Nat × Nat)) :
    unpackFields (fs.map Prod.fst) (packFields fs) = fs.map fun f => f.2 % 2 ^ f.1 := by
  induction fs with
  | nil => rfl
  | cons f fs ih =>
    obtain ⟨k, v⟩ := f
    have hk : 0 < 2 ^ k := Nat.two_pow_pos k
    simp only [List.map_cons, unpackFields, packFields]
    rw [Nat.add_mul_mod_self_left, Nat.mod_mod, Nat.add_mul_div_left _ _ hk,
      Nat.div_eq_of_lt (Nat.mod_lt _ hk), Nat.zero_add, ih]

/-- A packed record has no bit above its fields. -/
theorem packFields_lt (fs : List (Nat × Nat)) :
    packFields fs < 2 ^ totalWidth (fs.map Prod.fst) := by
  induction fs with
  | nil => simp [packFields, totalWidth]
  | cons f fs ih =>
    obtain ⟨k, v⟩ := f
    have hk : v % 2 ^ k < 2 ^ k := Nat.mod_lt _ (Nat.two_pow_pos k)
    simp only [packFields, totalWidth, List.map_cons, List.sum_cons] at *
    rw [Nat.pow_add]
    have h := Nat.mul_le_mul_left (2 ^ k) (Nat.succ_le_of_lt ih)
    rw [Nat.mul_succ] at h
    omega

/-- A packed block has no bit above its elements. -/
theorem packBlock_lt (c : Params) {b : Block} (hb : b.length = c.epb) :
    packBlock c.w b < 2 ^ c.dw := by
  have h := packFields_lt (b.map fun v => (c.w, toBits c.w v))
  have e : totalWidth ((b.map fun v => (c.w, toBits c.w v)).map Prod.fst) = c.dw := by
    simp [totalWidth, Function.comp_def, hb, Params.dw, Nat.mul_comm]
  rwa [e] at h

/-- Reading back a packed block gives the block. -/
theorem unpackBlock_packBlock {c : Params} (hw : 1 ≤ c.w) {b : Block}
    (hb : fitsBlock c b = true) : unpackBlock c.w c.epb (packBlock c.w b) = b := by
  obtain ⟨hlen, hr⟩ := fitsBlock_iff.mp hb
  have h := unpackFields_packFields (b.map fun v => (c.w, toBits c.w v))
  have e : (b.map fun v => (c.w, toBits c.w v)).map Prod.fst = List.replicate c.epb c.w := by
    simp [Function.comp_def, hlen, List.map_const']
  rw [e] at h
  unfold unpackBlock packBlock
  rw [h]
  simp only [List.map_map]
  conv_rhs => rw [← List.map_id b]
  apply List.map_congr_left
  intro v hv
  simp only [Function.comp_apply, id]
  rw [Nat.mod_eq_of_lt (toBits_lt _ _), ofBits_toBits hw (hr v hv)]

/-- What a packed number holds is always a block in format. -/
theorem fitsBlock_unpackBlock {c : Params} (hw : 1 ≤ c.w) (n : Nat) :
    fitsBlock c (unpackBlock c.w c.epb n) = true := by
  rw [fitsBlock_iff]
  constructor
  · have : ∀ ks m, (unpackFields ks m).length = ks.length := by
      intro ks
      induction ks with
      | nil => intro m; rfl
      | cons k ks ih => intro m; simp [unpackFields, ih]
    simp [unpackBlock, this]
  · intro v hv
    obtain ⟨j, -, rfl⟩ := List.mem_map.mp hv
    exact ofBits_inRange hw j

theorem bitBool_boolBit (b : Bool) : bitBool (boolBit b) = b := by cases b <;> rfl

theorem boolBit_lt (b : Bool) : boolBit b < 2 ^ 1 := by cases b <;> decide

end Sys2Proof
end

