-- ==== Sys2Proof/Laws/PerInstr.lean ====
section
/-! SUPPORT. Per instruction: the word that the encoder writes has the opcode that the opcode table
gives the instruction (R92, R100). -/

namespace Sys2Proof.Laws.OpcodeMatch

/-- The `match` and `mask` of the instruction's row of the opcode table. -/
def row : Instr → Nat × Nat
  | .rd .. => (0x0, 0x1)
  | .wrE .. => (0x1, 0x7)
  | .wrB .. => (0x3, 0x7)
  | .wrA .. => (0x5, 0x7)
  | .illegalWtype3 .. => (0x7, 0x7)
  | .unallocated => (0x00, 0x1F)
  | .getInfo => (0x01, 0x1F)
  | .waitForInfo => (0x02, 0x1F)
  | .requestInputsAndWeights => (0x03, 0x1F)
  | .waitForInputsAndWeights => (0x04, 0x1F)
  | .run => (0x05, 0x1F)
  | .activationFunction => (0x06, 0x1F)
  | .computeDerivative => (0x07, 0x1F)
  | .requestExpectedOutput => (0x08, 0x1F)
  | .waitForExpectedOutput => (0x09, 0x1F)
  | .computeError => (0x0A, 0x1F)
  | .errorFunction => (0x0B, 0x1F)
  | .computeDelta => (0x0C, 0x1F)
  | .deltaWriteBack => (0x0D, 0x1F)
  | .errorBackpropRequestWeights => (0x0E, 0x1F)
  | .errorBackpropWaitForWeights => (0x0F, 0x1F)
  | .errorBackpropDeltaWeightMul => (0x10, 0x1F)
  | .errorBackpropWeightWb => (0x11, 0x1F)
  | .requestOutputsErrorBackprop => (0x12, 0x1F)
  | .waitForOutputsErrorBackprop => (0x13, 0x1F)
  | .requestDeltaWeightProductErrorBackprop => (0x14, 0x1F)
  | .waitForDeltaWeightProductErrorBackprop => (0x15, 0x1F)
  | .done => (0x16, 0x1F)
  | .runUpdateSlope => (0x17, 0x1F)
  | .slopeWb => (0x18, 0x1F)
  | .weightUpdateRequestDelta => (0x19, 0x1F)
  | .weightUpdateWaitForDelta => (0x1A, 0x1F)
  | .runWeightUpdate => (0x1B, 0x1F)
  | .weightUpdateWriteBack => (0x1C, 0x1F)
  | .weightUpdateWriteBias => (0x1D, 0x1F)
  | .error => (0x1E, 0x1F)
  | .reservedState31 => (0x1F, 0x1F)

/-- The bits that the table's `match` and `mask` are about. -/
def opcodeBits : MachineWord → Nat
  | .bank bits => bits
  | .peState code => code.toNat

/-- The encoder's word has the opcode of the instruction's row. -/
def Statement (i : Instr) : Prop :=
  ∀ c : Params, Nat.land (opcodeBits (encode c i)) (row i).2 = (row i).1

/-- The command field of a bank word (R92). -/
theorem encodeBank_cmd (c : Params) (we wt r hi lo : Nat) (e : Elem) (b : Block) :
    opcodeBits (encodeBank c we wt r hi lo e b) % 8 = we % 2 + 2 * (wt % 4) := by
  simp only [encodeBank, opcodeBits, packFields, pow_one]
  omega

theorem write_cmd (c : Params) (wt r hi lo : Nat) (e : Elem) (b : Block) (h : wt < 4) :
    Nat.land (opcodeBits (encodeBank c 1 wt r hi lo e b)) 7 = 1 + 2 * wt := by
  have h1 := encodeBank_cmd c 1 wt r hi lo e b
  have h2 := Nat.and_two_pow_sub_one_eq_mod (opcodeBits (encodeBank c 1 wt r hi lo e b)) 3
  have h3 : Nat.land (opcodeBits (encodeBank c 1 wt r hi lo e b)) 7 =
      opcodeBits (encodeBank c 1 wt r hi lo e b) % 8 := h2
  rw [h3, h1]
  omega

theorem rd (r : Nat) : Statement (.rd r) := by
  intro c
  have h1 := encodeBank_cmd c 0 0 r 0 0 0 []
  have h2 := Nat.and_two_pow_sub_one_eq_mod (opcodeBits (encode c (.rd r))) 1
  have h3 : Nat.land (opcodeBits (encode c (.rd r))) 1 = opcodeBits (encode c (.rd r)) % 2 := h2
  show Nat.land (opcodeBits (encode c (.rd r))) 1 = 0
  rw [h3]
  simp only [encode]
  omega

theorem wrE (r hi lo : Nat) (e : Elem) (b : Block) : Statement (.wrE r hi lo e b) :=
  fun c => write_cmd c 0 r hi lo e b (by decide)
theorem wrB (r hi lo : Nat) (e : Elem) (b : Block) : Statement (.wrB r hi lo e b) :=
  fun c => write_cmd c 1 r hi lo e b (by decide)
theorem wrA (r hi lo : Nat) (e : Elem) (b : Block) : Statement (.wrA r hi lo e b) :=
  fun c => write_cmd c 2 r hi lo e b (by decide)
theorem illegalWtype3 (r hi lo : Nat) (e : Elem) (b : Block) :
    Statement (.illegalWtype3 r hi lo e b) :=
  fun c => write_cmd c 3 r hi lo e b (by decide)
/-- Every state code is within the table's mask (R100). -/
theorem state_code (k : StateCode) : Nat.land k.toNat 0x1F = k.toNat := by
  have h2 := Nat.and_two_pow_sub_one_eq_mod k.toNat 5
  have h3 : Nat.land k.toNat 0x1F = k.toNat % 32 := h2
  have := k.isLt
  omega

theorem unallocated : Statement .unallocated := fun _ => state_code Code.unallocated
theorem getInfo : Statement .getInfo := fun _ => state_code Code.getInfo
theorem waitForInfo : Statement .waitForInfo := fun _ => state_code Code.waitForInfo
theorem requestInputsAndWeights : Statement .requestInputsAndWeights := fun _ => state_code Code.requestInputsAndWeights
theorem waitForInputsAndWeights : Statement .waitForInputsAndWeights := fun _ => state_code Code.waitForInputsAndWeights
theorem run : Statement .run := fun _ => state_code Code.run
theorem activationFunction : Statement .activationFunction := fun _ => state_code Code.activationFunction
theorem computeDerivative : Statement .computeDerivative := fun _ => state_code Code.computeDerivative
theorem requestExpectedOutput : Statement .requestExpectedOutput := fun _ => state_code Code.requestExpectedOutput
theorem waitForExpectedOutput : Statement .waitForExpectedOutput := fun _ => state_code Code.waitForExpectedOutput
theorem computeError : Statement .computeError := fun _ => state_code Code.computeError
theorem errorFunction : Statement .errorFunction := fun _ => state_code Code.errorFunction
theorem computeDelta : Statement .computeDelta := fun _ => state_code Code.computeDelta
theorem deltaWriteBack : Statement .deltaWriteBack := fun _ => state_code Code.deltaWriteBack
theorem errorBackpropRequestWeights : Statement .errorBackpropRequestWeights := fun _ => state_code Code.errorBackpropRequestWeights
theorem errorBackpropWaitForWeights : Statement .errorBackpropWaitForWeights := fun _ => state_code Code.errorBackpropWaitForWeights
theorem errorBackpropDeltaWeightMul : Statement .errorBackpropDeltaWeightMul := fun _ => state_code Code.errorBackpropDeltaWeightMul
theorem errorBackpropWeightWb : Statement .errorBackpropWeightWb := fun _ => state_code Code.errorBackpropWeightWb
theorem requestOutputsErrorBackprop : Statement .requestOutputsErrorBackprop := fun _ => state_code Code.requestOutputsErrorBackprop
theorem waitForOutputsErrorBackprop : Statement .waitForOutputsErrorBackprop := fun _ => state_code Code.waitForOutputsErrorBackprop
theorem requestDeltaWeightProductErrorBackprop : Statement .requestDeltaWeightProductErrorBackprop := fun _ => state_code Code.requestDeltaWeightProductErrorBackprop
theorem waitForDeltaWeightProductErrorBackprop : Statement .waitForDeltaWeightProductErrorBackprop := fun _ => state_code Code.waitForDeltaWeightProductErrorBackprop
theorem done : Statement .done := fun _ => state_code Code.done
theorem runUpdateSlope : Statement .runUpdateSlope := fun _ => state_code Code.runUpdateSlope
theorem slopeWb : Statement .slopeWb := fun _ => state_code Code.slopeWb
theorem weightUpdateRequestDelta : Statement .weightUpdateRequestDelta := fun _ => state_code Code.weightUpdateRequestDelta
theorem weightUpdateWaitForDelta : Statement .weightUpdateWaitForDelta := fun _ => state_code Code.weightUpdateWaitForDelta
theorem runWeightUpdate : Statement .runWeightUpdate := fun _ => state_code Code.runWeightUpdate
theorem weightUpdateWriteBack : Statement .weightUpdateWriteBack := fun _ => state_code Code.weightUpdateWriteBack
theorem weightUpdateWriteBias : Statement .weightUpdateWriteBias := fun _ => state_code Code.weightUpdateWriteBias
theorem error : Statement .error := fun _ => state_code Code.error
theorem reservedState31 : Statement .reservedState31 := fun _ => state_code Code.reservedState31

end Sys2Proof.Laws.OpcodeMatch
end

