-- ==== Sys2Proof/Laws/Step.lean ====
section
/-! SUPPORT. Everything that a step can do, which instruction a turn runs, and which cycle an
instruction's meaning is. -/

namespace Sys2Proof.Machine

/-- Everything that `step` can answer with a next state: the global reset (R300), or the fetched
instruction's next state with the turn passed on. -/
theorem step_next {s t : State} (h : step s = .next t) :
    (s.resetAsked = true ∧ t = s.globalReset) ∨
      (s.resetAsked = false ∧
        ∃ i u, s.fetch = .ok i ∧ exec i s = .next u ∧ t = u.endTurn) := by
  unfold step at h
  split at h
  · cases h
    exact .inl ⟨‹_›, rfl⟩
  · rename_i hr
    split at h
    · cases h
    · rename_i i hi
      split at h <;> cases h
      exact .inr ⟨by simpa using hr, i, _, hi, ‹_›, rfl⟩

/-- A step that faults is the fetched instruction's fault. -/
theorem step_fault {s : State} {f : Fault} (h : step s = .fault f) :
    ∃ i, s.fetch = .ok i ∧ exec i s = .fault f := by
  unfold step at h
  split at h
  · cases h
  · split at h
    · cases h
    · rename_i i hi
      split at h <;> cases h
      exact ⟨i, hi, ‹_›⟩

/-- The write command of a bank instruction, none for RD and for a PE action. -/
def writeOf : Instr → Option WriteCmd
  | .wrE _ hi lo e b => some ⟨0, hi, lo, e, b⟩
  | .wrB _ hi lo e b => some ⟨1, hi, lo, e, b⟩
  | .wrA _ hi lo e b => some ⟨2, hi, lo, e, b⟩
  | .illegalWtype3 _ hi lo e b => some ⟨3, hi, lo, e, b⟩
  | _ => none

/-- An instruction with a bank word is one cycle of the bank (R140). -/
theorem exec_bank {i : Instr} {c : Params} {bits : Nat} (h : encode c i = .bank bits) :
    ∃ r, ∀ s, exec i s = bankCycle r (writeOf i) s := by
  cases i with
  | rd r => exact ⟨r, fun _ => rfl⟩
  | wrE r => exact ⟨r, fun _ => rfl⟩
  | wrB r => exact ⟨r, fun _ => rfl⟩
  | wrA r => exact ⟨r, fun _ => rfl⟩
  | illegalWtype3 r => exact ⟨r, fun _ => rfl⟩
  | _ => simp [encode] at h

/-- An instruction with a state code is one cycle of a PE in that state (R170): its rule's, or the
cycle in ERROR (R182). -/
theorem exec_peState {i : Instr} {c : Params} {code : StateCode} (h : encode c i = .peState code) :
    (isErrorState code = false ∧ ∃ rule, ∀ s, exec i s = peCycle code rule s) ∨
      (isErrorState code = true ∧ ∀ s, exec i s = errorCycle code s) := by
  cases i <;> simp only [encode, encodeBank, MachineWord.peState.injEq, reduceCtorEq] at h <;>
    subst h <;>
    first
    | exact .inl ⟨by decide, _, fun _ => rfl⟩
    | exact .inr ⟨by decide, fun _ => rfl⟩

/-- On a PE's turn the instruction is its state register's (R100). -/
theorem fetch_pe {s : State} {i : Instr} {n : Nat} {pe : Pe} (h : s.fetch = .ok i)
    (ht : s.turn = .pe n) (hp : s.pes[n]? = some pe) : i = decodeState pe.state := by
  simp only [State.fetch, State.fetchWord, ht, hp, decode, Option.map_some, Option.getD_some,
    Except.ok.injEq] at h
  exact h.symm

/-- On a port's turn the instruction is its command word's (R91). -/
theorem fetch_port {s : State} {i : Instr} {p : Nat} (h : s.fetch = .ok i)
    (ht : s.turn = .port p) : decodeBank s.params (s.cmdWord p) = .ok i := by
  simpa only [State.fetch, State.fetchWord, ht, decode] using h

/-- Encoding the instruction of a state code gives the code back. -/
theorem encode_decodeState (c : Params) (code : StateCode) :
    encode c (decodeState code) = .peState code := by
  obtain ⟨⟨n, hn⟩⟩ := code
  interval_cases n <;> rfl

end Sys2Proof.Machine
end

