-- ==== Sys2Proof/Laws/Serve.lean ====
section
/-! SUPPORT. A run of one PE, offer by offer (`State.serve`): what an offer's cycle is. -/

namespace Sys2Proof.Machine

section withOffer
variable (s : State) (n : Nat) (pe : Pe) (o : Offer)
@[simp] theorem withOffer_params : (s.withOffer n pe o).params = s.params := rfl
@[simp] theorem withOffer_pes : (s.withOffer n pe o).pes = s.pes := rfl
@[simp] theorem withOffer_ports : (s.withOffer n pe o).ports = s.ports := rfl
@[simp] theorem withOffer_turn : (s.withOffer n pe o).turn = s.turn := rfl
@[simp] theorem withOffer_cycle : (s.withOffer n pe o).cycle = s.cycle := rfl
@[simp] theorem withOffer_run : (s.withOffer n pe o).run = s.run := rfl
@[simp] theorem withOffer_activePe : (s.withOffer n pe o).activePe = s.activePe := rfl
@[simp] theorem withOffer_peInput : (s.withOffer n pe o).peInput n = o.input s.params pe := by
  simp [State.withOffer, State.peInput, State.now]
end withOffer

section input
variable (c : Params) (pe : Pe) (o : Offer)
@[simp] theorem input_reqValid : (o.input c pe).reqValid = o.valid := rfl
@[simp] theorem input_req : (o.input c pe).req = o.req := rfl
@[simp] theorem input_afRespValid : (o.input c pe).afRespValid = (o.valid && o.answer) := rfl
@[simp] theorem input_afOut :
    (o.input c pe).afOut = unitAnswer c (unitRequest c pe.state o.req pe) := rfl
end input

/-- One offer of a run: the PE's instruction is run, and the rest of the offers follow. -/
theorem serve_cons {s t : State} {n : Nat} {pe : Pe} {o : Offer} {os : List Offer}
    (ha : s.activePe = some (n, pe))
    (hx : exec (decodeState pe.state) (s.withOffer n pe o) = .next t) :
    s.serve (o :: os) = (t.serve os).map fun r =>
      (r.1, (if advances pe.state (o.input s.params pe) then 1 else 0) + r.2) := by
  obtain ⟨h1, h2⟩ := activePe_eq.mp ha
  have hf : (s.withOffer n pe o).fetch = .ok (decodeState pe.state) := by
    simp [State.fetch, State.fetchWord, h1, h2, decode]
  simp only [State.serve, ha, hf, hx]

/-- A valid offer to which the unit responds where the PE waits for it serves the PE. -/
theorem offer_serviced {s : State} {n : Nat} {pe : Pe} {o : Offer}
    (ha : s.activePe = some (n, pe)) (hv : o.valid = true)
    (hu : waitsForUnit pe.state = true → o.answer = true ∧ pe.afSeen = none)
    (hf : o.req.fits s.params = true) (hw : o.req.numWeights ≠ 0)
    (hs : ∀ ss, pe.alloc = some ss → semiStatic o.req = ss) :
    Serviced pe.state (s.withOffer n pe o) n pe where
  active := ha
  valid := by simpa using hv
  fits := by simpa using hf
  weights := by simpa using hw
  stable := by simpa using hs
  unit h := by
    obtain ⟨h1, h2⟩ := hu h
    simp [unitAnswers, hv, h1, h2]

/-- Any other offer makes the PE hold. -/
theorem offer_unserved {s : State} {n : Nat} {pe : Pe} {o : Offer}
    (ha : s.activePe = some (n, pe))
    (hi : o.valid = false ∨ waitsForUnit pe.state = true ∧ o.answer = false)
    (hf : o.req.fits s.params = true)
    (hs : ∀ ss, pe.alloc = some ss → semiStatic o.req = ss)
    (hk : waitsForUnit pe.state = true → pe.afSeen = none) :
    Unserved pe.state (s.withOffer n pe o) n pe where
  active := ha
  idle := by
    rcases hi with h | ⟨h1, h2⟩
    · exact .inl (by simpa using h)
    · exact .inr ⟨h1, by simp [h2]⟩
  fits _ := by simpa using hf
  stable _ := by simpa using hs
  unit h hr := by
    rcases hi with h1 | ⟨-, h2⟩ <;> simp_all
  kept h v hv := by simp [hk h] at hv

end Sys2Proof.Machine
end

