-- ==== Sys2Proof/Tests/Slice0.lean ====
section
/-! SUPPORT. Tests. Expected values come from the spec: the encodings of 30_encoding.md, the helper
vectors H1 to H27 and the bank vectors B1 to B16 of 95_test_vectors.md, the PE vectors P1 to P15 of
96_test_vectors_pe.md. The last part has one witness per statement that has hypotheses. -/

namespace Sys2Proof.Tests

open Sys2Proof Sys2Proof.Machine

set_option Elab.async false

/-! ## WellFormed: each check refuses a term that breaks it alone -/

theorem test_wf_accepts_boundary :
    (Instr.wrE 15 15 3 (-0x8000) [0x7FFF, 0, -1, -0x8000]).wellFormed Params.table = true ∧
    (Instr.rd 15).wellFormed Params.table = true := by decide

theorem test_wf_rd_raddrHi : (Instr.rd 16).wellFormed Params.table = false := by decide

theorem test_wf_raddrHi :
    (Instr.wrE 16 0 0 0 [0, 0, 0, 0]).wellFormed Params.table = false := by decide

theorem test_wf_waddrHi :
    (Instr.wrB 0 16 0 0 [0, 0, 0, 0]).wellFormed Params.table = false := by decide

theorem test_wf_waddrLo :
    (Instr.wrA 0 0 4 0 [0, 0, 0, 0]).wellFormed Params.table = false := by decide

theorem test_wf_dinElement :
    (Instr.wrE 0 0 0 0x8000 [0, 0, 0, 0]).wellFormed Params.table = false ∧
    (Instr.wrE 0 0 0 (-0x8001) [0, 0, 0, 0]).wellFormed Params.table = false := by decide

theorem test_wf_dinBlock_length :
    (Instr.wrB 0 0 0 0 [0, 0, 0]).wellFormed Params.table = false ∧
    (Instr.illegalWtype3 0 0 0 0 []).wellFormed Params.table = false := by decide

theorem test_wf_dinBlock_element :
    (Instr.wrB 0 0 0 0 [0, 0, 0x8000, 0]).wellFormed Params.table = false := by decide

/-- Each constraint of R4 that a Nat can break. -/
theorem test_wf_params :
    Params.table.ok = true ∧ Params.pv.ok = true ∧
    ({ Params.table with w := 1 } : Params).ok = false ∧
    ({ Params.table with epb := 0 } : Params).ok = false ∧
    ({ Params.table with nb := 0 } : Params).ok = false ∧
    ({ Params.table with np := 0 } : Params).ok = false ∧
    ({ Params.table with npe := 0 } : Params).ok = false ∧
    ({ Params.table with dpw := 0 } : Params).ok = false ∧
    ({ Params.table with sw := 0, so := 0 } : Params).ok = false ∧
    ({ Params.table with so := 8 } : Params).ok = false := by decide

/-! ## Records -/

/-- The request of vector P2 (G2, first word). -/
def reqP2 : Request :=
  { zeroRequest with
    numWeights := 6, steepness := 4, bias := 0x10, iBlock := [0x20, 0x20, 0x20, 0x20],
    wBlock := [0x18, 0x18, 0x18, 0x18] }

/-- The request of vector P9 (G4). -/
def reqP9 : Request :=
  { zeroRequest with
    numWeights := 2, steepness := 4, learningRate := 4, lambda := 2,
    iBlock := [0x10, 0x30, 0, 0], wBlock := [0x40, -0x40, 0, 0], learnReg := 0x40,
    stateLearn := 4, tType := true }

theorem test_wf_request :
    reqP2.fits Params.pv = true ∧
    ({ reqP2 with decimalPoint := 8 } : Request).fits Params.pv = false ∧
    ({ reqP2 with steepness := 8 } : Request).fits Params.pv = false ∧
    ({ reqP2 with learningRate := 0x80000000 } : Request).fits Params.pv = false ∧
    ({ reqP2 with lambda := 0x80000000 } : Request).fits Params.pv = false ∧
    ({ reqP2 with bias := -0x80000001 } : Request).fits Params.pv = false ∧
    ({ reqP2 with iBlock := [0, 0, 0] } : Request).fits Params.pv = false ∧
    ({ reqP2 with wBlock := [0, 0, 0, 0x80000000] } : Request).fits Params.pv = false ∧
    ({ reqP2 with learnReg := 0x80000000 } : Request).fits Params.pv = false ∧
    ({ reqP2 with dw_in := 0x80000000 } : Request).fits Params.pv = false := by decide

/-- A response of configuration PV. -/
def respSample : Response :=
  { data := 0x130, dataBlock := [4, 8, -1, 0], state := 22, index := 6, error := -8,
    incWriteCount := true }

/-- A unit request of configuration PV. -/
def afSample : AfRequest :=
  { input := 8, decimal := 11, steepness := 4, activationFunction := 3, errorFunction := 1,
    opKind := true }

/-- A pending entry of configuration BV: the one that B1 leaves after cycle 0. -/
def pendSample : Pending :=
  { valid := true, wType := 0, dataElement := 0xAA, dataBlock := [0, 0, 0, 0], addrHi := 3,
    addrLo := 2 }

theorem test_wf_other_records :
    respSample.fits Params.pv = true ∧
    ({ respSample with data := 0x80000000 } : Response).fits Params.pv = false ∧
    ({ respSample with dataBlock := [0] } : Response).fits Params.pv = false ∧
    ({ respSample with error := 0x80000000 } : Response).fits Params.pv = false ∧
    afSample.fits Params.pv = true ∧
    ({ afSample with input := 0x80000000 } : AfRequest).fits Params.pv = false ∧
    ({ afSample with decimal := 12 } : AfRequest).fits Params.pv = false ∧
    ({ afSample with steepness := 8 } : AfRequest).fits Params.pv = false ∧
    pendSample.fits Params.table = true ∧
    ({ pendSample with dataElement := 0x8000 } : Pending).fits Params.table = false ∧
    ({ pendSample with dataBlock := [0x8000, 0, 0, 0] } : Pending).fits Params.table = false ∧
    ({ pendSample with addrHi := 16 } : Pending).fits Params.table = false ∧
    ({ pendSample with addrLo := 4 } : Pending).fits Params.table = false := by decide

/-- The packed request words of programs G2 and G4. -/
theorem test_request_words :
    reqP2.pack Params.pv = 0x18000000180000001800000018000000200000002000000020000000200000001000000000000000000200006 ∧
    Request.unpack Params.pv 0x2000000004000000400000000000000000FFFFFFC000000040000000000000000000000030000000100000000000000002000000040200002 =
      some reqP9 := by decide +kernel

/-! ## Decoding: words written out from the encodings -/

/-- RD, vectors B1 and B16. -/
theorem test_decode_rd :
    decodeTableWord 93 0x600 = some (.rd 3) ∧ decodeTableWord 93 0xA06 = some (.rd 5) := by
  decide +kernel

/-- WR.E, vectors B1 and B4. -/
theorem test_decode_wrE :
    decodeTableWord 93 0x154671 = some (.wrE 3 3 2 0xAA [0, 0, 0, 0]) ∧
    decodeTableWord 93 0x176661 = some (.wrE 3 3 0 0xBB [0, 0, 0, 0]) := by decide +kernel

/-- WR.B, vectors B2 and B9. -/
theorem test_decode_wrB :
    decodeTableWord 93 0x000880066004400220000663 =
      some (.wrB 3 3 0 0 [0x11, 0x22, 0x33, 0x44]) ∧
    decodeTableWord 93 0x0001200120012001200006A3 = some (.wrB 3 5 0 0 [9, 9, 9, 9]) := by
  decide +kernel

/-- WR.A, vectors B3 and B7. -/
theorem test_decode_wrA :
    decodeTableWord 93 0x100000001FFFEFFFE0000665 =
      some (.wrA 3 3 0 0 [0x7FFF, -1, 0, -0x8000]) ∧
    decodeTableWord 93 0x1FFFE0600040002000000665 =
      some (.wrA 3 3 0 0 [0x100, 0x200, 0x300, -1]) := by decide +kernel

/-- The illegal command, vector B11. -/
theorem test_decode_illegal :
    decodeTableWord 93 0x667 = some (.illegalWtype3 3 3 0 0 [0, 0, 0, 0]) := by decide +kernel

/-- A number with a bit above the 93 of BV is no command word. -/
theorem test_decode_too_long : decodeTableWord 94 (2 ^ 93 + 0x20) = none := by decide +kernel

/-- The first sixteen state codes of R100, as their table writes them. -/
theorem test_decode_states_low :
    ([0b00000, 0b00001, 0b00010, 0b00011, 0b00100, 0b00101, 0b00110, 0b00111, 0b01000, 0b01001,
      0b01010, 0b01011, 0b01100, 0b01101, 0b01110, 0b01111].map fun w => decodeTableWord 8 w) =
    [some .unallocated, some .getInfo, some .waitForInfo, some .requestInputsAndWeights,
     some .waitForInputsAndWeights, some .run, some .activationFunction, some .computeDerivative,
     some .requestExpectedOutput, some .waitForExpectedOutput, some .computeError,
     some .errorFunction, some .computeDelta, some .deltaWriteBack,
     some .errorBackpropRequestWeights, some .errorBackpropWaitForWeights] := by decide +kernel

/-- The other state codes of R100, and the reserved code 31 (R106). -/
theorem test_decode_states_high :
    ([0b10000, 0b10001, 0b10010, 0b10011, 0b10100, 0b10101, 0b10110, 0b10111, 0b11000, 0b11001,
      0b11010, 0b11011, 0b11100, 0b11101, 0b11110, 0b11111].map fun w => decodeTableWord 8 w) =
    [some .errorBackpropDeltaWeightMul, some .errorBackpropWeightWb,
     some .requestOutputsErrorBackprop, some .waitForOutputsErrorBackprop,
     some .requestDeltaWeightProductErrorBackprop, some .waitForDeltaWeightProductErrorBackprop,
     some .done, some .runUpdateSlope, some .slopeWb, some .weightUpdateRequestDelta,
     some .weightUpdateWaitForDelta, some .runWeightUpdate, some .weightUpdateWriteBack,
     some .weightUpdateWriteBias, some .error, some .reservedState31] := by decide +kernel

/-! ## Helpers: vectors H1 to H27 -/

theorem test_mulshift :
    mulshift 32 2 1 4 = 0 ∧ mulshift 32 0x20 0x18 4 = 0x30 ∧ mulshift 32 (-3) 8 4 = -2 ∧
    mulshift 32 (-1) 1 4 = -1 ∧ mulshift 32 1 1 4 = 0 ∧ mulshift 32 0xF 1 4 = 0 ∧
    mulshift 32 0x10 1 4 = 1 ∧ mulshift 32 0x40000000 0x40 4 = 0 ∧
    mulshift 32 0x7FFFFFFF 0x7FFFFFFF 4 = -0x10000000 ∧
    mulshift 32 (-0x80000000) (-0x80000000) 4 = 0 ∧
    mulshift 32 (-0x80000000) 1 0 = -0x80000000 ∧
    mulshift 32 (-0x80000000) (-1) 4 = 0x08000000 ∧ mulshift 32 0x10 0x10 4 = 0x10 ∧
    mulshift 32 0x100 0x180 7 = 0x300 ∧ mulshift 32 3 5 11 = 0 ∧ mulshift 32 (-3) 5 11 = -1 ∧
    mulshift 32 0x12345678 0x10 4 = 0x12345678 := by decide +kernel

theorem test_accum_wrap :
    accum 32 0x7FFFFFFD 0x10 0x10 4 = -0x7FFFFFF3 ∧
    accum 32 (-0x80000000) (-1) 0x10 4 = 0x7FFFFFFF ∧ wrap 32 (0xFFFFFFFF + 1) = 0 := by
  decide +kernel

theorem test_applySteepness :
    applySteepness 32 4 0x100 2 = 0x40 ∧ applySteepness 32 4 0x100 4 = 0x100 ∧
    applySteepness 32 4 0x100 7 = 0x800 ∧ applySteepness 32 4 (-5) 3 = -3 ∧
    applySteepness 32 4 0x40000000 5 = -0x80000000 ∧ applySteepness 32 4 1 0 = 0 ∧
    applySteepness 32 4 (-1) 0 = -1 := by decide +kernel

/-! ## Bank vectors: one command on a small port -/

/-- The state that an outcome continues with. -/
def nextOf (o : Host.Outcome State Fault Refusal) : Option State :=
  match o with
  | .next t => some t
  | .fault _ => none
  | .refused _ => none

/-- The refusal that an outcome ends in. -/
def refusalOf (o : Host.Outcome State Fault Refusal) : Option Refusal :=
  match o with
  | .next _ => none
  | .fault _ => none
  | .refused r => some r

/-- An outcome that is a next state has one. -/
theorem exists_next {o : Host.Outcome State Fault Refusal} (h : (nextOf o).isSome = true) :
    ∃ t, o = .next t := by
  cases o with
  | next t => exact ⟨t, rfl⟩
  | fault f => cases h
  | refused r => cases h

/-- A port of configuration BV as the bank vectors start it. -/
def portB (pend : Pending) : Port :=
  { mem := [(12, 1), (13, 2), (14, 3), (15, 4), (20, 0x10), (21, 0x20), (22, 0x30), (23, 0x40)],
    pend := pend, bankFault := none, dout := [0, 0, 0, 0], origin := ⟨0, 0, 0⟩ }

/-- Nothing pending. -/
def noPend : Pending := { pendSample with valid := false }

/-- An accumulate of `[10,10,10,10]` pending for block 3: B7 after cycle 0. -/
def accPend : Pending :=
  { valid := true, wType := 2, dataElement := 0, dataBlock := [0x10, 0x10, 0x10, 0x10],
    addrHi := 3, addrLo := 0 }

/-- A block overwrite pending for block 3: B6 after cycle 0. -/
def blockPend : Pending :=
  { valid := true, wType := 1, dataElement := 0, dataBlock := [0x11, 0x22, 0x33, 0x44],
    addrHi := 3, addrLo := 0 }

/-- Configuration BV with one port in its turn. -/
def bankState (q : Port) : State :=
  { params := Params.table, pes := [], ports := [q], turn := .port 0, cycle := 1, run := 0,
    stimulus := [] }

/-- What a bank test looks at: `dout`, blocks 3 and 5, `P.valid`. -/
def bankView (o : Host.Outcome State Fault Refusal) : Option (Block × Block × Block × Bool) := do
  let t ← nextOf o
  let q ← t.ports[0]?
  return (q.dout, q.readBlock t.params 3, q.readBlock t.params 5, q.pend.valid)

/-- The fault record of the port after an outcome. -/
def bankRecord (o : Host.Outcome State Fault Refusal) : Option BankFault := do
  let t ← nextOf o
  let q ← t.ports[0]?
  q.bankFault

/-- RD: cycle 1 of B1 and of B13. -/
theorem test_rd :
    bankView (exec (.rd 3) (bankState (portB pendSample))) =
      some ([1, 2, 0xAA, 4], [1, 2, 0xAA, 4], [0x10, 0x20, 0x30, 0x40], false) ∧
    bankView (exec (.rd 5) (bankState (portB pendSample))) =
      some ([0x10, 0x20, 0x30, 0x40], [1, 2, 0xAA, 4], [0x10, 0x20, 0x30, 0x40], false) := by
  decide +kernel

/-- WR.E: cycle 0 of B1 (deferred). -/
theorem test_wrE_deferred :
    bankView (exec (.wrE 3 3 2 0xAA [0, 0, 0, 0]) (bankState (portB noPend))) =
      some ([1, 2, 3, 4], [1, 2, 3, 4], [0x10, 0x20, 0x30, 0x40], true) := by decide +kernel

/-- WR.E: cycle 1 of B4 and of B5 (forwarded). -/
theorem test_wrE_forwarded :
    bankView (exec (.wrE 3 3 0 0xBB [0, 0, 0, 0]) (bankState (portB pendSample))) =
      some ([0xBB, 2, 0xAA, 4], [0xBB, 2, 0xAA, 4], [0x10, 0x20, 0x30, 0x40], false) ∧
    bankView (exec (.wrE 3 3 2 0xCC [0, 0, 0, 0]) (bankState (portB pendSample))) =
      some ([1, 2, 0xCC, 4], [1, 2, 0xCC, 4], [0x10, 0x20, 0x30, 0x40], false) := by
  decide +kernel

/-- WR.B: cycle 1 of B6 (forwarded: the first block is never stored). -/
theorem test_wrB_forwarded :
    bankView (exec (.wrB 3 3 0 0 [0x55, 0x66, 0x77, 0x88]) (bankState (portB blockPend))) =
      some ([0x55, 0x66, 0x77, 0x88], [0x55, 0x66, 0x77, 0x88], [0x10, 0x20, 0x30, 0x40],
        false) := by decide +kernel

/-- WR.B: a write to another block in the window is deferred and no fault (as in B9 and B14). -/
theorem test_wrB_other_block :
    bankView (exec (.wrB 3 5 0 0 [9, 9, 9, 9]) (bankState (portB pendSample))) =
      some ([1, 2, 0xAA, 4], [1, 2, 0xAA, 4], [0x10, 0x20, 0x30, 0x40], true) := by
  decide +kernel

/-- WR.A: cycle 1 of B7 (both addends in one store-back; element 3 wraps). -/
theorem test_wrA_forwarded :
    bankView (exec (.wrA 3 3 0 0 [0x100, 0x200, 0x300, -1]) (bankState (portB accPend))) =
      some ([0x111, 0x212, 0x313, 0x13], [0x111, 0x212, 0x313, 0x13],
        [0x10, 0x20, 0x30, 0x40], false) := by decide +kernel

/-- WR.A: cycle 1 of B3, a pending accumulate stored with wrap. -/
theorem test_wrA_stored :
    bankView (exec (.rd 3) (bankState (portB
      { accPend with dataBlock := [0x7FFF, -1, 0, -0x8000] }))) =
      some ([-0x8000, 1, 3, -0x7FFC], [-0x8000, 1, 3, -0x7FFC], [0x10, 0x20, 0x30, 0x40],
        false) := by decide +kernel

/-- B10: a type mismatch inside the window. -/
theorem test_mismatch :
    bankRecord (exec (.wrB 3 3 0 0 [9, 9, 9, 9]) (bankState (portB pendSample))) =
      some (.wtypeMismatch 0 1 0 1 3) := by decide +kernel

/-- B11: the illegal command; it is judged before a mismatch (R275). -/
theorem test_illegal :
    bankRecord (exec (.illegalWtype3 3 3 0 0 [0, 0, 0, 0]) (bankState (portB noPend))) =
      some (.wtypeIllegal 0 1 3 3) ∧
    bankRecord (exec (.illegalWtype3 3 3 0 0 [0, 0, 0, 0]) (bankState (portB pendSample))) =
      some (.wtypeIllegal 0 1 3 3) := by decide +kernel

/-- R63: the last block exists, the next does not. -/
theorem test_address_range :
    (nextOf (exec (.rd 15) (bankState (portB noPend)))).isSome = true ∧
    refusalOf (exec (.rd 16) (bankState (portB noPend))) = some .addressOutOfRange := by
  decide +kernel

/-! ## PE vectors: one step in configuration PV, `decimal = 4` -/

/-- A PE of configuration PV in a state; what the vectors leave `u` is 0 here. -/
def peB (code : StateCode) : Pe :=
  { state := code, index := 0, acc := 0, weightWB := [0, 0, 0, 0], dataOut := 0, derivative := 0,
    errorOut := 0, mse := 0, hasBias := true, peFault := none, alloc := none, afSeen := none,
    afAsked := none,
    out := { ready := true, respValid := false,
             resp := { data := 0, dataBlock := [0, 0, 0, 0], state := 0, index := 0, error := 0,
                       incWriteCount := false },
             afReq := none } }

/-- The inputs of one PE: a valid request, and the unit's response if there is one. -/
def served (r : Request) (af : Option Elem) : PeInput :=
  { reqValid := true, req := r, afRespValid := af.isSome, afOut := af.getD 0 }

/-- Configuration PV with one PE in its turn and one port. -/
def peState (pe : Pe) (inp : PeInput) : State :=
  { params := Params.pv, pes := [pe], ports := [portB noPend], turn := .pe 0, cycle := 7, run := 0,
    stimulus := [.cycle { pes := [inp], cmds := [] }] }

/-- The PE after an outcome. -/
def peOf (o : Host.Outcome State Fault Refusal) : Option Pe := do
  let t ← nextOf o
  t.pes[0]?

/-- The inputs of one PE in a state that waits for the unit: a valid request, and the unit's answer to
the request presented. -/
def answered (code : StateCode) (pe : Pe) (r : Request) : PeInput :=
  served r (some (unitAnswer Params.pv (unitRequest Params.pv code r pe)))

/-- How `Serviced` is met in the small states of these tests, in a state that does not wait for the
unit. -/
theorem serviced_of (code : StateCode) (pe : Pe) (r : Request) (hu : waitsForUnit code = false)
    (hr : r.fits Params.pv = true) (hn : r.numWeights ≠ 0)
    (ha : ∀ ss, pe.alloc = some ss → semiStatic r = ss) :
    Serviced code (peState pe (served r none)) 0 pe :=
  { active := rfl, valid := rfl, fits := hr, weights := hn, stable := ha,
    unit := fun h => by rw [hu] at h; cases h }

/-- The same in a state that waits for the unit, which answers the request presented. -/
theorem serviced_unit (code : StateCode) (pe : Pe) (r : Request) (hr : r.fits Params.pv = true)
    (hn : r.numWeights ≠ 0) (ha : ∀ ss, pe.alloc = some ss → semiStatic r = ss)
    (hs : ∀ u, pe.afSeen = some u → u = unitAnswer Params.pv (unitRequest Params.pv code r pe)) :
    Serviced code (peState pe (answered code pe r)) 0 pe :=
  { active := rfl, valid := rfl, fits := hr, weights := hn, stable := ha,
    unit := fun _ => ⟨rfl, rfl, hs⟩ }

/-- P1: four weights, all inputs 2, all weights 1. -/
def reqP1 : Request :=
  { zeroRequest with numWeights := 4, steepness := 4, iBlock := [2, 2, 2, 2], wBlock := [1, 1, 1, 1] }

/-- P4: the last layer's learning pass. -/
def reqP4 : Request :=
  { zeroRequest with
    numWeights := 2, steepness := 4, bias := 8, iBlock := [0x20, 0x10, 0, 0],
    wBlock := [8, 0x10, 0, 0], stateLearn := 1, inLast := true }

/-- P6: online error back-propagation into the first layer. -/
def reqP6 : Request :=
  { zeroRequest with
    numWeights := 2, steepness := 4, learningRate := 8, lambda := 2, iBlock := [0x30, 0x10, 0, 0],
    wBlock := [-0x40, 0x40, 0, 0], stateLearn := 3, inFirst := true, dw_in := -0x20 }

/-- P7: batch error back-propagation. -/
def reqP7 : Request :=
  { zeroRequest with
    numWeights := 2, steepness := 4, iBlock := [0xC0, -0x240, 0, 0], wBlock := [0, 0, 0, 0],
    stateLearn := 3, dw_in := 0x20, tType := true }

/-- P8: five slopes. -/
def reqP8 : Request :=
  { zeroRequest with
    numWeights := 5, steepness := 4, learnReg := -8, stateLearn := 2, iBlock := [0x10, 0x20, 0x30, -0x10],
    wBlock := [0, 0, 0, 0] }

/-- Next state, response validity and `incWriteCount` of a step. -/
def flow (o : Host.Outcome State Fault Refusal) : Option (StateCode × Bool × Bool) :=
  (peOf o).map fun u => (u.state, u.out.respValid, u.out.resp.incWriteCount)

/-- UNALLOCATED: P14 cycle 0. -/
theorem test_unallocated :
    (peOf (exec .unallocated (peState (peB 0) (served reqP1 none)))).map
      (fun u => (u.state, u.hasBias, u.out.respValid)) = some (1, false, false) := by
  decide +kernel

/-- GET_INFO: P14 cycle 1. -/
theorem test_getInfo :
    (peOf (exec .getInfo (peState { peB 1 with index := 6, dataOut := 0x130 }
      (served reqP1 none)))).map
      (fun u => (u.state, u.index, u.dataOut, u.out.resp.data, u.out.resp.index)) =
      some (2, 0, 0, 0x130, 6) := by decide +kernel

/-- WAIT_FOR_INFO: P1, P5 and P9 cycle 2. -/
theorem test_waitForInfo :
    flow (exec .waitForInfo (peState (peB 2) (served reqP1 none))) = some (3, false, false) ∧
    flow (exec .waitForInfo (peState (peB 2) (served reqP7 none))) = some (18, false, false) ∧
    flow (exec .waitForInfo (peState (peB 2) (served reqP9 none))) = some (25, false, false) := by
  decide +kernel

/-- WAIT_FOR_INFO: P13 cycle 2, the fault. -/
theorem test_waitForInfo_fault :
    (peOf (exec .waitForInfo (peState (peB 2)
      (served { reqP1 with stateLearn := 6 } none)))).map (fun u => (u.state, u.peFault)) =
      some (30, some ⟨0, 7, 2, some 6⟩) := by decide +kernel

/-- REQUEST_INPUTS_AND_WEIGHTS: P2 cycles 4 and 10 (the bias is loaded once). -/
theorem test_requestInputsAndWeights :
    (peOf (exec .requestInputsAndWeights (peState { peB 3 with hasBias := false }
      (served reqP2 none)))).map (fun u => (u.state, u.acc, u.hasBias)) = some (4, 0x10, true) ∧
    (peOf (exec .requestInputsAndWeights (peState { peB 3 with acc := 0xD0 }
      (served reqP2 none)))).map (fun u => (u.state, u.acc)) = some (4, 0xD0) := by
  decide +kernel

/-- WAIT_FOR_INPUTS_AND_WEIGHTS: P1, P8, P6, P7, P9. -/
theorem test_waitForInputsAndWeights :
    [reqP1, reqP8, reqP6, reqP7, reqP9].map
      (fun r => flow (exec .waitForInputsAndWeights (peState (peB 4) (served r none)))) =
      [some (5, false, false), some (23, false, false), some (27, false, false),
       some (23, false, false), some (27, false, false)] := by decide +kernel

/-- RUN: P2 cycles 6 and 9 (the end of the block). -/
theorem test_run :
    (peOf (exec .run (peState { peB 5 with acc := 0x10 } (served reqP2 none)))).map
      (fun u => (u.acc, u.index, u.state)) = some (0x40, 1, 5) ∧
    (peOf (exec .run (peState { peB 5 with acc := 0xA0, index := 3 } (served reqP2 none)))).map
      (fun u => (u.acc, u.index, u.state)) = some (0xD0, 4, 3) := by decide +kernel

/-- RUN: P3 cycle 6 (the sum wraps) and P1 cycle 8 (`last` before the end of the block). -/
theorem test_run_wrap_last :
    (peOf (exec .run (peState { peB 5 with acc := 0x7FFFFFFD, index := 1 }
      (served { reqP1 with numWeights := 3, iBlock := [-3, 0x10, -0x10, 0],
                           wBlock := [8, 0x10, 0x10, 0] } none)))).map
      (fun u => (u.acc, u.index, u.state)) = some (-0x7FFFFFF3, 2, 5) ∧
    (peOf (exec .run (peState { peB 5 with index := 3 } (served reqP1 none)))).map
      (fun u => (u.acc, u.index, u.state)) = some (0, 4, 6) := by decide +kernel

/-- The PE of P4 cycle 7. -/
def peP4act : Pe := { peB 6 with acc := 0x28, index := 2 }

/-- The PE of P4 cycle 12. -/
def peP4err : Pe := { peB 11 with errorOut := 9 }

/-- ACTIVATION_FUNCTION: P4 cycle 7 and P11 (`inLast = 0`). AF is a parameter (R6): the vectors' own
0x28 is one of its values. -/
theorem test_activationFunction :
    (peOf (exec .activationFunction
      (peState peP4act (answered Code.activationFunction peP4act reqP4)))).map
      (fun u => (u.dataOut, u.state)) =
      some (wrap 32 (Config.af Params.pv 0x28 4 4 0), 7) ∧
    (peOf (exec .activationFunction (peState peP4act
      (answered Code.activationFunction peP4act { reqP4 with inLast := false })))).map
      (fun u => (u.dataOut, u.state)) =
      some (wrap 32 (Config.af Params.pv 0x28 4 4 0), 22) := by
  constructor <;>
    (rw [exec, execActivationFunction, peCycle_serviced (serviced_unit _ _ _ (by decide +kernel)
      (by decide) (fun _ h => by cases h) (fun _ h => by cases h)) (by decide)]; rfl)

/-- ACTIVATION_FUNCTION: P2 cycle 14, a hold with the unit request on its outputs. -/
theorem test_activationFunction_waits :
    (peOf (exec .activationFunction (peState { peB 6 with acc := 0x130, index := 6 }
      (served reqP2 none)))).map (fun u => (u.state, u.dataOut, u.out.ready, u.out.afReq)) =
      some (6, 0, false, some ⟨0x130, 4, 4, 0, 0, false⟩) := by decide +kernel

/-- COMPUTE_DERIVATIVE: the branches of P4 cycle 8 and P5 cycle 7 (DERIV itself is a parameter). -/
theorem test_computeDerivative :
    flow (exec .computeDerivative (peState (peB 7) (served reqP4 none))) = some (8, false, false) ∧
    flow (exec .computeDerivative (peState (peB 7) (served reqP6 none))) =
      some (12, false, false) := by decide +kernel

/-- REQUEST_EXPECTED_OUTPUT: P4 cycle 9. -/
theorem test_requestExpectedOutput :
    flow (exec .requestExpectedOutput (peState (peB 8) (served reqP4 none))) =
      some (9, true, false) := by decide +kernel

/-- WAIT_FOR_EXPECTED_OUTPUT: P4 cycle 10. -/
theorem test_waitForExpectedOutput :
    flow (exec .waitForExpectedOutput (peState (peB 9) (served reqP4 none))) =
      some (10, false, false) := by decide +kernel

/-- COMPUTE_ERROR: P4 cycle 11, and P12 cycle 10 (symmetric: halved with floor). -/
theorem test_computeError :
    (peOf (exec .computeError (peState { peB 10 with dataOut := 0x28 }
      (served { reqP4 with learnReg := 0x30 } none)))).map (fun u => (u.errorOut, u.state)) =
      some (8, 11) ∧
    (peOf (exec .computeError (peState { peB 10 with dataOut := 0x10 }
      (served { reqP4 with learnReg := 0xD, activationFunction := 3 } none)))).map
      (fun u => (u.errorOut, u.state)) = some (-2, 11) := by decide +kernel

/-- ERROR_FUNCTION: P4 cycle 12 (EF is a parameter, R6). -/
theorem test_errorFunction :
    (peOf (exec .errorFunction
      (peState peP4err (answered Code.errorFunction peP4err reqP4)))).map
      (fun u => (u.errorOut, u.state, u.out.afReq)) =
      some (wrap 32 (Config.ef Params.pv 9 4 4 0), 12, some ⟨9, 4, 4, 0, 0, true⟩) := by
  rw [exec, execErrorFunction, peCycle_serviced (serviced_unit _ _ _ (by decide +kernel)
    (by decide) (fun _ h => by cases h) (fun _ h => by cases h)) (by decide)]
  rfl

/-- COMPUTE_DELTA: P4 cycle 13, and P7 cycle 8 (a zero derivative stands for 1). -/
theorem test_computeDelta :
    (peOf (exec .computeDelta (peState
      { peB 12 with derivative := 0x10, errorOut := 8, index := 2 } (served reqP4 none)))).map
      (fun u => (u.errorOut, u.index, u.state)) = some (8, 0, 13) ∧
    (peOf (exec .computeDelta (peState { peB 12 with errorOut := 77 } (served reqP7 none)))).map
      (fun u => (u.errorOut, u.index, u.state)) = some (2, 0, 13) := by decide +kernel

/-- COMPUTE_DELTA: P6 cycle 8 (`inFirst` skips the write-back). -/
theorem test_computeDelta_first :
    (peOf (exec .computeDelta (peState { peB 12 with derivative := 8 }
      (served reqP6 none)))).map (fun u => (u.errorOut, u.index, u.state)) =
      some (-0x10, 0, 3) := by decide +kernel

/-- DELTA_WRITE_BACK: P4 cycle 14, P7 cycle 9, P5 cycle 9. -/
theorem test_deltaWriteBack :
    flow (exec .deltaWriteBack (peState (peB 13) (served reqP4 none))) = some (14, true, true) ∧
    flow (exec .deltaWriteBack (peState (peB 13) (served reqP7 none))) = some (3, true, false) ∧
    flow (exec .deltaWriteBack (peState (peB 13) (served reqP6 none))) = some (14, true, true) := by
  decide +kernel

/-- ERROR_BACKPROP_REQUEST_WEIGHTS: P4 cycle 15. -/
theorem test_errorBackpropRequestWeights :
    flow (exec .errorBackpropRequestWeights (peState (peB 14) (served reqP4 none))) =
      some (15, true, false) := by decide +kernel

/-- ERROR_BACKPROP_WAIT_FOR_WEIGHTS: P4 cycle 16. -/
theorem test_errorBackpropWaitForWeights :
    flow (exec .errorBackpropWaitForWeights (peState (peB 15) (served reqP4 none))) =
      some (16, false, false) := by decide +kernel

/-- ERROR_BACKPROP_DELTA_WEIGHT_MUL: P4 cycles 17 and 18. -/
theorem test_errorBackpropDeltaWeightMul :
    (peOf (exec .errorBackpropDeltaWeightMul (peState { peB 16 with errorOut := 8 }
      (served reqP4 none)))).map (fun u => (u.weightWB, u.index, u.state)) =
      some ([4, 0, 0, 0], 1, 16) ∧
    (peOf (exec .errorBackpropDeltaWeightMul (peState
      { peB 16 with errorOut := 8, index := 1, weightWB := [4, 0, 0, 0] }
      (served reqP4 none)))).map (fun u => (u.weightWB, u.index, u.state)) =
      some ([4, 8, 0, 0], 2, 17) := by decide +kernel

/-- ERROR_BACKPROP_WEIGHT_WB: P4 cycle 19, P5 cycles 16 and 20. -/
theorem test_errorBackpropWeightWb :
    flow (exec .errorBackpropWeightWb (peState { peB 17 with index := 2 } (served reqP4 none))) =
      some (22, true, true) ∧
    flow (exec .errorBackpropWeightWb (peState { peB 17 with index := 4 }
      (served { reqP6 with numWeights := 5 } none))) = some (14, true, false) ∧
    flow (exec .errorBackpropWeightWb (peState { peB 17 with index := 5 }
      (served { reqP6 with numWeights := 5 } none))) = some (0, true, true) := by decide +kernel

/-- REQUEST_OUTPUTS_ERROR_BACKPROP: P5 cycle 3. -/
theorem test_requestOutputsErrorBackprop :
    flow (exec .requestOutputsErrorBackprop (peState (peB 18) (served reqP6 none))) =
      some (19, true, false) := by decide +kernel

/-- WAIT_FOR_OUTPUTS_ERROR_BACKPROP: P5 cycle 4. -/
theorem test_waitForOutputsErrorBackprop :
    (peOf (exec .waitForOutputsErrorBackprop (peState (peB 19)
      (served { reqP6 with learnReg := 0x28 } none)))).map (fun u => (u.dataOut, u.state)) =
      some (0x28, 20) := by decide +kernel

/-- REQUEST_DELTA_WEIGHT_PRODUCT_ERROR_BACKPROP: P5 cycle 5. -/
theorem test_requestDeltaWeightProductErrorBackprop :
    flow (exec .requestDeltaWeightProductErrorBackprop (peState (peB 20) (served reqP6 none))) =
      some (21, true, false) := by decide +kernel

/-- WAIT_FOR_DELTA_WEIGHT_PRODUCT_ERROR_BACKPROP: P5 cycle 6. -/
theorem test_waitForDeltaWeightProductErrorBackprop :
    flow (exec .waitForDeltaWeightProductErrorBackprop (peState (peB 21) (served reqP6 none))) =
      some (7, false, false) := by decide +kernel

/-- DONE: P14 cycles 8 (the advance, `incWriteCount = 1`) and 7 (a hold, 0). -/
theorem test_done :
    flow (exec .done (peState (peB 22) (served reqP1 none))) = some (0, true, true) ∧
    flow (exec .done (peState (peB 22) PeInput.idle)) = some (22, true, false) := by
  decide +kernel

/-- RUN_UPDATE_SLOPE: P7 cycle 12 (`learnReg`), and P7b cycle 12 (`inFirst`: `errorOut`). -/
theorem test_runUpdateSlope :
    (peOf (exec .runUpdateSlope (peState (peB 23)
      (served { reqP7 with learnReg := 2 } none)))).map (fun u => (u.weightWB, u.index, u.state)) =
      some ([0x18, 0, 0, 0], 1, 23) ∧
    (peOf (exec .runUpdateSlope (peState
      { peB 23 with errorOut := 2, index := 1, weightWB := [0x18, 0, 0, 0] }
      (served { reqP7 with learnReg := 0x7777, inFirst := true } none)))).map
      (fun u => (u.weightWB, u.index, u.state)) = some ([0x18, -0x48, 0, 0], 2, 24) := by
  decide +kernel

/-- SLOPE_WB: P8 cycles 9 and 13. -/
theorem test_slopeWb :
    flow (exec .slopeWb (peState { peB 24 with index := 4 } (served reqP8 none))) =
      some (3, true, false) ∧
    flow (exec .slopeWb (peState { peB 24 with index := 5 } (served reqP8 none))) =
      some (0, true, true) := by decide +kernel

/-- WEIGHT_UPDATE_REQUEST_DELTA: P9 cycle 3. -/
theorem test_weightUpdateRequestDelta :
    flow (exec .weightUpdateRequestDelta (peState (peB 25) (served reqP9 none))) =
      some (26, true, false) := by decide +kernel

/-- WEIGHT_UPDATE_WAIT_FOR_DELTA: P9 cycle 4. -/
theorem test_weightUpdateWaitForDelta :
    flow (exec .weightUpdateWaitForDelta (peState (peB 26) (served reqP9 none))) =
      some (3, false, false) := by decide +kernel

/-- RUN_WEIGHT_UPDATE: P9 cycle 8 (batch) and P10 cycle 8 (online). -/
theorem test_runWeightUpdate :
    (peOf (exec .runWeightUpdate (peState { peB 27 with index := 1, weightWB := [8, 0, 0, 0] }
      (served reqP9 none)))).map (fun u => (u.weightWB, u.dataOut, u.index, u.state)) =
      some ([8, 0x18, 0, 0], 0x10, 2, 28) ∧
    (peOf (exec .runWeightUpdate (peState { peB 27 with index := 1, weightWB := [8, 0, 0, 0] }
      (served { reqP9 with tType := false } none)))).map
      (fun u => (u.weightWB, u.dataOut, u.index, u.state)) =
      some ([8, 0x38, 0, 0], 0x10, 2, 28) := by decide +kernel

/-- RUN_WEIGHT_UPDATE: P6 cycle 11 (`inFirst`: the PE's own delta). -/
theorem test_runWeightUpdate_first :
    (peOf (exec .runWeightUpdate (peState { peB 27 with errorOut := -0x10 }
      (served reqP6 none)))).map (fun u => (u.weightWB, u.dataOut, u.index, u.state)) =
      some ([-0x10, 0, 0, 0], -8, 1, 27) := by decide +kernel

/-- WEIGHT_UPDATE_WRITE_BACK: P9 cycle 9, and a block that is not the last (R255). -/
theorem test_weightUpdateWriteBack :
    flow (exec .weightUpdateWriteBack (peState { peB 28 with index := 2 } (served reqP9 none))) =
      some (29, true, false) ∧
    flow (exec .weightUpdateWriteBack (peState { peB 28 with index := 4 }
      (served { reqP9 with numWeights := 5 } none))) = some (3, true, false) := by decide +kernel

/-- WEIGHT_UPDATE_WRITE_BIAS: P9 cycle 10. -/
theorem test_weightUpdateWriteBias :
    flow (exec .weightUpdateWriteBias (peState { peB 29 with index := 2 } (served reqP9 none))) =
      some (0, true, true) := by decide +kernel

/-- ERROR: P13 cycle 3. -/
theorem test_error :
    (peOf (exec .error (peState { peB 30 with peFault := some ⟨0, 2, 2, some 6⟩ }
      (served reqP1 none)))).map (fun u => (u.state, u.out.ready, u.out.respValid, u.peFault)) =
      some (30, false, false, some ⟨0, 2, 2, some 6⟩) := by decide +kernel

/-- Code 31 (R106): it takes the fault and holds. -/
theorem test_reservedState31 :
    (peOf (exec .reservedState31 (peState (peB 31) (served reqP1 none)))).map
      (fun u => (u.state, u.out.ready, u.out.respValid, u.peFault)) =
      some (31, false, false, some ⟨0, 7, 31, some 0⟩) := by decide +kernel

/-! ## The step on placed words -/

/-- A placed bank word and a placed state code run as the first instruction. -/
theorem test_step_placed :
    (nextOf (step (State.reset.withFetchWord 93 0x154671))).map
      (fun t => (t.turn, t.ports.map fun q => (q.pend.valid, q.pend.dataElement))) =
      some (.pe 0, [(true, 0xAA)]) ∧
    (nextOf (step (State.reset.withFetchWord 8 1))).map
      (fun t => (t.turn, t.pes.map fun u => (u.state, u.dataOut))) =
      some (.port 0, [(2, 0)]) := by decide +kernel

/-! ## Witnesses: a concrete state and operands for the hypotheses of every statement that has some -/

/-- A request of configuration PV with five weights: two blocks, the second of one weight. -/
def reqW : Request :=
  { zeroRequest with
    numWeights := 5, steepness := 4, bias := -1, iBlock := [0x20, -3, 0x7FFFFFFF, 1],
    wBlock := [0x18, 8, 0x7FFFFFFF, -0x80000000], learnReg := 0x30, learningRate := 8, lambda := 2,
    dw_in := 0x20, decimalPoint := 7 }

/-- The PE in state `code` inside an allocation with the request `r`, at weight `ix`. -/
def peW (code : StateCode) (r : Request) (ix : BitVec 8) : Pe :=
  { peB code with index := ix, alloc := some (semiStatic r), errorOut := 8, derivative := 0x10 }

theorem reqW_weights : reqW.numWeights ≠ 0 := by decide

/-- A state code of a list without the two states that wait for the unit. -/
theorem noWait {l : List StateCode} (hl : (l.all fun c => !waitsForUnit c) = true) {code : StateCode}
    (h : code ∈ l) : waitsForUnit code = false := by simpa using List.all_eq_true.mp hl code h

/-- Every state code that does not wait for the unit, and every index, is served with `reqW` under any
selectors and flags. -/
theorem serviced_reqW (code : StateCode) (ix : BitVec 8) (sl act : Selector)
    (last first batch : Bool) (hu : waitsForUnit code = false) :
    Serviced code
      (peState (peW code { reqW with stateLearn := sl, activationFunction := act, inLast := last,
                                     inFirst := first, tType := batch } ix)
        (served { reqW with stateLearn := sl, activationFunction := act, inLast := last,
                            inFirst := first, tType := batch } none)) 0
      (peW code { reqW with stateLearn := sl, activationFunction := act, inLast := last,
                            inFirst := first, tType := batch } ix) :=
  serviced_of code _ _ hu rfl reqW_weights fun _ h => Option.some.inj h

/-- A word at the edges of its fields; the decode is that of vector B1's word. -/
theorem test_witness_DecodeOfEncode_EncodeOfDecode :
    Params.table.ok = true ∧
    (Instr.wrA 15 15 3 (-0x8000) [0x7FFF, 0, -1, -0x8000]).wellFormed Params.table = true ∧
    decode Params.table (.bank 0x154671) = .ok (.wrE 3 3 2 0xAA [0, 0, 0, 0]) ∧
    (∀ r, Instr.wrE 3 3 2 0xAA [0, 0, 0, 0] ≠ .rd r) ∧
    decode Params.table (.peState 31) = .ok .reservedState31 ∧
    (∀ r, Instr.reservedState31 ≠ .rd r) :=
  ⟨by decide, by decide, rfl, by simp, rfl, by simp⟩

theorem test_witness_records :
    Params.pv.ok = true ∧ reqW.fits Params.pv = true ∧ pendSample.fits Params.pv = true ∧
    respSample.fits Params.pv = true ∧ afSample.fits Params.pv = true := by decide +kernel

/-- `2^31` wraps to the least element, and is one of the values that the uniqueness clause speaks of. -/
theorem test_witness_WrapGivesTheCongruentElement :
    2 ≤ 32 ∧ -(2 ^ (32 - 1) : Int) ≤ -0x80000000 ∧ (-0x80000000 : Int) < 2 ^ (32 - 1) ∧
    (2 ^ 32 : Int) ∣ -0x80000000 - 0x80000000 := by decide +kernel

/-- The three cases of the steepness, next to the offset. -/
theorem test_witness_SteepnessCases :
    2 ≤ 32 ∧ inRange 32 (-0x80000000) = true ∧ inRange 32 0x7FFFFFFF = true ∧
    3 < 4 ∧ 4 = 4 ∧ 4 < 5 := by decide +kernel

/-- The conditional clauses of R126 at their last admissible shift, and at the extreme elements. -/
theorem test_witness_FixedPointLaws :
    2 ≤ 32 ∧ inRange 32 (-0x80000000) = true ∧ inRange 32 0x7FFFFFFF = true ∧
    (2 ^ 30 : Int) < 2 ^ (32 - 1) := by decide +kernel

theorem test_witness_UnallocatedOpensAllocation :
    Serviced Code.unallocated (peState (peB 0) (served reqW none)) 0 (peB 0) :=
  serviced_of _ _ _ rfl rfl reqW_weights fun _ h => by cases h

theorem test_witness_GetInfoClears :
    Serviced Code.getInfo (peState (peW 1 reqW 6) (served reqW none)) 0 (peW 1 reqW 6) :=
  serviced_of _ _ _ rfl rfl reqW_weights fun _ h => Option.some.inj h

/-- Every branch: `stateLearn` at each of its eight values. -/
theorem test_witness_WaitForInfoBranches (sl : Selector) :
    Serviced Code.waitForInfo
      (peState (peW 2 { reqW with stateLearn := sl } 0)
        (served { reqW with stateLearn := sl } none)) 0
      (peW 2 { reqW with stateLearn := sl } 0) :=
  serviced_reqW Code.waitForInfo 0 sl 0 false false false rfl

/-- Both branches: `hasBias` clear and set. -/
theorem test_witness_BiasLoadedOnce (b : Bool) :
    Serviced Code.requestInputsAndWeights
      (peState { peW 3 reqW 0 with hasBias := b } (served reqW none)) 0
      { peW 3 reqW 0 with hasBias := b } :=
  serviced_of _ _ _ rfl rfl reqW_weights fun _ h => Option.some.inj h

/-- Every branch: `stateLearn` at each of its values, `tType` at both. -/
theorem test_witness_WaitForInputsBranches (sl : Selector) (batch : Bool) :
    Serviced Code.waitForInputsAndWeights
      (peState (peW 4 { reqW with stateLearn := sl, tType := batch } 0)
        (served { reqW with stateLearn := sl, tType := batch } none)) 0
      (peW 4 { reqW with stateLearn := sl, tType := batch } 0) :=
  serviced_reqW Code.waitForInputsAndWeights 0 sl 0 false false batch rfl

theorem test_witness_DoneReleases :
    Serviced Code.done (peState (peW 22 reqW 5) (served reqW none)) 0 (peW 22 reqW 5) :=
  serviced_reqW Code.done 5 0 0 false false false rfl

/-- Both codes, with a request and without one. -/
theorem test_witness_ErrorStateAbsorbs :
    (peState (peB 30) (served reqW none)).activePe = some (0, peB 30) ∧
    (peState (peB 31) PeInput.idle).activePe = some (0, peB 31) ∧
    (Instr.error = .error ∧ Code.error = Code.error ∨
      Instr.error = .reservedState31 ∧ Code.error = Code.reservedState31) ∧
    (Instr.reservedState31 = .error ∧ Code.reservedState31 = Code.error ∨
      Instr.reservedState31 = .reservedState31 ∧ Code.reservedState31 = Code.reservedState31) :=
  ⟨rfl, rfl, .inl ⟨rfl, rfl⟩, .inr ⟨rfl, rfl⟩⟩

/-- Inside a block (position 1), at its end (position 3) and at the last weight (index 4). -/
theorem test_witness_RunAccumulates :
    (Serviced Code.run (peState (peW 5 reqW 1) (served reqW none)) 0 (peW 5 reqW 1) ∧
      1 = (peW 5 reqW 1).index.toNat % 4 ∧ reqW.iBlock[1]? = some (-3) ∧
      reqW.wBlock[1]? = some 8) ∧
    (Serviced Code.run (peState (peW 5 reqW 3) (served reqW none)) 0 (peW 5 reqW 3) ∧
      3 = (peW 5 reqW 3).index.toNat % 4 ∧ reqW.iBlock[3]? = some 1 ∧
      reqW.wBlock[3]? = some (-0x80000000)) ∧
    (Serviced Code.run (peState (peW 5 reqW 4) (served reqW none)) 0 (peW 5 reqW 4) ∧
      0 = (peW 5 reqW 4).index.toNat % 4 ∧ reqW.iBlock[0]? = some 0x20 ∧
      reqW.wBlock[0]? = some 0x18) :=
  ⟨⟨serviced_reqW Code.run 1 0 0 false false false rfl, by decide, rfl, rfl⟩,
   ⟨serviced_reqW Code.run 3 0 0 false false false rfl, by decide, rfl, rfl⟩,
   ⟨serviced_reqW Code.run 4 0 0 false false false rfl, by decide, rfl, rfl⟩⟩

/-- Both branches of R201, and an answer already seen in an earlier cycle. -/
theorem test_witness_ActivationLatchesTheAnswer (sl : Selector) (last : Bool) :
    Serviced Code.activationFunction
      (peState { peW 6 { reqW with stateLearn := sl, inLast := last } 5 with
                   afSeen := some (unitAnswer Params.pv ⟨0, 11, 4, 0, 0, false⟩) }
        (answered 6 (peW 6 { reqW with stateLearn := sl, inLast := last } 5)
          { reqW with stateLearn := sl, inLast := last })) 0
      { peW 6 { reqW with stateLearn := sl, inLast := last } 5 with
          afSeen := some (unitAnswer Params.pv ⟨0, 11, 4, 0, 0, false⟩) } :=
  serviced_unit _ _ _ rfl reqW_weights (fun _ h => Option.some.inj h)
    (fun _ h => (Option.some.inj h).symm)

/-- The unit's answer to the request presented is AF in the one state and EF in the other. -/
theorem test_witness_unitAnswers :
    unitAnswers Params.pv Code.activationFunction (peW 6 reqW 5) (served reqW (some
      (wrap 32 (Config.af Params.pv 0 11 4 0)))) ∧
    unitAnswers Params.pv Code.errorFunction (peW 11 reqW 5) (served reqW (some
      (wrap 32 (Config.ef Params.pv 8 11 4 0)))) := ⟨rfl, rfl⟩

/-- Two RUN advances that bring `index` to its greatest value. -/
theorem test_witness_AccumulationIsTheSum :
    Params.pv.ok = true ∧ inRange 32 (peW 5 reqW 253).acc = true ∧
    (∀ r ∈ [reqW, reqW], r.decimalPoint = 7) ∧
    (peW 5 reqW 253).index.toNat + [reqW, reqW].length ≤ 255 :=
  ⟨by decide, by decide, by simp [reqW], by decide⟩

/-- Every phase, with offers that differ in all that an allocation may change (a valid one, a held one
and one to which the unit does not respond); five weights in blocks of four make the advances of table
T of 96_test_vectors_pe.md. -/
theorem test_witness_AllocationEnds (last first batch : Bool) :
    ∀ sl ∈ ([0, 1, 2, 3, 4] : List Selector),
    let r : Request := { reqW with stateLearn := sl, inLast := last, inFirst := first, tType := batch }
    r.stateLearn.toNat ≤ 4 ∧ (peState (peB 0) PeInput.idle).params.ok = true ∧
    (peState (peB 0) PeInput.idle).activePe = some (0, peB 0) ∧
    (peB 0).state = Code.unallocated ∧ (peB 0).alloc = none ∧ r.numWeights ≠ 0 ∧
    ∀ o ∈ [(⟨r, true, true⟩ : Offer), ⟨{ r with learnReg := 1, iBlock := [1, 2, 3, 4] }, false, true⟩,
        ⟨{ r with dw_in := -1, wBlock := [5, 6, 7, 8] }, true, false⟩],
      o.req.fits Params.pv = true ∧ semiStatic o.req = semiStatic r := by
  intro sl hl
  have h4 : sl.toNat ≤ 4 := by
    simp only [List.mem_cons, List.not_mem_nil, or_false] at hl
    rcases hl with rfl | rfl | rfl | rfl | rfl <;> decide
  refine ⟨h4, rfl, rfl, rfl, rfl, reqW_weights, fun o ho => ?_⟩
  simp only [List.mem_cons, List.not_mem_nil, or_false] at ho
  rcases ho with rfl | rfl | rfl <;> exact ⟨rfl, rfl⟩

/-- Table T: the advances of an allocation of five weights in blocks of four, phase by phase. -/
theorem test_witness_AllocationEnds_counts :
    (([0, 1, 2, 3, 4] : List Selector).map fun sl =>
      allocationAdvances Params.pv { reqW with stateLearn := sl, inLast := true }) =
      [14, 32, 14, 21, 17] ∧
    allocationAdvances Params.pv { reqW with stateLearn := 1 } = 14 ∧
    allocationAdvances Params.pv { reqW with stateLearn := 3, inFirst := true, tType := true } = 20 := by decide +kernel

/-- Both branches of R210. -/
theorem test_witness_DerivativeIsLatched (sl : Selector) :
    Serviced Code.computeDerivative
      (peState (peW 7 { reqW with stateLearn := sl } 5)
        (served { reqW with stateLearn := sl } none)) 0
      (peW 7 { reqW with stateLearn := sl } 5) :=
  serviced_reqW Code.computeDerivative 5 sl 0 false false false rfl

/-- Each of the nine states is served. -/
theorem test_witness_PlainTransitions :
    ∀ code ∈ [Code.requestExpectedOutput, Code.waitForExpectedOutput,
        Code.errorBackpropRequestWeights, Code.errorBackpropWaitForWeights,
        Code.requestOutputsErrorBackprop, Code.requestDeltaWeightProductErrorBackprop,
        Code.waitForDeltaWeightProductErrorBackprop, Code.weightUpdateRequestDelta,
        Code.weightUpdateWaitForDelta],
      Serviced code (peState (peW code reqW 0) (served reqW none)) 0 (peW code reqW 0) :=
  fun code h => serviced_reqW code 0 0 0 false false false (noWait (by decide) h)

/-- A selector that is not symmetric, and each that is. -/
theorem test_witness_ErrorIsComputed (act : Selector) :
    Serviced Code.computeError
      (peState (peW 10 { reqW with activationFunction := act } 5)
        (served { reqW with activationFunction := act } none)) 0
      (peW 10 { reqW with activationFunction := act } 5) :=
  serviced_reqW Code.computeError 5 0 act false false false rfl

theorem test_witness_ErrorFunctionLatchesTheAnswer :
    Serviced Code.errorFunction (peState (peW 11 reqW 5) (answered 11 (peW 11 reqW 5) reqW)) 0
      (peW 11 reqW 5) :=
  serviced_unit _ _ _ rfl reqW_weights (fun _ h => Option.some.inj h) (fun _ h => by cases h)

/-- Both branches of R215, with a derivative of 0 and of another value. -/
theorem test_witness_DeltaIsComputed (sl : Selector) (first : Bool) :
    (Serviced Code.computeDelta
      (peState (peW 12 { reqW with stateLearn := sl, inFirst := first } 5)
        (served { reqW with stateLearn := sl, inFirst := first } none)) 0
      (peW 12 { reqW with stateLearn := sl, inFirst := first } 5) ∧
      (0x10 : Int) = if (0x10 : Int) = 0 then 1 else 0x10) ∧
    (Serviced Code.computeDelta
      (peState { peW 12 { reqW with stateLearn := sl, inFirst := first } 5 with derivative := 0 }
        (served { reqW with stateLearn := sl, inFirst := first } none)) 0
      { peW 12 { reqW with stateLearn := sl, inFirst := first } 5 with derivative := 0 } ∧
      (1 : Int) = if (0 : Int) = 0 then 1 else 0) :=
  ⟨⟨serviced_reqW Code.computeDelta 5 sl 0 false first false rfl, rfl⟩,
   serviced_of _ _ _ rfl rfl reqW_weights fun _ h => Option.some.inj h,
   rfl⟩

/-- Every branch of R216. -/
theorem test_witness_DeltaWriteBackBranches (sl : Selector) (last batch : Bool) :
    Serviced Code.deltaWriteBack
      (peState (peW 13 { reqW with stateLearn := sl, inLast := last, tType := batch } 0)
        (served { reqW with stateLearn := sl, inLast := last, tType := batch } none)) 0
      (peW 13 { reqW with stateLearn := sl, inLast := last, tType := batch } 0) :=
  serviced_reqW Code.deltaWriteBack 0 sl 0 last false batch rfl

/-- Inside a block, at its end and at the last weight: R232, R250 and R254. -/
theorem test_witness_loop_states (first batch : Bool) :
    ∀ code ∈ [Code.errorBackpropDeltaWeightMul, Code.runUpdateSlope, Code.runWeightUpdate],
      ∀ ix ∈ ([0, 3, 4] : List (BitVec 8)),
        Serviced code
          (peState (peW code { reqW with inFirst := first, tType := batch } ix)
            (served { reqW with inFirst := first, tType := batch } none)) 0
          (peW code { reqW with inFirst := first, tType := batch } ix) ∧
        (∃ a, reqW.iBlock[ix.toNat % 4]? = some a) ∧
        ∃ b, reqW.wBlock[ix.toNat % 4]? = some b := by
  intro code h ix hix
  refine ⟨serviced_reqW code ix 0 0 false first batch (noWait (by decide) h), ?_⟩
  simp only [List.mem_cons, List.not_mem_nil, or_false] at hix
  rcases hix with rfl | rfl | rfl <;> exact ⟨⟨_, rfl⟩, _, rfl⟩

/-- Each of the four write-back states, with `index` below `numWeights` and at it. -/
theorem test_witness_WriteBacksBranch (sl : Selector) :
    ∀ code ∈ [Code.errorBackpropWeightWb, Code.slopeWb, Code.weightUpdateWriteBack,
        Code.weightUpdateWriteBias],
      ∀ ix ∈ ([4, 5] : List (BitVec 8)),
        Serviced code
          (peState (peW code { reqW with stateLearn := sl } ix)
            (served { reqW with stateLearn := sl } none)) 0
          (peW code { reqW with stateLearn := sl } ix) :=
  fun code h ix _ => serviced_reqW code ix sl 0 false false false (noWait (by decide) h)

theorem test_witness_OutputIsReloaded :
    Serviced Code.waitForOutputsErrorBackprop
      (peState (peW 19 reqW 0) (served reqW none)) 0 (peW 19 reqW 0) :=
  serviced_reqW Code.waitForOutputsErrorBackprop 0 0 0 false false false rfl

/-- No request; a request but no answer of the unit; an answer after the request was withdrawn. -/
theorem test_witness_UnservedPeHolds :
    encode Params.pv .run = .peState Code.run ∧ isErrorState Code.run = false ∧
    Unserved Code.run (peState (peW 5 reqW 0) PeInput.idle) 0 (peW 5 reqW 0) ∧
    encode Params.pv .activationFunction = .peState Code.activationFunction ∧
    Unserved Code.activationFunction (peState (peW 6 reqW 5) (served reqW none)) 0
      (peW 6 reqW 5) ∧
    Unserved Code.activationFunction
      (peState { peW 6 reqW 5 with
                   afAsked := some afSample, afSeen := some (unitAnswer Params.pv afSample) }
        { served reqW (some (unitAnswer Params.pv afSample)) with reqValid := false }) 0
      { peW 6 reqW 5 with
          afAsked := some afSample, afSeen := some (unitAnswer Params.pv afSample) } :=
  ⟨rfl, rfl,
   { active := rfl, idle := .inl rfl, fits := fun h => (by cases h),
     stable := fun h => (by cases h), unit := fun h => (by cases h), kept := fun h => (by cases h) },
   rfl,
   { active := rfl, idle := .inr ⟨rfl, rfl⟩, fits := fun _ => rfl,
     stable := fun _ _ h => Option.some.inj h, unit := fun _ h => (by cases h),
     kept := fun _ _ h => (by cases h) },
   { active := rfl, idle := .inl rfl, fits := fun h => (by cases h),
     stable := fun h => (by cases h), unit := fun _ _ => ⟨afSample, rfl, rfl⟩,
     kept := fun _ _ h => ⟨rfl, (Option.some.inj h).symm⟩ }⟩

/-- A cycle of every state code has a next state: the hypotheses of the two statements on outputs. -/
theorem test_witness_HandshakeOutputs_IncWriteCountPulses :
    (List.range 32).all (fun n =>
      (nextOf (exec (decodeState (BitVec.ofNat 5 n))
        (peState (peW (BitVec.ofNat 5 n) reqW 5) (served reqW none)))).isSome &&
      (nextOf (exec (decodeState (BitVec.ofNat 5 n))
        (peState (peW (BitVec.ofNat 5 n) reqW 4) PeInput.idle))).isSome) = true ∧
    (∀ code, (peState (peW code reqW 5) (served reqW none)).activePe =
      some (0, peW code reqW 5)) := ⟨by decide +kernel, fun _ => rfl⟩

/-- A breach of each duty of a PE. -/
theorem test_witness_BrokenDutiesAreRefused_pe :
    semiStatic { reqW with bias := 0 } ≠ semiStatic reqW ∧
    refusalOf (exec .run (peState (peW 5 reqW 0) (served { reqW with bias := 0 } none))) =
      some .semiStaticChanged ∧
    refusalOf (exec .run (peState (peB 5) (served { reqW with numWeights := 0 } none))) =
      some .numWeightsZero ∧
    refusalOf (exec .activationFunction (peState { peW 6 reqW 5 with afSeen := some 1 }
      (served reqW none))) = some .unitResponseWithdrawn ∧
    refusalOf (exec .errorFunction (peState { peW 11 reqW 5 with afSeen := some 1 }
      (served reqW (some 2)))) = some .unitResponseWithdrawn := by decide +kernel

/-- A unit that responds before a request was presented, and one that answers another request: an
answer and its successor are not both the value asked for. -/
theorem test_witness_BrokenDutiesAreRefused_unit :
    refusalOf (exec .activationFunction (peState (peW 6 reqW 5)
      { served reqW (some 1) with reqValid := false })) = some .unitResponseUnasked ∧
    (peState (peW 6 reqW 5) { served reqW (some 1) with reqValid := false }).activePe =
      some (0, peW 6 reqW 5) ∧
    encode Params.pv .activationFunction = .peState Code.activationFunction ∧
    waitsForUnit Code.activationFunction = true ∧
    ¬unitAnswers Params.pv Code.errorFunction (peW 11 reqW 5) (served reqW (some
      (unitAnswer Params.pv (unitRequest Params.pv Code.errorFunction reqW (peW 11 reqW 5)) + 1))) ∧
    ∀ a : AfRequest, unitAnswer Params.pv a + 1 ≠ unitAnswer Params.pv a :=
  ⟨by decide +kernel, rfl, rfl, rfl, Int.ne_of_gt (Int.lt_succ _), fun _ => Int.ne_of_gt (Int.lt_succ _)⟩

/-- A port that is ready, with the four kinds of pending entry that the bank vectors leave. -/
theorem test_witness_portReady :
    ∀ pd ∈ [noPend, pendSample, blockPend, accPend],
      PortReady (bankState (portB pd)) 0 (portB pd) := by
  intro pd h
  simp only [List.mem_cons, List.not_mem_nil, or_false] at h
  rcases h with rfl | rfl | rfl | rfl <;>
    exact { active := rfl, sound := rfl, fits := by decide +kernel, legal := by decide +kernel }

/-- The four write cases of one port: the same type pending at block 3, another type there, another
block pending, nothing pending; with the last block and element as operands. -/
theorem test_witness_ElementWrite_BlockOverwrite_BlockAccumulate :
    (PortReady (bankState (portB pendSample)) 0 (portB pendSample) ∧ pendSample.valid = true ∧
      pendSample.addrHi = 3 ∧ pendSample.wType = 0) ∧
    (PortReady (bankState (portB blockPend)) 0 (portB blockPend) ∧ blockPend.valid = true ∧
      blockPend.addrHi = 3 ∧ blockPend.wType = 1) ∧
    (PortReady (bankState (portB accPend)) 0 (portB accPend) ∧ accPend.valid = true ∧
      accPend.addrHi = 3 ∧ accPend.wType = 2) ∧
    ¬(pendSample.valid = true ∧ pendSample.addrHi = 15) ∧
    ¬(noPend.valid = true ∧ noPend.addrHi = 3) ∧ 15 < Params.table.nb ∧ 3 < Params.table.epb :=
  ⟨⟨test_witness_portReady _ (by simp), rfl, rfl, rfl⟩,
   ⟨test_witness_portReady _ (by simp), rfl, rfl, rfl⟩,
   ⟨test_witness_portReady _ (by simp), rfl, rfl, rfl⟩, by decide, by decide, by decide, by decide⟩

/-- Every ordered pair of different types. -/
theorem test_witness_TypeMismatchFaults :
    (portB pendSample).bankFault = none ∧ pendSample.valid = true ∧ pendSample.addrHi = 3 ∧
    pendSample.wType ≠ 1 ∧ pendSample.wType ≠ 2 ∧ blockPend.valid = true ∧ blockPend.addrHi = 3 ∧
    blockPend.wType ≠ 0 ∧ blockPend.wType ≠ 2 ∧ accPend.valid = true ∧ accPend.addrHi = 3 ∧
    accPend.wType ≠ 0 ∧ accPend.wType ≠ 1 := by decide

/-- Reads and writes of the last block, with the pending entry at block 3 or nowhere. -/
theorem test_witness_ReadReturns_WritesApplyInOrder_ForwardingIsSequential :
    PortReady (bankState (portB accPend)) 0 (portB accPend) ∧
    PortReady (bankState (portB noPend)) 0 (portB noPend) ∧ 1 ≤ Params.table.w ∧
    15 < Params.table.nb ∧ 3 < Params.table.epb ∧
    ([0x7FFF, -1, 0, -0x8000] : Block).length = Params.table.epb ∧
    (accPend.valid = true ∧ accPend.addrHi = 3 → accPend.wType = 2) ∧
    ¬(accPend.valid = true ∧ accPend.addrHi = 15) :=
  ⟨test_witness_portReady _ (by simp), test_witness_portReady _ (by simp), by decide, by decide,
   by decide, by decide, by decide, by decide⟩

/-- The addresses just outside their ranges: the bank clauses of BrokenDutiesAreRefused. -/
theorem test_witness_BrokenDutiesAreRefused_bank :
    PortReady (bankState (portB noPend)) 0 (portB noPend) ∧ Params.table.nb ≤ 16 ∧
    Params.table.epb ≤ 4 ∧ (noPend.valid = true ∧ noPend.addrHi = 16 → noPend.wType = 0) ∧
    refusalOf (exec (.wrB 15 15 4 0 [0, 0, 0, 0]) (bankState (portB noPend))) =
      some .addressOutOfRange ∧
    refusalOf (exec (.wrA 15 16 3 0 [0, 0, 0, 0]) (bankState (portB noPend))) =
      some .addressOutOfRange :=
  ⟨test_witness_portReady _ (by simp), by decide, by decide, by decide, by decide +kernel,
   by decide +kernel⟩

/-- A faulted port in its turn, and a command word. -/
theorem test_witness_IllegalType_FaultedPort :
    (bankState (portB noPend)).activePort = some (0, portB noPend) ∧
    (portB noPend).bankFault = none ∧
    (bankState { portB noPend with bankFault := some (.wtypeIllegal 0 0 3 3) }).activePort =
      some (0, { portB noPend with bankFault := some (.wtypeIllegal 0 0 3 3) }) ∧
    encode Params.table (.rd 3) = .bank 0x600 := ⟨rfl, rfl, rfl, rfl⟩

/-- A quiet port and a command that runs: the second part of QuietPortIsSettled. -/
theorem test_witness_QuietPortIsSettled :
    PortReady (bankState (portB noPend)) 0 (portB noPend) ∧ (portB noPend).pend.valid = false ∧
    encode Params.table (.rd 15) = .bank 0x1E00 ∧
    (∀ r hi lo e b, Instr.rd 15 ≠ .illegalWtype3 r hi lo e b) ∧
    ∃ t, exec (.rd 15) (bankState (portB noPend)) = .next t :=
  ⟨test_witness_portReady _ (by simp), rfl, rfl, by simp, exists_next (by decide +kernel)⟩

/-- A PE action and a bank command that have a next state; the command leaves its port sound. -/
theorem test_witness_OneAgentMoves_StorageFrame :
    (∃ t, exec .run (peState (peW 5 reqW 0) (served reqW none)) = .next t) ∧
    encode Params.pv .run = .peState Code.run ∧
    (∃ t, exec (.wrE 3 3 0 0xBB [0, 0, 0, 0]) (bankState (portB pendSample)) = .next t) ∧
    (Instr.wrE 3 3 0 0xBB [0, 0, 0, 0]).wellFormed Params.table = true ∧
    bankRecord (exec (.wrE 3 3 0 0xBB [0, 0, 0, 0]) (bankState (portB pendSample))) = none :=
  ⟨exists_next (by decide +kernel), rfl, exists_next (by decide +kernel), by decide,
   by decide +kernel⟩

/-- Two states that differ in everything but the agent in its turn. -/
theorem test_witness_AgentsDoNotInteract :
    bankState (portB pendSample) ≠ { bankState (portB pendSample) with pes := [peB 5], run := 3 } ∧
    ({ bankState (portB pendSample) with pes := [peB 5], run := 3 } : State).activePort =
      some (0, portB pendSample) ∧
    (∃ t, exec (.rd 3) (bankState (portB pendSample)) = .next t) ∧
    peState (peW 5 reqW 0) (served reqW none) ≠
      { peState (peW 5 reqW 0) (served reqW none) with ports := [], run := 3 } ∧
    ({ peState (peW 5 reqW 0) (served reqW none) with ports := [], run := 3 } : State).activePe =
      some (0, peW 5 reqW 0) ∧
    ({ peState (peW 5 reqW 0) (served reqW none) with ports := [], run := 3 } : State).peInput 0 =
      (peState (peW 5 reqW 0) (served reqW none)).peInput 0 ∧
    ∃ t, exec .run (peState (peW 5 reqW 0) (served reqW none)) = .next t :=
  ⟨by decide +kernel, rfl, exists_next (by decide +kernel), by decide +kernel, rfl, rfl,
   exists_next (by decide +kernel)⟩

/-- A PE's turn and a port's turn. -/
theorem test_witness_StepRunsTheDecodedInstruction :
    (peState (peW 5 reqW 0) (served reqW none)).resetAsked = false ∧
    (peState (peW 5 reqW 0) (served reqW none)).fetch = .ok .run ∧
    (bankState (portB pendSample)).resetAsked = false ∧
    (bankState (portB pendSample)).fetch = .ok (.rd 0) := ⟨rfl, rfl, rfl, rfl⟩

theorem test_witness_TurnsMakeOneCycle :
    State.reset.turn = .pe 0 ∧ 1 ≤ State.reset.pes.length ∧ 1 ≤ State.reset.ports.length := by
  decide +kernel

/-- A step with a recorded fault of a PE and one of a port. -/
theorem test_witness_FaultRecordsAreSticky :
    (∃ t, step { peState { peB 30 with peFault := some ⟨0, 2, 2, some 6⟩ } (served reqW none) with
        ports := [{ portB noPend with bankFault := some (.wtypeIllegal 0 0 3 3) }] } = .next t) ∧
    (peState { peB 30 with peFault := some ⟨0, 2, 2, some 6⟩ } (served reqW none)).resetAsked =
      false :=
  ⟨exists_next (by decide +kernel), rfl⟩

/-- A step that changes registers, one that releases a PE, and one that enters ERROR. -/
theorem test_witness_RegistersKeepToTheirWriters_OnlyCompletionReleases :
    ((nextOf (step (peState (peW 5 reqW 0) (served reqW none)))).bind
      fun t => t.pes[0]?.map fun u => (u.index, decide (u.state = Code.run))) =
      some (1, true) ∧
    ((nextOf (step (peState (peW 22 reqW 5) (served reqW none)))).bind
      fun t => t.pes[0]?.map fun u => u.state) = some Code.unallocated ∧
    ((nextOf (step (peState (peW 2 { reqW with stateLearn := 5 } 0)
      (served { reqW with stateLearn := 5 } none)))).bind
      fun t => t.pes[0]?.map fun u => u.state) = some Code.error := by decide +kernel

theorem test_witness_GlobalResetRestarts :
    ({ peState (peW 5 reqW 0) PeInput.idle with stimulus := [.reset] } : State).stimulus =
      .reset :: [] := rfl

/-- A well-formed state that meets all the invariants, inside an allocation, and that steps. -/
theorem test_witness_invariants :
    (peState (peW 5 reqW 4) (served reqW none)).wf = true ∧
    (∀ pe ∈ (peState (peW 5 reqW 4) (served reqW none)).pes,
      pe.indexOk = true ∧ pe.biasOk = true ∧ pe.errorOk = true) ∧
    ∃ t, step (peState (peW 5 reqW 4) (served reqW none)) = .next t :=
  ⟨by decide +kernel, by decide +kernel, exists_next (by decide +kernel)⟩

end Sys2Proof.Tests
end

section
/-! SUPPORT. The bank command word, field by field (R91, R92): what the decoder makes of seven fields,
that its instructions fit their formats, and the round trip through the encoder. -/

namespace Sys2Proof

/-- The sizes' constraint that the fixed-point lemmas ask for. -/
theorem one_le_w_of_ok {c : Params} (h : c.ok = true) : 1 ≤ c.w := by
  simp only [Params.ok, decide_eq_true_eq] at h
  omega

theorem writeFits_iff {c : Params} {r hi lo : Nat} {e : Elem} {b : Block} :
    writeFits c r hi lo e b = true ↔
      r < 2 ^ c.hiw ∧ hi < 2 ^ c.hiw ∧ lo < 2 ^ c.low ∧ inRange c.w e = true ∧
        fitsBlock c b = true := by
  simp [writeFits, and_assoc]

/-- The instruction of a write command of type `wt` (R92, R93). -/
def writeInstr (wt r hi lo : Nat) (e : Elem) (b : Block) : Instr :=
  if wt = 0 then .wrE r hi lo e b
  else if wt = 1 then .wrB r hi lo e b
  else if wt = 2 then .wrA r hi lo e b
  else .illegalWtype3 r hi lo e b

/-- The instruction that the fields of a bank command word name, in the order of the word (R91):
what `decodeBank` makes of them (`decodeBank_of_fields`). -/
def bankInstr (c : Params) (we wt lo hi r e b : Nat) : Instr :=
  if we = 0 then .rd r
  else writeInstr wt r hi lo (ofBits c.w e) (unpackBlock c.w c.epb b)

/-- A number within the format decodes to the instruction of its fields. -/
theorem decodeBank_of_fields {c : Params} {bits we wt lo hi r e b : Nat}
    (hlt : bits < 2 ^ totalWidth (bankWidths c))
    (hf : unpackFields (bankWidths c) bits = [we, wt, lo, hi, r, e, b]) :
    decodeBank c bits = .ok (bankInstr c we wt lo hi r e b) := by
  unfold decodeBank
  rw [if_neg (Nat.not_le.mpr hlt), hf]
  simp only [bankInstr, writeInstr]
  split_ifs <;> rfl

/-- What a bank word decodes to is an instruction of fields that fit their widths. -/
theorem decodeBank_ok {c : Params} {bits : Nat} {i : Instr} (h : decodeBank c bits = .ok i) :
    ∃ we wt lo hi r e b, lo < 2 ^ c.low ∧ hi < 2 ^ c.hiw ∧ r < 2 ^ c.hiw ∧
      i = bankInstr c we wt lo hi r e b := by
  by_cases hlt : bits < 2 ^ totalWidth (bankWidths c)
  · have hd := decodeBank_of_fields hlt rfl
    rw [h] at hd
    exact ⟨_, _, _, _, _, _, _, Nat.mod_lt _ (Nat.two_pow_pos _), Nat.mod_lt _ (Nat.two_pow_pos _),
      Nat.mod_lt _ (Nat.two_pow_pos _), Except.ok.inj hd⟩
  · rw [decodeBank, if_pos (Nat.not_lt.mp hlt)] at h
    cases h

/-- A write command is well formed when its operands fit, whatever its type. -/
theorem writeInstr_wellFormed {c : Params} {wt r hi lo : Nat} {e : Elem} {b : Block}
    (h : writeFits c r hi lo e b = true) : (writeInstr wt r hi lo e b).wellFormed c = true := by
  unfold writeInstr
  split_ifs <;> exact h

/-- Fields that fit their widths name a well-formed instruction. -/
theorem bankInstr_wellFormed {c : Params} (hw : 1 ≤ c.w) {we wt lo hi r e b : Nat}
    (hlo : lo < 2 ^ c.low) (hhi : hi < 2 ^ c.hiw) (hr : r < 2 ^ c.hiw) :
    (bankInstr c we wt lo hi r e b).wellFormed c = true := by
  unfold bankInstr
  split_ifs
  · exact decide_eq_true hr
  · exact writeInstr_wellFormed
      (writeFits_iff.mpr ⟨hr, hhi, hlo, ofBits_inRange hw e, fitsBlock_unpackBlock hw b⟩)

/-- The instruction of a state code has no operand, so it fits. -/
theorem decodeState_wellFormed (c : Params) (code : StateCode) :
    (decodeState code).wellFormed c = true := by
  unfold decodeState
  split <;> rfl

/-- The decoder gives well-formed instructions only. -/
theorem decode_wellFormed {c : Params} (hw : 1 ≤ c.w) {m : MachineWord} {i : Instr}
    (h : decode c m = .ok i) : i.wellFormed c = true := by
  cases m with
  | bank bits =>
    obtain ⟨we, wt, lo, hi, r, e, b, hlo, hhi, hr, rfl⟩ := decodeBank_ok h
    exact bankInstr_wellFormed hw hlo hhi hr
  | peState code =>
    obtain rfl := Except.ok.inj h
    exact decodeState_wellFormed c code

/-- Decoding an encoded bank word reads back each field, cut to its width. -/
theorem decode_encodeBank (c : Params) (we wt r hi lo : Nat) (e : Elem) (b : Block) :
    decode c (encodeBank c we wt r hi lo e b) =
      .ok (bankInstr c (we % 2 ^ 1) (wt % 2 ^ 2) (lo % 2 ^ c.low) (hi % 2 ^ c.hiw) (r % 2 ^ c.hiw)
        (toBits c.w e % 2 ^ c.w) (packBlock c.w b % 2 ^ c.dw)) :=
  decodeBank_of_fields (packFields_lt _)
    (unpackFields_packFields [(1, we), (2, wt), (c.low, lo), (c.hiw, hi), (c.hiw, r),
      (c.w, toBits c.w e), (c.dw, packBlock c.w b)])

/-- Decoding the word of a write whose operands fit gives the write back. -/
theorem decode_encodeBank_write {c : Params} (hw : 1 ≤ c.w) {wt r hi lo : Nat} {e : Elem}
    {b : Block} (hwt : wt < 2 ^ 2) (h : writeFits c r hi lo e b = true) :
    decode c (encodeBank c 1 wt r hi lo e b) = .ok (writeInstr wt r hi lo e b) := by
  obtain ⟨hr, hhi, hlo, he, hb⟩ := writeFits_iff.mp h
  rw [decode_encodeBank, Nat.mod_eq_of_lt hwt, Nat.mod_eq_of_lt hr, Nat.mod_eq_of_lt hhi,
    Nat.mod_eq_of_lt hlo, Nat.mod_eq_of_lt (toBits_lt c.w e),
    Nat.mod_eq_of_lt (packBlock_lt c (fitsBlock_iff.mp hb).1), bankInstr,
    ofBits_toBits hw he, unpackBlock_packBlock hw hb]
  rfl

/-- Decoding the word of an RD gives its address back (R92). -/
theorem decode_encodeBank_read {c : Params} {r : Nat} (h : r < 2 ^ c.hiw) :
    decode c (encodeBank c 0 0 r 0 0 0 []) = .ok (.rd r) := by
  rw [decode_encodeBank, Nat.mod_eq_of_lt h]
  rfl

/-- Settles O2: a bank command by the round trip of its packed fields, a PE action by its state
code. -/
theorem decodeOfEncode : Obligations.DecodeOfEncode := by
  intro c i hc hi
  have hw := one_le_w_of_ok hc
  cases i with
  | rd => exact decode_encodeBank_read (of_decide_eq_true hi)
  | wrE => exact decode_encodeBank_write hw (by decide) hi
  | wrB => exact decode_encodeBank_write hw (by decide) hi
  | wrA => exact decode_encodeBank_write hw (by decide) hi
  | illegalWtype3 => exact decode_encodeBank_write hw (by decide) hi
  | _ => rfl

end Sys2Proof
end

section
/-! SUPPORT. The frame of an instruction, what a step runs, and how the turns make a cycle (R7). -/

namespace Sys2Proof.Machine

/-! ## One agent moves -/

/-- A cycle of a bank port replaces the active port and nothing else (R140). -/
theorem bankCycle_setPort {r : Nat} {w : Option WriteCmd} {s t : State}
    (h : bankCycle r w s = .next t) :
    ∃ p q u, s.activePort = some (p, q) ∧ t = s.setPort p u := by
  obtain ⟨p, q, ha, ⟨-, ht⟩ | ⟨-, f, -, ht⟩ | ⟨-, -, -, ht⟩⟩ := bankCycle_next h
  all_goals exact ⟨p, q, _, ha, ht⟩

/-- A cycle of a PE replaces the active PE and nothing else (R170). -/
theorem peCycle_setPe {code : StateCode} {rule : PeCtx → Pe → Pe} {s t : State}
    (h : peCycle code rule s = .next t) :
    ∃ n pe u, s.activePe = some (n, pe) ∧ t = s.setPe n u := by
  obtain ⟨n, pe, ha, -, ⟨-, ht⟩ | ⟨-, ht⟩⟩ := peCycle_next h
  all_goals exact ⟨n, pe, _, ha, ht⟩

/-- A cycle in ERROR replaces the active PE and nothing else (R182). -/
theorem errorCycle_setPe {code : StateCode} {s t : State} (h : errorCycle code s = .next t) :
    ∃ n pe u, s.activePe = some (n, pe) ∧ t = s.setPe n u := by
  obtain ⟨n, pe, ha, ht⟩ := errorCycle_next h
  exact ⟨n, pe, _, ha, ht⟩

/-- An instruction with a bank word replaces the active port and nothing else. -/
theorem exec_bank_setPort {i : Instr} {c : Params} {bits : Nat} {s t : State}
    (he : encode c i = .bank bits) (h : exec i s = .next t) :
    ∃ p q u, s.activePort = some (p, q) ∧ t = s.setPort p u := by
  obtain ⟨r, hr⟩ := exec_bank he
  exact bankCycle_setPort ((hr s).symm.trans h)

/-- An instruction with a state code replaces the active PE and nothing else. -/
theorem exec_peState_setPe {i : Instr} {c : Params} {code : StateCode} {s t : State}
    (he : encode c i = .peState code) (h : exec i s = .next t) :
    ∃ n pe u, s.activePe = some (n, pe) ∧ t = s.setPe n u := by
  rcases exec_peState he with ⟨-, rule, hr⟩ | ⟨-, hr⟩
  · exact peCycle_setPe ((hr s).symm.trans h)
  · exact errorCycle_setPe ((hr s).symm.trans h)

/-- Settles O46, by the kind of the instruction's word. -/
theorem oneAgentMoves : Obligations.OneAgentMoves := by
  intro i s t h
  cases he : encode s.params i with
  | peState code =>
    obtain ⟨n, pe, u, ha, ht⟩ := exec_peState_setPe he h
    exact .inl ⟨n, pe, u, ha, ht, code, rfl⟩
  | bank bits =>
    obtain ⟨p, q, u, ha, ht⟩ := exec_bank_setPort he h
    exact .inr ⟨p, q, u, ha, ht, bits, rfl⟩

/-! ## The turns of a cycle -/

section endTurn
variable {s : State}

theorem endTurn_pe {n : Nat} (h : s.turn = .pe n) (hn : n + 1 < s.pes.length) :
    s.endTurn = { s with turn := .pe (n + 1) } := by
  simp [State.endTurn, h, hn]

/-- After the last PE the first port moves. -/
theorem endTurn_last_pe {n : Nat} (h : s.turn = .pe n) (hn : s.pes.length ≤ n + 1) :
    s.endTurn = { s with turn := .port 0 } := by
  simp [State.endTurn, h, Nat.not_lt.mpr hn]

theorem endTurn_port {p : Nat} (h : s.turn = .port p) (hp : p + 1 < s.ports.length) :
    s.endTurn = { s with turn := .port (p + 1) } := by
  simp [State.endTurn, h, hp]

/-- After the last port the cycle ends. -/
theorem endTurn_last_port {p : Nat} (h : s.turn = .port p) (hp : s.ports.length ≤ p + 1) :
    s.endTurn = { s with turn := .pe 0, cycle := s.cycle + 1, stimulus := s.stimulus.tail } := by
  simp [State.endTurn, h, Nat.not_lt.mpr hp]

/-- From the first PE's turn, `k` turns on it is PE `k`'s. -/
theorem endTurn_iterate_pe (h : s.turn = .pe 0) (k : Nat) (hk : k < s.pes.length) :
    State.endTurn^[k] s = { s with turn := .pe k } := by
  induction k with
  | zero => rw [← h]; rfl
  | succ k ih =>
    rw [Function.iterate_succ_apply', ih (by omega)]
    exact endTurn_pe rfl hk

/-- From the first port's turn, `k` turns on it is port `k`'s. -/
theorem endTurn_iterate_port (h : s.turn = .port 0) (k : Nat) (hk : k < s.ports.length) :
    State.endTurn^[k] s = { s with turn := .port k } := by
  induction k with
  | zero => rw [← h]; rfl
  | succ k ih =>
    rw [Function.iterate_succ_apply', ih (by omega)]
    exact endTurn_port rfl hk

/-- As many turns as there are PEs bring the first port's turn. -/
theorem endTurn_iterate_pes (h : s.turn = .pe 0) (hs : 1 ≤ s.pes.length) :
    State.endTurn^[s.pes.length] s = { s with turn := .port 0 } := by
  obtain ⟨k, hk⟩ : ∃ k, s.pes.length = k + 1 := ⟨s.pes.length - 1, by omega⟩
  rw [hk, Function.iterate_succ_apply', endTurn_iterate_pe h k (by omega)]
  exact endTurn_last_pe rfl hk.le

/-- From the first port's turn, as many turns as there are ports end the cycle. -/
theorem endTurn_iterate_ports (h : s.turn = .port 0) (hs : 1 ≤ s.ports.length) :
    State.endTurn^[s.ports.length] s =
      { s with turn := .pe 0, cycle := s.cycle + 1, stimulus := s.stimulus.tail } := by
  obtain ⟨k, hk⟩ : ∃ k, s.ports.length = k + 1 := ⟨s.ports.length - 1, by omega⟩
  rw [hk, Function.iterate_succ_apply', endTurn_iterate_port h k (by omega)]
  exact endTurn_last_port rfl hk.le

end endTurn

/-- Settles O50: the PEs' turns, then the ports'. -/
theorem turnsMakeOneCycle : Obligations.TurnsMakeOneCycle := by
  intro s h hpes hports
  rw [Nat.add_comm, Function.iterate_add_apply, endTurn_iterate_pes h hpes, h]
  exact endTurn_iterate_ports (s := { s with turn := .port 0 }) rfl hports

/-! ## A step -/

section step
variable {s : State} {i : Instr} (hr : s.resetAsked = false) (hf : s.fetch = .ok i)
include hr hf

/-- A step that is no reset passes the turn on after the fetched instruction's next state. -/
theorem step_of_exec_next {t : State} (h : exec i s = .next t) : step s = .next t.endTurn := by
  simp [step, hr, hf, h]

theorem step_of_exec_fault {f : Fault} (h : exec i s = .fault f) : step s = .fault f := by
  simp [step, hr, hf, h]

theorem step_of_exec_refused {r : Refusal} (h : exec i s = .refused r) : step s = .refused r := by
  simp [step, hr, hf, h]

end step

/-- Settles O49, by the fetch on either agent's turn and one lemma per outcome of `exec`. -/
theorem stepRunsTheDecodedInstruction : Obligations.StepRunsTheDecodedInstruction := by
  intro s i hr hf
  exact ⟨fun _ _ ht hp => fetch_pe hf ht hp, fun _ ht => fetch_port hf ht,
    fun _ => step_of_exec_next hr hf, fun _ => step_of_exec_fault hr hf,
    fun _ => step_of_exec_refused hr hf⟩

end Sys2Proof.Machine
end

section
/-! SUPPORT. Well-formed PEs (R20): every state's rule, a hold and reset keep the registers within
their formats. -/

namespace Sys2Proof.Machine

/-- A PE within its formats (R20, R100), register by register: `Pe.wf` as a proposition. -/
structure Pe.InFormat (c : Params) (pe : Pe) : Prop where
  state      : pe.state ≠ Code.reservedState31
  acc        : inRange c.w pe.acc = true
  weightWB   : fitsBlock c pe.weightWB = true
  dataOut    : inRange c.w pe.dataOut = true
  derivative : inRange c.w pe.derivative = true
  errorOut   : inRange c.w pe.errorOut = true
  mse        : inRange c.w pe.mse = true

theorem pe_wf_iff {c : Params} {pe : Pe} : pe.wf c = true ↔ pe.InFormat c := by
  simp only [Pe.wf, Bool.and_eq_true, Bool.not_eq_true', beq_eq_false_iff_ne, and_assoc]
  exact ⟨fun ⟨h1, h2, h3, h4, h5, h6, h7⟩ => ⟨h1, h2, h3, h4, h5, h6, h7⟩,
    fun ⟨h1, h2, h3, h4, h5, h6, h7⟩ => ⟨h1, h2, h3, h4, h5, h6, h7⟩⟩

/-- What a rule may rely on in an advance (R302): a request within its format and, in a state that
waits for the unit, a `W`-bit response. -/
structure PeCtx.InFormat (code : StateCode) (x : PeCtx) : Prop where
  width  : 1 ≤ x.params.w
  req    : x.req.fits x.params = true
  answer : waitsForUnit code = true → inRange x.params.w x.afOut = true

theorem request_fits_bias {c : Params} {r : Request} (h : r.fits c = true) :
    inRange c.w r.bias = true := by
  simp only [Request.fits, Bool.and_eq_true] at h
  obtain ⟨⟨⟨⟨⟨-, hbias⟩, -⟩, -⟩, -⟩, -⟩ := h
  exact hbias

theorem request_fits_learnReg {c : Params} {r : Request} (h : r.fits c = true) :
    inRange c.w r.learnReg = true := by
  simp only [Request.fits, Bool.and_eq_true] at h
  obtain ⟨⟨-, hlearn⟩, -⟩ := h
  exact hlearn

/-- An advance that breaks no duty gives its rule a context within the formats (R170, R302). -/
theorem peCtx_inFormat {s : State} {n : Nat} {pe : Pe} {code : StateCode} (hw : 1 ≤ s.params.w)
    (hb : peBreach s.params code pe (s.peInput n) = none)
    (ha : advances code (s.peInput n) = true) : (s.peCtx n).InFormat code := by
  obtain ⟨hreq, hanswer, -⟩ := peBreach_none.mp hb
  simp only [advances, ready, Bool.and_eq_true, Bool.or_eq_true, Bool.not_eq_true'] at ha
  obtain ⟨hvalid, -, hready⟩ := ha
  refine ⟨hw, hreq hvalid, fun hu => hanswer hu ?_⟩
  exact hready.resolve_left (by simp [hu])

/-! ## The rules -/

section rules
variable {x : PeCtx} {c : Params} {pe : Pe} {code : StateCode}

/-- A transition that writes the state register alone. -/
theorem withState_inFormat (h : pe.InFormat c) {next : StateCode}
    (hn : next ≠ Code.reservedState31) : ({ pe with state := next } : Pe).InFormat c :=
  { h with state := hn }

/-- A branch between two named states is a named state. -/
theorem ite_state_ne {p : Prop} [Decidable p] {k₁ k₂ : StateCode}
    (h₁ : k₁ ≠ Code.reservedState31) (h₂ : k₂ ≠ Code.reservedState31) :
    (if p then k₁ else k₂) ≠ Code.reservedState31 := by
  split_ifs
  · exact h₁
  · exact h₂

theorem enterError_inFormat (h : pe.InFormat c) (k : StateCode) :
    (enterError k x pe).InFormat c :=
  { h with state := show Code.error ≠ _ by decide }

theorem ruleGetInfo_inFormat (h : pe.InFormat c) : (ruleGetInfo x pe).InFormat c :=
  { h with state := show Code.waitForInfo ≠ _ by decide, dataOut := zero_inRange _ }

theorem ruleWaitForInfo_inFormat (h : pe.InFormat c) : (ruleWaitForInfo x pe).InFormat c := by
  simp only [ruleWaitForInfo]
  split_ifs
  · exact withState_inFormat h (by decide)
  · exact withState_inFormat h (by decide)
  · exact withState_inFormat h (by decide)
  · exact enterError_inFormat h _

theorem ruleRequestInputsAndWeights_inFormat (hx : x.InFormat code) (h : pe.InFormat x.params) :
    (ruleRequestInputsAndWeights x pe).InFormat x.params := by
  unfold ruleRequestInputsAndWeights
  split
  · exact withState_inFormat h (by decide)
  · exact { h with
      state := show Code.waitForInputsAndWeights ≠ _ by decide
      acc := request_fits_bias hx.req }

theorem ruleWaitForInputsAndWeights_inFormat (h : pe.InFormat c) :
    (ruleWaitForInputsAndWeights x pe).InFormat c := by
  simp only [ruleWaitForInputsAndWeights]
  split_ifs
  · exact withState_inFormat h (by decide)
  · exact withState_inFormat h (by decide)
  · exact withState_inFormat h (by decide)
  · exact withState_inFormat h (by decide)
  · exact withState_inFormat h (by decide)
  · exact enterError_inFormat h _

theorem ruleRun_inFormat (hx : x.InFormat code) (h : pe.InFormat x.params) :
    (ruleRun x pe).InFormat x.params :=
  { h with
    state := ite_state_ne (by decide) (ite_state_ne (by decide) (by decide))
    acc := accum_inRange hx.width _ _ _ _ }

theorem ruleActivationFunction_inFormat (hx : x.InFormat Code.activationFunction)
    (h : pe.InFormat x.params) : (ruleActivationFunction x pe).InFormat x.params :=
  { h with
    state := ite_state_ne (by decide) (by decide)
    dataOut := hx.answer (by decide) }

theorem ruleComputeDerivative_inFormat (hx : x.InFormat code) (h : pe.InFormat x.params) :
    (ruleComputeDerivative x pe).InFormat x.params :=
  { h with
    state := ite_state_ne (by decide) (by decide)
    derivative := wrap_inRange hx.width _ }

theorem ruleComputeError_inFormat (hx : x.InFormat code) (h : pe.InFormat x.params) :
    (ruleComputeError x pe).InFormat x.params :=
  { h with
    state := show Code.errorFunction ≠ _ by decide
    errorOut := wrap_inRange hx.width _
    mse := wrap_inRange hx.width _ }

theorem ruleErrorFunction_inFormat (hx : x.InFormat Code.errorFunction)
    (h : pe.InFormat x.params) : (ruleErrorFunction x pe).InFormat x.params :=
  { h with state := show Code.computeDelta ≠ _ by decide, errorOut := hx.answer (by decide) }

theorem ruleComputeDelta_inFormat (hx : x.InFormat code) (h : pe.InFormat x.params) :
    (ruleComputeDelta x pe).InFormat x.params := by
  unfold ruleComputeDelta
  split
  · exact { h with
      state := ite_state_ne (by decide) (by decide)
      errorOut := mulshift_inRange hx.width _ _ _ }
  · exact { h with
      state := show Code.deltaWriteBack ≠ _ by decide
      errorOut := mulshift_inRange hx.width _ _ _ }

theorem ruleErrorBackpropDeltaWeightMul_inFormat (hx : x.InFormat code)
    (h : pe.InFormat x.params) : (ruleErrorBackpropDeltaWeightMul x pe).InFormat x.params :=
  { h with
    state := ite_state_ne (by decide) (by decide)
    weightWB := fitsBlock_set h.weightWB (mulshift_inRange hx.width _ _ _) }

theorem ruleWaitForOutputsErrorBackprop_inFormat (hx : x.InFormat code)
    (h : pe.InFormat x.params) : (ruleWaitForOutputsErrorBackprop x pe).InFormat x.params :=
  { h with
    state := show Code.requestDeltaWeightProductErrorBackprop ≠ _ by decide
    dataOut := request_fits_learnReg hx.req }

theorem ruleRunUpdateSlope_inFormat (hx : x.InFormat code) (h : pe.InFormat x.params) :
    (ruleRunUpdateSlope x pe).InFormat x.params :=
  { h with
    state := ite_state_ne (by decide) (by decide)
    weightWB := fitsBlock_set h.weightWB (mulshift_inRange hx.width _ _ _) }

theorem ruleRunWeightUpdate_inFormat (hx : x.InFormat code) (h : pe.InFormat x.params) :
    (ruleRunWeightUpdate x pe).InFormat x.params :=
  { h with
    state := ite_state_ne (by decide) (by decide)
    weightWB := fitsBlock_set h.weightWB (wrap_inRange hx.width _)
    dataOut := mulshift_inRange hx.width _ _ _ }

end rules

/-- The rule of a PE action outside ERROR (R170): the one that `exec` runs (`exec_ruleOf`). -/
def ruleOf : Instr → PeCtx → Pe → Pe
  | .unallocated => ruleUnallocated
  | .getInfo => ruleGetInfo
  | .waitForInfo => ruleWaitForInfo
  | .requestInputsAndWeights => ruleRequestInputsAndWeights
  | .waitForInputsAndWeights => ruleWaitForInputsAndWeights
  | .run => ruleRun
  | .activationFunction => ruleActivationFunction
  | .computeDerivative => ruleComputeDerivative
  | .requestExpectedOutput => ruleRequestExpectedOutput
  | .waitForExpectedOutput => ruleWaitForExpectedOutput
  | .computeError => ruleComputeError
  | .errorFunction => ruleErrorFunction
  | .computeDelta => ruleComputeDelta
  | .deltaWriteBack => ruleDeltaWriteBack
  | .errorBackpropRequestWeights => ruleErrorBackpropRequestWeights
  | .errorBackpropWaitForWeights => ruleErrorBackpropWaitForWeights
  | .errorBackpropDeltaWeightMul => ruleErrorBackpropDeltaWeightMul
  | .errorBackpropWeightWb => ruleErrorBackpropWeightWb
  | .requestOutputsErrorBackprop => ruleRequestOutputsErrorBackprop
  | .waitForOutputsErrorBackprop => ruleWaitForOutputsErrorBackprop
  | .requestDeltaWeightProductErrorBackprop => ruleRequestDeltaWeightProductErrorBackprop
  | .waitForDeltaWeightProductErrorBackprop => ruleWaitForDeltaWeightProductErrorBackprop
  | .done => ruleDone
  | .runUpdateSlope => ruleRunUpdateSlope
  | .slopeWb => ruleSlopeWb
  | .weightUpdateRequestDelta => ruleWeightUpdateRequestDelta
  | .weightUpdateWaitForDelta => ruleWeightUpdateWaitForDelta
  | .runWeightUpdate => ruleRunWeightUpdate
  | .weightUpdateWriteBack => ruleWeightUpdateWriteBack
  | .weightUpdateWriteBias => ruleWeightUpdateWriteBias
  | _ => fun _ pe => pe

/-- Outside ERROR, a PE action is the cycle of its state with `ruleOf` (R170). -/
theorem exec_ruleOf {i : Instr} {c : Params} {code : StateCode} (h : encode c i = .peState code)
    (he : isErrorState code = false) (s : State) : exec i s = peCycle code (ruleOf i) s := by
  cases i with
  | rd | wrE | wrB | wrA | illegalWtype3 => simp [encode, encodeBank] at h
  | error | reservedState31 =>
    obtain rfl := MachineWord.peState.inj h
    exact absurd he (by decide)
  | _ =>
    obtain rfl := MachineWord.peState.inj h
    rfl

/-- Every rule keeps the registers within their formats. -/
theorem ruleOf_inFormat {i : Instr} {x : PeCtx} {pe : Pe} {code : StateCode}
    (hi : encode x.params i = .peState code) (hx : x.InFormat code) (h : pe.InFormat x.params) :
    (ruleOf i x pe).InFormat x.params := by
  cases i with
  | unallocated => exact { h with state := show Code.getInfo ≠ _ by decide }
  | getInfo => exact ruleGetInfo_inFormat (x := x) h
  | waitForInfo => exact ruleWaitForInfo_inFormat h
  | requestInputsAndWeights => exact ruleRequestInputsAndWeights_inFormat hx h
  | waitForInputsAndWeights => exact ruleWaitForInputsAndWeights_inFormat h
  | run => exact ruleRun_inFormat hx h
  | activationFunction =>
    obtain rfl := MachineWord.peState.inj hi
    exact ruleActivationFunction_inFormat hx h
  | computeDerivative => exact ruleComputeDerivative_inFormat hx h
  | computeError => exact ruleComputeError_inFormat hx h
  | errorFunction =>
    obtain rfl := MachineWord.peState.inj hi
    exact ruleErrorFunction_inFormat hx h
  | computeDelta => exact ruleComputeDelta_inFormat hx h
  | deltaWriteBack =>
    exact withState_inFormat h
      (ite_state_ne (by decide) (ite_state_ne (by decide) (ite_state_ne (by decide) (by decide))))
  | errorBackpropDeltaWeightMul => exact ruleErrorBackpropDeltaWeightMul_inFormat hx h
  | errorBackpropWeightWb =>
    exact withState_inFormat h (ite_state_ne (by decide) (ite_state_ne (by decide) (by decide)))
  | waitForOutputsErrorBackprop => exact ruleWaitForOutputsErrorBackprop_inFormat hx h
  | runUpdateSlope => exact ruleRunUpdateSlope_inFormat hx h
  | slopeWb => exact withState_inFormat h (ite_state_ne (by decide) (by decide))
  | runWeightUpdate => exact ruleRunWeightUpdate_inFormat hx h
  | weightUpdateWriteBack => exact withState_inFormat h (ite_state_ne (by decide) (by decide))
  | rd | wrE | wrB | wrA | illegalWtype3 | error | reservedState31 => exact h
  | _ => exact withState_inFormat h (by decide)

/-! ## A PE's cycle, and reset -/

/-- A PE action keeps its PE within its formats: on an advance by the rule, on a hold and in ERROR
because no register of the format is written. -/
theorem exec_pe_inFormat {i : Instr} {code : StateCode} {s t : State}
    (hi : encode s.params i = .peState code) (hw : 1 ≤ s.params.w) (h : exec i s = .next t) :
    ∃ n pe u, s.activePe = some (n, pe) ∧ t = s.setPe n u ∧
      (pe.InFormat s.params → u.InFormat s.params) := by
  cases he : isErrorState code with
  | true =>
    obtain ⟨-, hex⟩ := (exec_peState hi).resolve_left (by simp [he])
    obtain ⟨n, pe, ha, ht⟩ := errorCycle_next ((hex s).symm.trans h)
    exact ⟨n, pe, _, ha, ht, fun hpe => { hpe with }⟩
  | false =>
    obtain ⟨n, pe, ha, hb, ⟨hadv, ht⟩ | ⟨-, ht⟩⟩ := peCycle_next ((exec_ruleOf hi he s).symm.trans h)
    · have hx := peCtx_inFormat hw hb hadv
      exact ⟨n, pe, _, ha, ht, fun hpe => { ruleOf_inFormat (x := s.peCtx n) hi hx hpe with }⟩
    · exact ⟨n, pe, _, ha, ht, fun hpe => { hpe with }⟩

theorem pe_reset_inFormat {c : Params} (hw : 1 ≤ c.w) (run n : Nat) :
    (Pe.reset c run n).InFormat c where
  state      := show Code.unallocated ≠ _ by decide
  acc        := unspecElem_inRange hw _
  weightWB   := fitsBlock_map_range fun _ => unspecElem_inRange hw _
  dataOut    := unspecElem_inRange hw _
  derivative := unspecElem_inRange hw _
  errorOut   := unspecElem_inRange hw _
  mse        := unspecElem_inRange hw _

end Sys2Proof.Machine
end

section
/-! SUPPORT. Well-formed ports and states (R37, R38, R61): a bank cycle, a fault and reset keep a port
within its formats, and every step keeps a state well formed. -/

namespace Sys2Proof.Machine

/-- A port within its formats (R37, R38): `Port.wf` as a proposition. -/
structure Port.InFormat (c : Params) (q : Port) : Prop where
  canonical : q.mem.wf = true
  within    : q.mem.within c = true
  dout      : fitsBlock c q.dout = true
  pend      : q.pend.fits c = true
  legal     : q.bankFault = none → pendingLegal c q.pend = true

theorem port_wf_iff {c : Params} {q : Port} : q.wf c = true ↔ q.InFormat c := by
  have hlegal : (q.bankFault.isSome || pendingLegal c q.pend) = true ↔
      (q.bankFault = none → pendingLegal c q.pend = true) := by
    cases q.bankFault <;> simp
  simp only [Port.wf, Bool.and_eq_true, hlegal, and_assoc]
  exact ⟨fun ⟨h1, h2, h3, h4, h5⟩ => ⟨h1, h2, h3, h4, h5⟩,
    fun ⟨h1, h2, h3, h4, h5⟩ => ⟨h1, h2, h3, h4, h5⟩⟩

theorem pending_fits_iff {c : Params} {pd : Pending} :
    pd.fits c = true ↔ inRange c.w pd.dataElement = true ∧ fitsBlock c pd.dataBlock = true ∧
      pd.addrHi < 2 ^ c.hiw ∧ pd.addrLo < 2 ^ c.low := by
  simp [Pending.fits, and_assoc]

theorem pendingLegal_iff {c : Params} {pd : Pending} :
    pendingLegal c pd = true ↔
      (pd.valid = true → pd.wType ≠ 3 ∧ pd.addrHi < c.nb ∧ pd.addrLo < c.epb) := by
  cases h : pd.valid <;> simp [pendingLegal, h, and_assoc]

theorem inBounds_iff {c : Params} {wc : WriteCmd} :
    wc.inBounds c = true ↔ wc.waddrHi < c.nb ∧ wc.waddrLo < c.epb ∧
      inRange c.w wc.dinElement = true ∧ fitsBlock c wc.dinBlock = true ∧ wc.wType ≠ 3 := by
  simp [WriteCmd.inBounds, and_assoc]

/-! ## Unspecified contents -/

theorem unspecPending_fits {c : Params} (hw : 1 ≤ c.w) (o : Config.Origin) (v : Bool) :
    (unspecPending c o v).fits c = true :=
  pending_fits_iff.mpr ⟨unspecElem_inRange hw _,
    fitsBlock_map_range fun _ => unspecElem_inRange hw _,
    Nat.mod_lt _ (Nat.two_pow_pos _), Nat.mod_lt _ (Nat.two_pow_pos _)⟩

theorem unspecDout_fits {c : Params} (hw : 1 ≤ c.w) (o : Config.Origin) :
    fitsBlock c (unspecDout c o) = true :=
  fitsBlock_map_range fun _ => unspecElem_inRange hw _

/-- The contents of a faulted port are within their formats whatever they were (R276). -/
theorem unspecify_inFormat {c : Params} (hw : 1 ≤ c.w) {q : Port}
    (hf : q.bankFault.isSome = true) : (q.unspecify c).InFormat c where
  canonical := by simp [Memory.wf]
  within    := rfl
  dout      := unspecDout_fits hw _
  pend      := unspecPending_fits hw _ _
  legal     := fun h => absurd h (Option.isSome_iff_ne_none.mp hf)

theorem raise_inFormat {c : Params} (hw : 1 ≤ c.w) (q : Port) (f : BankFault) :
    (q.raise c f).InFormat c :=
  unspecify_inFormat hw (recordFault_isSome _ f)

theorem port_reset_inFormat {c : Params} (hw : 1 ≤ c.w) (run p : Nat) :
    (Port.reset c run p).InFormat c where
  canonical := by simp [Port.reset, Memory.wf]
  within    := rfl
  dout      := unspecDout_fits hw _
  pend      := unspecPending_fits hw _ _
  legal     := fun _ => rfl

/-! ## A port's cycle without a violation (R140) -/

section tick
variable {c : Params} {q : Port} {r : Nat} {w : Option WriteCmd}

/-- A write whose data fits, that raises no violation and whose addresses exist is in bounds. -/
theorem accepted_inBounds {p cycle : Nat} {pd : Pending}
    (hd : ∀ wc ∈ w, inRange c.w wc.dinElement = true ∧ fitsBlock c wc.dinBlock = true)
    (hv : w.bind (violation p cycle pd) = none) (ho : outOfRange c r w = false) :
    ∀ wc ∈ w, wc.inBounds c = true := by
  rintro wc rfl
  obtain ⟨he, hb⟩ := hd wc rfl
  obtain ⟨htype, -⟩ := violation_none.mp hv
  simp only [outOfRange, Bool.or_eq_false_iff, decide_eq_false_iff_not, Nat.not_le] at ho
  obtain ⟨-, hhi, hlo⟩ := ho
  exact inBounds_iff.mpr ⟨hhi, hlo, he, hb, htype⟩

/-- The block that a cycle makes of the pending entry and a forwarded write is in format. -/
theorem fitsBlock_comb (hc : 1 ≤ c.w) (h : q.InFormat c) (hw : ∀ wc ∈ w, wc.inBounds c = true) :
    fitsBlock c (comb c q w) = true := by
  have ht := fitsBlock_rmw hc h.pend (fitsBlock_readBlock hc h.within q.pend.addrHi)
  unfold comb
  cases w with
  | none => exact ht
  | some wc =>
    obtain ⟨-, -, he, hb, -⟩ := inBounds_iff.mp (hw wc rfl)
    simp only
    split
    · exact fitsBlock_foldWrite hc he hb ht
    · exact ht

/-- Storing a block of the storage keeps every entry within it. -/
theorem storeBlock_within {hi : Nat} {blk : Block} (h : q.mem.within c = true) (hhi : hi < c.nb)
    (hb : fitsBlock c blk = true) : (q.storeBlock c hi blk).within c = true := by
  obtain ⟨hlen, hr⟩ := fitsBlock_iff.mp hb
  refine writeFrom_within h ?_ hr
  calc elemAddr c hi 0 + blk.length = (hi + 1) * c.epb := by
        rw [hlen, elemAddr, Nat.add_mul, Nat.one_mul, Nat.add_zero]
    _ ≤ c.nb * c.epb := Nat.mul_le_mul_right _ hhi

/-- All that the next pending entry can be (R149): the old one made invalid, or the write itself. -/
theorem nextPending_cases (pd : Pending) (w : Option WriteCmd) :
    nextPending pd w = { pd with valid := false } ∨
      ∃ wc ∈ w, nextPending pd w =
        { valid := true, wType := wc.wType, dataElement := wc.dinElement,
          dataBlock := wc.dinBlock, addrHi := wc.waddrHi, addrLo := wc.waddrLo } := by
  cases w with
  | none => exact .inl rfl
  | some wc =>
    cases hf : forwards pd wc with
    | true => exact .inl (if_pos hf)
    | false => exact .inr ⟨wc, rfl, if_neg (by simp [hf])⟩

/-- The next pending entry fits its format: an address of the storage fits its field (R38). -/
theorem nextPending_fits {pd : Pending} (h : pd.fits c = true)
    (hw : ∀ wc ∈ w, wc.inBounds c = true) : (nextPending pd w).fits c = true := by
  obtain he | ⟨wc, hwc, he⟩ := nextPending_cases pd w
  · exact he ▸ h
  · obtain ⟨hhi, hlo, hel, hb, -⟩ := inBounds_iff.mp (hw wc hwc)
    exact he ▸ pending_fits_iff.mpr ⟨hel, hb, hhi.trans_le (le_two_pow_clog2 c.nb),
      hlo.trans_le (le_two_pow_clog2 c.epb)⟩

/-- The next pending entry is empty or an accepted write (R149). -/
theorem nextPending_legal (pd : Pending) (hw : ∀ wc ∈ w, wc.inBounds c = true) :
    pendingLegal c (nextPending pd w) = true := by
  obtain he | ⟨wc, hwc, he⟩ := nextPending_cases pd w
  · exact he ▸ rfl
  · obtain ⟨hhi, hlo, -, -, htype⟩ := inBounds_iff.mp (hw wc hwc)
    exact he ▸ pendingLegal_iff.mpr fun _ => ⟨htype, hhi, hlo⟩

theorem tick_mem : (q.tick c r w).mem =
    if q.pend.valid then q.storeBlock c q.pend.addrHi (comb c q w) else q.mem := rfl

theorem tick_dout : (q.tick c r w).dout =
    if q.pend.valid && r == q.pend.addrHi then comb c q w else q.readBlock c r := rfl

/-- A tick keeps a port without a fault within its formats (R147 to R149). -/
theorem tick_inFormat (hc : 1 ≤ c.w) (h : q.InFormat c) (hf : q.bankFault = none)
    (hw : ∀ wc ∈ w, wc.inBounds c = true) : (q.tick c r w).InFormat c := by
  have hcomb := fitsBlock_comb hc h hw
  constructor
  case canonical =>
    rw [tick_mem]
    split
    · exact writeFrom_wf h.canonical _ _
    · exact h.canonical
  case within =>
    rw [tick_mem]
    split
    · rename_i hv
      obtain ⟨-, hhi, -⟩ := pendingLegal_iff.mp (h.legal hf) hv
      exact storeBlock_within h.within hhi hcomb
    · exact h.within
  case dout =>
    rw [tick_dout]
    split
    · exact hcomb
    · exact fitsBlock_readBlock hc h.within r
  case pend => exact nextPending_fits h.pend hw
  case legal => exact fun _ => nextPending_legal q.pend hw

end tick

/-- A bank cycle keeps its port within its formats, when the command's data is. -/
theorem bankCycle_inFormat {r : Nat} {w : Option WriteCmd} {s t : State} (hc : 1 ≤ s.params.w)
    (hd : ∀ wc ∈ w, inRange s.params.w wc.dinElement = true ∧
      fitsBlock s.params wc.dinBlock = true)
    (h : bankCycle r w s = .next t) :
    ∃ p q u, s.activePort = some (p, q) ∧ t = s.setPort p u ∧
      (q.InFormat s.params → u.InFormat s.params) := by
  obtain ⟨p, q, ha, ⟨hf, ht⟩ | ⟨-, f, -, ht⟩ | ⟨hf, hv, ho, ht⟩⟩ := bankCycle_next h
  · exact ⟨p, q, _, ha, ht, fun _ => unspecify_inFormat hc hf⟩
  · exact ⟨p, q, _, ha, ht, fun _ => raise_inFormat hc q f⟩
  · exact ⟨p, q, _, ha, ht, fun hq => tick_inFormat hc hq hf (accepted_inBounds hd hv ho)⟩

/-- The data of a well-formed instruction's write command is within its formats (R91). -/
theorem writeOf_fits {c : Params} {i : Instr} (h : i.wellFormed c = true) :
    ∀ wc ∈ writeOf i, inRange c.w wc.dinElement = true ∧ fitsBlock c wc.dinBlock = true := by
  intro wc hwc
  cases i with
  | wrE | wrB | wrA | illegalWtype3 =>
    obtain rfl := Option.some.inj hwc
    obtain ⟨-, -, -, he, hb⟩ := writeFits_iff.mp h
    exact ⟨he, hb⟩
  | _ => cases hwc

/-- A well-formed bank command keeps its port within its formats. -/
theorem exec_bank_inFormat {i : Instr} {bits : Nat} {s t : State}
    (hi : encode s.params i = .bank bits) (hwf : i.wellFormed s.params = true)
    (hc : 1 ≤ s.params.w) (h : exec i s = .next t) :
    ∃ p q u, s.activePort = some (p, q) ∧ t = s.setPort p u ∧
      (q.InFormat s.params → u.InFormat s.params) := by
  obtain ⟨r, hr⟩ := exec_bank hi
  exact bankCycle_inFormat hc (writeOf_fits hwf) ((hr s).symm.trans h)

/-! ## Well-formed states -/

/-- A well-formed state (R4, R20, R37): `State.wf` as a proposition. -/
structure State.InFormat (s : State) : Prop where
  sizes     : s.params.ok = true
  peCount   : s.pes.length = s.params.npe
  portCount : s.ports.length = s.params.np
  turn      : s.turn.legal s.params = true
  pes       : ∀ pe ∈ s.pes, pe.InFormat s.params
  ports     : ∀ q ∈ s.ports, q.InFormat s.params

theorem state_wf_iff {s : State} : s.wf = true ↔ s.InFormat := by
  simp only [State.wf, Bool.and_eq_true, decide_eq_true_eq, List.all_eq_true, pe_wf_iff,
    port_wf_iff, and_assoc]
  exact ⟨fun ⟨h1, h2, h3, h4, h5, h6⟩ => ⟨h1, h2, h3, h4, h5, h6⟩,
    fun ⟨h1, h2, h3, h4, h5, h6⟩ => ⟨h1, h2, h3, h4, h5, h6⟩⟩

section state
variable {s t : State}

theorem activePe_mem {n : Nat} {pe : Pe} (h : s.activePe = some (n, pe)) : pe ∈ s.pes :=
  List.mem_of_getElem? (activePe_eq.mp h).2

theorem activePort_mem {p : Nat} {q : Port} (h : s.activePort = some (p, q)) : q ∈ s.ports :=
  List.mem_of_getElem? (activePort_eq.mp h).2

theorem setPe_inFormat (h : s.InFormat) (n : Nat) {u : Pe} (hu : u.InFormat s.params) :
    (s.setPe n u).InFormat :=
  { h with
    peCount := by simp [h.peCount]
    pes := fun pe hpe => (List.mem_or_eq_of_mem_set hpe).elim (h.pes pe) (· ▸ hu) }

theorem setPort_inFormat (h : s.InFormat) (p : Nat) {u : Port} (hu : u.InFormat s.params) :
    (s.setPort p u).InFormat :=
  { h with
    portCount := by simp [h.portCount]
    ports := fun q hq => (List.mem_or_eq_of_mem_set hq).elim (h.ports q) (· ▸ hu) }

/-- Legal sizes have an agent of each kind (R4). -/
theorem agents_of_ok {c : Params} (h : c.ok = true) : 1 ≤ c.npe ∧ 1 ≤ c.np := by
  simp only [Params.ok, decide_eq_true_eq] at h
  omega

/-- The next turn is an existing agent's. -/
theorem endTurn_turn_legal (h : s.InFormat) : s.endTurn.turn.legal s.params = true := by
  obtain ⟨hpe, hport⟩ := agents_of_ok h.sizes
  unfold State.endTurn
  split
  · split
    · exact decide_eq_true (by rw [← h.peCount]; assumption)
    · exact decide_eq_true hport
  · split
    · exact decide_eq_true (by rw [← h.portCount]; assumption)
    · exact decide_eq_true hpe

theorem endTurn_inFormat (h : s.InFormat) : s.endTurn.InFormat where
  sizes     := by simpa using h.sizes
  peCount   := by simpa using h.peCount
  portCount := by simpa using h.portCount
  turn      := by simpa using endTurn_turn_legal h
  pes       := by simpa using h.pes
  ports     := by simpa using h.ports

/-- Reset gives a well-formed state for all legal sizes (R42, R300). -/
theorem resetOf_inFormat {c : Params} (hc : c.ok = true) (run : Nat) :
    (State.resetOf c run).InFormat where
  sizes     := hc
  peCount   := by simp [State.resetOf]
  portCount := by simp [State.resetOf]
  turn      := decide_eq_true (agents_of_ok hc).1
  pes       := fun pe hpe => by
    obtain ⟨n, -, rfl⟩ := List.mem_map.mp hpe
    exact pe_reset_inFormat (one_le_w_of_ok hc) run n
  ports     := fun q hq => by
    obtain ⟨p, -, rfl⟩ := List.mem_map.mp hq
    exact port_reset_inFormat (one_le_w_of_ok hc) run p

theorem globalReset_inFormat (h : s.InFormat) : s.globalReset.InFormat :=
  { resetOf_inFormat h.sizes (s.run + 1) with }

/-- A well-formed instruction keeps a state well formed, by the kind of its word. -/
theorem exec_inFormat {i : Instr} (hs : s.InFormat) (hi : i.wellFormed s.params = true)
    (h : exec i s = .next t) : t.InFormat := by
  have hw := one_le_w_of_ok hs.sizes
  cases he : encode s.params i with
  | peState code =>
    obtain ⟨n, pe, u, ha, rfl, hu⟩ := exec_pe_inFormat he hw h
    exact setPe_inFormat hs n (hu (hs.pes pe (activePe_mem ha)))
  | bank bits =>
    obtain ⟨p, q, u, ha, rfl, hu⟩ := exec_bank_inFormat he hi hw h
    exact setPort_inFormat hs p (hu (hs.ports q (activePort_mem ha)))

end state

/-- Settles O56: a step is the global reset, or the next state of a decoded, hence well-formed,
instruction with the turn passed on. -/
theorem stepKeepsWellFormed : Obligations.StepKeepsWellFormed := by
  intro s t hs h
  have hs := state_wf_iff.mp hs
  apply state_wf_iff.mpr
  obtain ⟨-, rfl⟩ | ⟨-, i, u, hf, hu, rfl⟩ := step_next h
  · exact globalReset_inFormat hs
  · have hi : i.wellFormed s.params = true := decode_wellFormed (one_le_w_of_ok hs.sizes) hf
    exact endTurn_inFormat (exec_inFormat hs hi hu)

end Sys2Proof.Machine
end

section
/-! SUPPORT. Everything that a step can do to a PE, and how a property of PEs is carried through a
step. -/

namespace Sys2Proof.Machine

/-- Everything that PE `n`'s own turn can make of its registers `pe` (R170, R182): an advance by its
state's rule with no duty broken, a hold, or a cycle in ERROR. -/
inductive PeTurn (s : State) (n : Nat) (pe : Pe) : Pe → Prop
  | advance (hb : peBreach s.params pe.state pe (s.peInput n) = none)
      (ha : advances pe.state (s.peInput n) = true) :
      PeTurn s n pe
        (advancePe pe.state (ruleOf (decodeState pe.state)) (s.peCtx n) (s.peInput n) pe)
  | hold : PeTurn s n pe (holdPe s.params pe.state (s.peInput n) pe)
  | inError (he : isErrorState pe.state = true) :
      PeTurn s n pe { pe.raise (foundInError s n pe.state) with
        out := peOutputs s.params pe.state pe (s.peInput n) }

theorem isErrorState_iff {code : StateCode} :
    isErrorState code = true ↔ code = Code.error ∨ code = Code.reservedState31 := by
  simp [isErrorState]

/-- ERROR never advances (R171). -/
theorem not_isErrorState_of_advances {code : StateCode} {inp : PeInput}
    (h : advances code inp = true) : isErrorState code = false := by
  simp only [advances, ready, Bool.and_eq_true, Bool.not_eq_true'] at h
  obtain ⟨-, he, -⟩ := h
  exact he

section turn
variable {s t : State} {n : Nat} {pe : Pe}

/-- The fetched instruction of a PE's turn makes a turn of that PE and touches no other. -/
theorem exec_pes {i : Instr} (hf : s.fetch = .ok i) (h : exec i s = .next t) :
    t.pes = s.pes ∨
      ∃ n pe u, s.pes[n]? = some pe ∧ t.pes = s.pes.set n u ∧ PeTurn s n pe u := by
  cases hi : encode s.params i with
  | bank bits =>
    obtain ⟨p, q, u, -, rfl⟩ := exec_bank_setPort hi h
    exact .inl rfl
  | peState code =>
    have hactive {n pe} (ha : s.activePe = some (n, pe)) :
        s.pes[n]? = some pe ∧ i = decodeState pe.state ∧ code = pe.state := by
      obtain ⟨ht, hp⟩ := activePe_eq.mp ha
      have hdec := fetch_pe hf ht hp
      rw [hdec, encode_decodeState] at hi
      exact ⟨hp, hdec, (MachineWord.peState.inj hi).symm⟩
    cases he : isErrorState code with
    | true =>
      obtain ⟨-, hex⟩ := (exec_peState hi).resolve_left (by simp [he])
      obtain ⟨n, pe, ha, rfl⟩ := errorCycle_next ((hex s).symm.trans h)
      obtain ⟨hp, -, rfl⟩ := hactive ha
      exact .inr ⟨n, pe, _, hp, rfl, .inError he⟩
    | false =>
      obtain ⟨n, pe, ha, hb, hnext⟩ := peCycle_next ((exec_ruleOf hi he s).symm.trans h)
      obtain ⟨hp, rfl, rfl⟩ := hactive ha
      obtain ⟨hadv, rfl⟩ | ⟨-, rfl⟩ := hnext
      · exact .inr ⟨n, pe, _, hp, rfl, .advance hb hadv⟩
      · exact .inr ⟨n, pe, _, hp, rfl, .hold⟩

/-- After a step that is no reset, each PE is as it was or has had its turn. -/
theorem step_pe (hr : s.resetAsked = false) (h : step s = .next t) {u : Pe}
    (hu : t.pes[n]? = some u) :
    s.pes[n]? = some u ∨ ∃ pe, s.pes[n]? = some pe ∧ PeTurn s n pe u := by
  obtain ⟨hreset, -⟩ | ⟨-, i, v, hf, hv, rfl⟩ := step_next h
  · exact absurd hreset (by simp [hr])
  rw [endTurn_pes] at hu
  obtain hsame | ⟨m, pe, w, hm, hset, hturn⟩ := exec_pes hf hv
  · exact .inl (hsame ▸ hu)
  · by_cases hmn : m = n
    · subst hmn
      have hlt : m < s.pes.length := (List.getElem?_eq_some_iff.mp hm).1
      rw [hset, List.getElem?_set_self hlt] at hu
      obtain rfl := Option.some.inj hu
      exact .inr ⟨pe, hm, hturn⟩
    · rw [hset, List.getElem?_set_ne hmn] at hu
      exact .inl hu

/-- A property of PEs that reset gives and that every turn of a PE keeps, every step keeps. -/
theorem step_keeps_pes {P : Pe → Prop} (hreset : ∀ c run n, P (Pe.reset c run n))
    (hturn : ∀ s n pe u, PeTurn s n pe u → P pe → P u)
    (hs : ∀ pe ∈ s.pes, P pe) (h : step s = .next t) : ∀ pe ∈ t.pes, P pe := by
  intro u hu
  cases hr : s.resetAsked with
  | true =>
    obtain ⟨-, rfl⟩ | ⟨hno, -⟩ := step_next h
    · obtain ⟨n, -, rfl⟩ := List.mem_map.mp hu
      exact hreset _ _ n
    · simp [hr] at hno
  | false =>
    obtain ⟨n, hn⟩ := List.mem_iff_getElem?.mp hu
    obtain hsame | ⟨pe, hp, hpe⟩ := step_pe hr h hn
    · exact hs u (List.mem_of_getElem? hsame)
    · exact hturn s n pe u hpe (hs pe (List.mem_of_getElem? hp))

end turn

/-! ## Which registers a PE's turn writes (R20, R21) -/

/-- Registers `u` differ from registers `pe` only where R20 lists state `code` as a writer; a fault is
recorded where ERROR is selected and in ERROR (R25, R273). -/
structure KeepsToWriters (code : StateCode) (pe u : Pe) : Prop where
  hasBias    : u.hasBias ≠ pe.hasBias → code ∈ ([0, 3] : List StateCode)
  index      : u.index ≠ pe.index → code ∈ ([1, 5, 12, 16, 23, 27] : List StateCode)
  acc        : u.acc ≠ pe.acc → code ∈ ([3, 5] : List StateCode)
  weightWB   : u.weightWB ≠ pe.weightWB → code ∈ ([16, 23, 27] : List StateCode)
  dataOut    : u.dataOut ≠ pe.dataOut → code ∈ ([1, 6, 19, 27] : List StateCode)
  derivative : u.derivative ≠ pe.derivative → code = 7
  errorOut   : u.errorOut ≠ pe.errorOut → code ∈ ([10, 11, 12] : List StateCode)
  mse        : u.mse ≠ pe.mse → code = 10
  peFault    : u.peFault ≠ pe.peFault → code ∈ ([2, 4, 30, 31] : List StateCode)

theorem keepsToWriters_refl (code : StateCode) (pe : Pe) : KeepsToWriters code pe pe where
  hasBias h    := absurd rfl h
  index h      := absurd rfl h
  acc h        := absurd rfl h
  weightWB h   := absurd rfl h
  dataOut h    := absurd rfl h
  derivative h := absurd rfl h
  errorOut h   := absurd rfl h
  mse h        := absurd rfl h
  peFault h    := absurd rfl h

/-- A transition that writes the state register alone. -/
theorem withState_keepsToWriters (code : StateCode) (pe : Pe) (next : StateCode) :
    KeepsToWriters code pe { pe with state := next } :=
  { keepsToWriters_refl code pe with }

/-- The two states that select ERROR record the fault. -/
theorem enterError_keepsToWriters {code : StateCode} (k : StateCode) (x : PeCtx) (pe : Pe)
    (h : code ∈ ([2, 4, 30, 31] : List StateCode)) :
    KeepsToWriters code pe (enterError k x pe) :=
  { keepsToWriters_refl code pe with peFault := fun _ => h }

/-- Every rule writes the registers that R20 lists for its state, and no others. -/
theorem ruleOf_keepsToWriters {c : Params} {i : Instr} {code : StateCode}
    (hi : encode c i = .peState code) (x : PeCtx) (pe : Pe) :
    KeepsToWriters code pe (ruleOf i x pe) := by
  have same := keepsToWriters_refl code pe
  cases i with
  | rd | wrE | wrB | wrA | illegalWtype3 | error | reservedState31 => exact same
  | unallocated =>
    obtain rfl := MachineWord.peState.inj hi
    exact { same with hasBias := fun _ => by decide }
  | getInfo =>
    obtain rfl := MachineWord.peState.inj hi
    exact { same with dataOut := fun _ => by decide, index := fun _ => by decide }
  | waitForInfo =>
    obtain rfl := MachineWord.peState.inj hi
    simp only [ruleOf, ruleWaitForInfo]
    split_ifs
    · exact withState_keepsToWriters _ _ _
    · exact withState_keepsToWriters _ _ _
    · exact withState_keepsToWriters _ _ _
    · exact enterError_keepsToWriters _ _ _ (by decide)
  | requestInputsAndWeights =>
    obtain rfl := MachineWord.peState.inj hi
    simp only [ruleOf, ruleRequestInputsAndWeights]
    split
    · exact withState_keepsToWriters _ _ _
    · exact { same with hasBias := fun _ => by decide, acc := fun _ => by decide }
  | waitForInputsAndWeights =>
    obtain rfl := MachineWord.peState.inj hi
    simp only [ruleOf, ruleWaitForInputsAndWeights]
    split_ifs
    · exact withState_keepsToWriters _ _ _
    · exact withState_keepsToWriters _ _ _
    · exact withState_keepsToWriters _ _ _
    · exact withState_keepsToWriters _ _ _
    · exact withState_keepsToWriters _ _ _
    · exact enterError_keepsToWriters _ _ _ (by decide)
  | run =>
    obtain rfl := MachineWord.peState.inj hi
    exact { same with acc := fun _ => by decide, index := fun _ => by decide }
  | activationFunction =>
    obtain rfl := MachineWord.peState.inj hi
    exact { same with dataOut := fun _ => by decide }
  | computeDerivative =>
    obtain rfl := MachineWord.peState.inj hi
    exact { same with derivative := fun _ => by decide }
  | computeError =>
    obtain rfl := MachineWord.peState.inj hi
    exact { same with errorOut := fun _ => by decide, mse := fun _ => by decide }
  | errorFunction =>
    obtain rfl := MachineWord.peState.inj hi
    exact { same with errorOut := fun _ => by decide }
  | computeDelta =>
    obtain rfl := MachineWord.peState.inj hi
    simp only [ruleOf, ruleComputeDelta]
    split
    · exact { same with errorOut := fun _ => by decide, index := fun _ => by decide }
    · exact { same with errorOut := fun _ => by decide, index := fun _ => by decide }
  | errorBackpropDeltaWeightMul | runUpdateSlope =>
    obtain rfl := MachineWord.peState.inj hi
    exact { same with weightWB := fun _ => by decide, index := fun _ => by decide }
  | waitForOutputsErrorBackprop =>
    obtain rfl := MachineWord.peState.inj hi
    exact { same with dataOut := fun _ => by decide }
  | runWeightUpdate =>
    obtain rfl := MachineWord.peState.inj hi
    exact { same with
      weightWB := fun _ => by decide, dataOut := fun _ => by decide, index := fun _ => by decide }
  | _ => exact withState_keepsToWriters _ _ _

/-- A PE's turn writes the registers that R20 lists for its state, and no others. -/
theorem peTurn_keepsToWriters {s : State} {n : Nat} {pe u : Pe} (h : PeTurn s n pe u) :
    KeepsToWriters pe.state pe u := by
  cases h with
  | advance =>
    exact { ruleOf_keepsToWriters (encode_decodeState s.params pe.state) (s.peCtx n) pe with }
  | hold => exact { keepsToWriters_refl pe.state pe with }
  | inError he =>
    exact { keepsToWriters_refl pe.state pe with
      peFault := fun _ => by obtain h | h := isErrorState_iff.mp he <;> rw [h] <;> decide }

/-- Settles O52: a PE that has not had its turn is as it was, and a turn keeps to R20. -/
theorem registersKeepToTheirWriters : Obligations.RegistersKeepToTheirWriters := by
  intro s t n pe u hr h hp hu
  have hw : KeepsToWriters pe.state pe u := by
    obtain hsame | ⟨pe', hp', hturn⟩ := step_pe hr h hu
    · obtain rfl := Option.some.inj (hp.symm.trans hsame)
      exact keepsToWriters_refl pe.state pe
    · obtain rfl := Option.some.inj (hp.symm.trans hp')
      exact peTurn_keepsToWriters hturn
  exact ⟨hw.hasBias, hw.index, hw.acc, hw.weightWB, hw.dataOut, hw.derivative, hw.errorOut, hw.mse⟩

end Sys2Proof.Machine
end

section
/-! SUPPORT. The invariants of a PE (R23, R24, R273): every turn of a PE keeps them, and reset meets
them. -/

namespace Sys2Proof.Machine

/-! ## The state graph (R100, R176 to R256) -/

/-- The states that an advance from state `code` can enter (`ruleOf_state_mem`). -/
def successors (code : StateCode) : List StateCode :=
  match decodeState code with
  | .unallocated => [Code.getInfo]
  | .getInfo => [Code.waitForInfo]
  | .waitForInfo =>
    [Code.requestInputsAndWeights, Code.requestOutputsErrorBackprop, Code.weightUpdateRequestDelta,
     Code.error]
  | .requestInputsAndWeights => [Code.waitForInputsAndWeights]
  | .waitForInputsAndWeights =>
    [Code.run, Code.runUpdateSlope, Code.runWeightUpdate, Code.error]
  | .run => [Code.activationFunction, Code.requestInputsAndWeights, Code.run]
  | .activationFunction => [Code.computeDerivative, Code.done]
  | .computeDerivative => [Code.computeDelta, Code.requestExpectedOutput]
  | .requestExpectedOutput => [Code.waitForExpectedOutput]
  | .waitForExpectedOutput => [Code.computeError]
  | .computeError => [Code.errorFunction]
  | .errorFunction => [Code.computeDelta]
  | .computeDelta => [Code.requestInputsAndWeights, Code.deltaWriteBack]
  | .deltaWriteBack =>
    [Code.requestInputsAndWeights, Code.errorBackpropRequestWeights, Code.done]
  | .errorBackpropRequestWeights => [Code.errorBackpropWaitForWeights]
  | .errorBackpropWaitForWeights => [Code.errorBackpropDeltaWeightMul]
  | .errorBackpropDeltaWeightMul =>
    [Code.errorBackpropWeightWb, Code.errorBackpropDeltaWeightMul]
  | .errorBackpropWeightWb => [Code.errorBackpropRequestWeights, Code.unallocated, Code.done]
  | .requestOutputsErrorBackprop => [Code.waitForOutputsErrorBackprop]
  | .waitForOutputsErrorBackprop => [Code.requestDeltaWeightProductErrorBackprop]
  | .requestDeltaWeightProductErrorBackprop => [Code.waitForDeltaWeightProductErrorBackprop]
  | .waitForDeltaWeightProductErrorBackprop => [Code.computeDerivative]
  | .done => [Code.unallocated]
  | .runUpdateSlope => [Code.slopeWb, Code.runUpdateSlope]
  | .slopeWb => [Code.unallocated, Code.requestInputsAndWeights]
  | .weightUpdateRequestDelta => [Code.weightUpdateWaitForDelta]
  | .weightUpdateWaitForDelta => [Code.requestInputsAndWeights]
  | .runWeightUpdate => [Code.weightUpdateWriteBack, Code.runWeightUpdate]
  | .weightUpdateWriteBack => [Code.weightUpdateWriteBias, Code.requestInputsAndWeights]
  | .weightUpdateWriteBias => [Code.unallocated]
  | _ => []

/-- A branch between two entered states enters one of them. -/
theorem ite_state_mem {p : Prop} [Decidable p] {k₁ k₂ : StateCode} {l : List StateCode}
    (h₁ : k₁ ∈ l) (h₂ : k₂ ∈ l) : (if p then k₁ else k₂) ∈ l := by
  split_ifs
  · exact h₁
  · exact h₂

/-- Outside ERROR an advance enters a successor of the state. -/
theorem ruleOf_state_mem {c : Params} {i : Instr} {code : StateCode}
    (hi : encode c i = .peState code) (he : isErrorState code = false) (x : PeCtx) (pe : Pe) :
    (ruleOf i x pe).state ∈ successors code := by
  cases i with
  | rd | wrE | wrB | wrA | illegalWtype3 => simp [encode, encodeBank] at hi
  | error | reservedState31 =>
    obtain rfl := MachineWord.peState.inj hi
    exact absurd he (by decide)
  | waitForInfo =>
    obtain rfl := MachineWord.peState.inj hi
    simp only [ruleOf, ruleWaitForInfo]
    split_ifs
    · exact show Code.requestInputsAndWeights ∈ _ by decide
    · exact show Code.requestOutputsErrorBackprop ∈ _ by decide
    · exact show Code.weightUpdateRequestDelta ∈ _ by decide
    · exact show Code.error ∈ _ by decide
  | requestInputsAndWeights =>
    obtain rfl := MachineWord.peState.inj hi
    simp only [ruleOf, ruleRequestInputsAndWeights]
    split
    · exact show Code.waitForInputsAndWeights ∈ _ by decide
    · exact show Code.waitForInputsAndWeights ∈ _ by decide
  | waitForInputsAndWeights =>
    obtain rfl := MachineWord.peState.inj hi
    simp only [ruleOf, ruleWaitForInputsAndWeights]
    split_ifs
    · exact show Code.run ∈ _ by decide
    · exact show Code.runUpdateSlope ∈ _ by decide
    · exact show Code.runUpdateSlope ∈ _ by decide
    · exact show Code.runWeightUpdate ∈ _ by decide
    · exact show Code.runWeightUpdate ∈ _ by decide
    · exact show Code.error ∈ _ by decide
  | computeDelta =>
    obtain rfl := MachineWord.peState.inj hi
    simp only [ruleOf, ruleComputeDelta]
    split
    · exact ite_state_mem (by decide) (by decide)
    · exact show Code.deltaWriteBack ∈ _ by decide
  | run | errorBackpropWeightWb =>
    obtain rfl := MachineWord.peState.inj hi
    exact ite_state_mem (by decide) (ite_state_mem (by decide) (by decide))
  | deltaWriteBack =>
    obtain rfl := MachineWord.peState.inj hi
    exact ite_state_mem (by decide)
      (ite_state_mem (by decide) (ite_state_mem (by decide) (by decide)))
  | activationFunction | computeDerivative | errorBackpropDeltaWeightMul | runUpdateSlope | slopeWb
  | runWeightUpdate | weightUpdateWriteBack =>
    obtain rfl := MachineWord.peState.inj hi
    exact ite_state_mem (by decide) (by decide)
  | _ =>
    obtain rfl := MachineWord.peState.inj hi
    exact List.mem_singleton_self _

/-- Only the two states that read `stateLearn` lead to ERROR, and none to code 31 (R182). -/
theorem errorState_entered : ∀ code : StateCode, ∀ next ∈ successors code,
    isErrorState next = true → code ∈ [Code.waitForInfo, Code.waitForInputsAndWeights] := by
  decide

/-- The states after the bias load are entered from its state, or from one another. -/
theorem afterBias_entered : ∀ code : StateCode, ∀ next ∈ successors code, next ∈ afterBias →
    code = Code.requestInputsAndWeights ∨ code ∈ afterBias := by
  decide

/-- The states with a weight to process are entered from one another, from the two states that clear
the index, and from the three write-backs. -/
theorem beforeWeight_entered : ∀ code : StateCode, ∀ next ∈ successors code, next ∈ beforeWeight →
    code ∈ beforeWeight ∨ code ∈ [Code.getInfo, Code.computeDelta, Code.errorBackpropWeightWb,
      Code.slopeWb, Code.weightUpdateWriteBack] := by
  decide

/-! ## The bias and the fault record (R24, R273) -/

theorem biasOk_iff {pe : Pe} :
    pe.biasOk = true ↔ (pe.state ∈ afterBias → pe.hasBias = true) := by
  simp [Pe.biasOk, imp_iff_not_or]

theorem errorOk_iff {pe : Pe} : pe.errorOk = true ↔ isErrorState pe.state = pe.peFault.isSome := by
  simp [Pe.errorOk]

section rules
variable {x : PeCtx} {pe : Pe}

/-- The advance that leads to the states after the bias load has the bias loaded (R179). -/
theorem ruleRequestInputsAndWeights_hasBias :
    (ruleRequestInputsAndWeights x pe).hasBias = true := by
  unfold ruleRequestInputsAndWeights
  split
  · assumption
  · rfl

/-- An advance has the bias loaded where it is needed: the state before loads it, or needs it as well
and does not write `hasBias`. -/
theorem ruleOf_biasOk (he : isErrorState pe.state = false) (h : pe.biasOk = true) :
    (ruleOf (decodeState pe.state) x pe).biasOk = true := by
  have hi := encode_decodeState x.params pe.state
  rw [biasOk_iff] at h ⊢
  intro hs
  obtain hload | hneeds := afterBias_entered _ _ (ruleOf_state_mem hi he x pe) hs
  · rw [hload]
    exact ruleRequestInputsAndWeights_hasBias
  · have hkeeps : ∀ code ∈ afterBias, code ∉ ([0, 3] : List StateCode) := by decide
    have hsame := mt (ruleOf_keepsToWriters hi x pe).hasBias (hkeeps _ hneeds)
    exact (not_not.mp hsame).trans (h hneeds)

/-- A transition to a named state, with no fault recorded before or after. -/
theorem withState_errorOk (hf : pe.peFault = none) {next : StateCode}
    (hn : isErrorState next = false) : ({ pe with state := next } : Pe).errorOk = true :=
  errorOk_iff.mpr (by simp [hn, hf])

/-- Selecting ERROR records the fault (R273). -/
theorem enterError_errorOk (k : StateCode) : (enterError k x pe).errorOk = true :=
  errorOk_iff.mpr (by simp [enterError, isErrorState])

theorem ruleWaitForInfo_errorOk (hf : pe.peFault = none) :
    (ruleWaitForInfo x pe).errorOk = true := by
  simp only [ruleWaitForInfo]
  split_ifs
  · exact withState_errorOk hf (by decide)
  · exact withState_errorOk hf (by decide)
  · exact withState_errorOk hf (by decide)
  · exact enterError_errorOk _

theorem ruleWaitForInputsAndWeights_errorOk (hf : pe.peFault = none) :
    (ruleWaitForInputsAndWeights x pe).errorOk = true := by
  simp only [ruleWaitForInputsAndWeights]
  split_ifs
  · exact withState_errorOk hf (by decide)
  · exact withState_errorOk hf (by decide)
  · exact withState_errorOk hf (by decide)
  · exact withState_errorOk hf (by decide)
  · exact withState_errorOk hf (by decide)
  · exact enterError_errorOk _

/-- An advance records a fault exactly where it selects ERROR: in the two states that may, by their
rules; elsewhere neither ERROR is entered nor a fault recorded. -/
theorem ruleOf_errorOk (he : isErrorState pe.state = false) (h : pe.errorOk = true) :
    (ruleOf (decodeState pe.state) x pe).errorOk = true := by
  have hi := encode_decodeState x.params pe.state
  have hf : pe.peFault = none := by simpa [he] using errorOk_iff.mp h
  by_cases hs : pe.state ∈ [Code.waitForInfo, Code.waitForInputsAndWeights]
  · obtain hs | hs := List.mem_pair.mp hs
    · rw [hs]
      exact ruleWaitForInfo_errorOk hf
    · rw [hs]
      exact ruleWaitForInputsAndWeights_errorOk hf
  · have hstate : isErrorState (ruleOf (decodeState pe.state) x pe).state = false :=
      Bool.eq_false_iff.mpr (mt (errorState_entered _ _ (ruleOf_state_mem hi he x pe)) hs)
    have hwriters : ∀ code : StateCode, code ∈ ([2, 4, 30, 31] : List StateCode) →
        code ∈ [Code.waitForInfo, Code.waitForInputsAndWeights] ∨ isErrorState code = true := by
      decide
    have hfault : (ruleOf (decodeState pe.state) x pe).peFault = pe.peFault := by
      by_contra hne
      simpa [hs, he] using hwriters _ ((ruleOf_keepsToWriters hi x pe).peFault hne)
    exact errorOk_iff.mpr (by rw [hstate, hfault, hf]; rfl)

end rules

/-- A PE's turn keeps the bias and the fault record: an advance by its rule, a hold because it writes
neither, a cycle in ERROR because it records the fault. -/
theorem peTurn_biasOk_errorOk (s : State) (n : Nat) (pe u : Pe) (hturn : PeTurn s n pe u)
    (h : pe.biasOk = true ∧ pe.errorOk = true) : u.biasOk = true ∧ u.errorOk = true := by
  obtain ⟨hbias, herror⟩ := h
  cases hturn with
  | advance hb ha =>
    have he := not_isErrorState_of_advances ha
    exact ⟨ruleOf_biasOk (x := s.peCtx n) he hbias, ruleOf_errorOk (x := s.peCtx n) he herror⟩
  | hold => exact ⟨hbias, herror⟩
  | inError he => exact ⟨hbias, errorOk_iff.mpr (he.trans (recordFault_isSome _ _).symm)⟩

theorem pe_reset_biasOk_errorOk (c : Params) (run n : Nat) :
    (Pe.reset c run n).biasOk = true ∧ (Pe.reset c run n).errorOk = true :=
  ⟨rfl, rfl⟩

/-- Settles O58, by what a PE's turn keeps. -/
theorem stepKeepsBiasAndErrorRecords : Obligations.StepKeepsBiasAndErrorRecords :=
  fun _ _ hs h => step_keeps_pes pe_reset_biasOk_errorOk peTurn_biasOk_errorOk hs h

/-! ## The index (R23) -/

/-- The range of `index` in state `code` of an allocation of `nw` weights (R23). In UNALLOCATED and
GET_INFO it is still the last allocation's (R177). -/
structure IndexWithin (nw : BitVec 8) (code : StateCode) (index : BitVec 8) : Prop where
  le : code ∉ [Code.unallocated, Code.getInfo] → index.toNat ≤ nw.toNat
  lt : code ∈ beforeWeight → index.toNat < nw.toNat

theorem indexOk_none {pe : Pe} (h : pe.alloc = none) :
    pe.indexOk = true ↔ pe.state = Code.unallocated := by
  simp [Pe.indexOk, h]

theorem indexOk_some {pe : Pe} {ss : SemiStatic} (h : pe.alloc = some ss) :
    pe.indexOk = true ↔ pe.state ≠ Code.unallocated ∧ ss.numWeights ≠ 0 ∧
      IndexWithin ss.numWeights pe.state pe.index := by
  have hwithin : IndexWithin ss.numWeights pe.state pe.index ↔
      (pe.state ∉ [Code.unallocated, Code.getInfo] → pe.index.toNat ≤ ss.numWeights.toNat) ∧
        (pe.state ∈ beforeWeight → pe.index.toNat < ss.numWeights.toNat) :=
    ⟨fun ⟨h1, h2⟩ => ⟨h1, h2⟩, fun ⟨h1, h2⟩ => ⟨h1, h2⟩⟩
  rw [hwithin]
  simp only [Pe.indexOk, h, Bool.and_eq_true, Bool.or_eq_true, Bool.not_eq_true',
    beq_eq_false_iff_ne, beq_iff_eq, decide_eq_true_eq, List.contains_eq_mem,
    decide_eq_false_iff_not, List.mem_pair, not_or]
  tauto

section within
variable {nw : BitVec 8} {code : StateCode} {index : BitVec 8}

/-- Where `index` is still the last allocation's, any value is within range. -/
theorem indexWithin_stale (h : code ∈ [Code.unallocated, Code.getInfo]) :
    IndexWithin nw code index :=
  have hnot : ∀ code ∈ [Code.unallocated, Code.getInfo], code ∉ beforeWeight := by decide
  ⟨fun hm => absurd h hm, fun hm => absurd hm (hnot code h)⟩

/-- An index below the number of weights is within range in every state. -/
theorem indexWithin_of_lt (h : index.toNat < nw.toNat) : IndexWithin nw code index :=
  ⟨fun _ => h.le, fun _ => h⟩

/-- An index up to the number of weights is within range where no weight is to be processed. -/
theorem indexWithin_of_le (h : index.toNat ≤ nw.toNat) (hc : code ∉ beforeWeight) :
    IndexWithin nw code index :=
  ⟨fun _ => h, fun hm => absurd hm hc⟩

/-- A cleared index is within range (R177, R215). -/
theorem indexWithin_zero (h : nw ≠ 0) : IndexWithin nw code 0 :=
  indexWithin_of_lt (by bv_omega)

/-- An index that stops at the last weight is within range after its increment (R232, R250, R254),
provided that the state after the last weight has none to process. -/
theorem indexWithin_succ (h : index.toNat < nw.toNat)
    (hlast : index.toNat + 1 = nw.toNat → code ∉ beforeWeight) :
    IndexWithin nw code (index + 1) := by
  have hsucc : (index + 1).toNat = index.toNat + 1 := by bv_omega
  obtain heq | hlt : index.toNat + 1 = nw.toNat ∨ index.toNat + 1 < nw.toNat := by omega
  · exact indexWithin_of_le (by omega) (hlast heq)
  · exact indexWithin_of_lt (by omega)

end within

section rules
variable {x : PeCtx} {pe : Pe}

theorem lastWeight_iff {r : Request} :
    lastWeight r pe = true ↔ pe.index.toNat + 1 = r.numWeights.toNat := by
  simp [lastWeight]

theorem allWeights_iff {r : Request} : allWeights r pe = true ↔ pe.index = r.numWeights := by
  simp [allWeights]

/-- After a write-back, a state with a weight to process is entered only where weights are left
(R233, R251, R255). -/
theorem indexWithin_writeBack {finished more : StateCode}
    (h : pe.index.toNat ≤ x.req.numWeights.toNat) (hfin : finished ∉ beforeWeight) :
    IndexWithin x.req.numWeights (if allWeights x.req pe then finished else more) pe.index := by
  split
  · exact indexWithin_of_le h hfin
  · rename_i hall
    have hne : pe.index ≠ x.req.numWeights := mt allWeights_iff.mpr hall
    exact indexWithin_of_lt (by bv_omega)

/-- A weight's advance goes on to a state with a weight to process only where one is left (R232, R250,
R254). -/
theorem indexWithin_weight {written again : StateCode}
    (h : pe.index.toNat < x.req.numWeights.toNat) (hw : written ∉ beforeWeight) :
    IndexWithin x.req.numWeights (if exhausted x.params x.req pe then written else again)
      (pe.index + 1) :=
  indexWithin_succ h fun hlast => by
    rwa [if_pos (by simp [exhausted, lastWeight_iff.mpr hlast])]

theorem ruleOf_index {c : Params} {i : Instr} {code : StateCode} (hi : encode c i = .peState code)
    (hw : code ∉ ([1, 5, 12, 16, 23, 27] : List StateCode)) : (ruleOf i x pe).index = pe.index :=
  not_not.mp (mt (ruleOf_keepsToWriters hi x pe).index hw)

/-- Every rule keeps the index within range, by what it does to the index: it clears it, processes a
weight, branches on whether weights are left, or leaves it alone. -/
theorem ruleOf_indexWithin {c : Params} {i : Instr} {code : StateCode}
    (hi : encode c i = .peState code) (he : isErrorState code = false)
    (hnw : x.req.numWeights ≠ 0) (h : IndexWithin x.req.numWeights code pe.index) :
    IndexWithin x.req.numWeights (ruleOf i x pe).state (ruleOf i x pe).index := by
  have hnext := ruleOf_state_mem hi he x pe
  cases i with
  | rd | wrE | wrB | wrA | illegalWtype3 => simp [encode, encodeBank] at hi
  | error | reservedState31 =>
    obtain rfl := MachineWord.peState.inj hi
    exact absurd he (by decide)
  | unallocated => exact indexWithin_stale (show Code.getInfo ∈ _ by decide)
  | getInfo => exact indexWithin_zero hnw
  | computeDelta =>
    simp only [ruleOf, ruleComputeDelta]
    split
    · exact indexWithin_zero hnw
    · exact indexWithin_zero hnw
  | run =>
    obtain rfl := MachineWord.peState.inj hi
    refine indexWithin_succ (h.lt (by decide)) fun hlast => ?_
    simp only [ruleOf, ruleRun, lastWeight_iff.mpr hlast, if_true]
    decide
  | errorBackpropDeltaWeightMul | runUpdateSlope | runWeightUpdate =>
    obtain rfl := MachineWord.peState.inj hi
    exact indexWithin_weight (h.lt (by decide)) (by decide)
  | slopeWb | weightUpdateWriteBack =>
    obtain rfl := MachineWord.peState.inj hi
    exact indexWithin_writeBack (h.le (by decide)) (by decide)
  | errorBackpropWeightWb =>
    obtain rfl := MachineWord.peState.inj hi
    simp only [ruleOf, ruleErrorBackpropWeightWb, Bool.not_eq_true', ← Bool.not_eq_true, ite_not]
    exact indexWithin_writeBack (h.le (by decide)) (by split_ifs <;> decide)
  | waitForInfo | requestInputsAndWeights | waitForInputsAndWeights | deltaWriteBack
  | errorBackpropRequestWeights | errorBackpropWaitForWeights | weightUpdateRequestDelta
  | weightUpdateWaitForDelta =>
    obtain rfl := MachineWord.peState.inj hi
    rw [ruleOf_index hi (by decide)]
    exact indexWithin_of_lt (h.lt (by decide))
  | _ =>
    obtain rfl := MachineWord.peState.inj hi
    rw [ruleOf_index hi (by decide)]
    exact indexWithin_of_le (h.le (by decide))
      fun hm => absurd (beforeWeight_entered _ _ hnext hm) (by decide)

end rules

/-! ## The open allocation (R302) -/

/-- An advance that breaks no duty has a request with at least one weight, the one with which the
allocation began (R280, R302). -/
theorem advance_request {c : Params} {code : StateCode} {pe : Pe} {inp : PeInput}
    (hb : peBreach c code pe inp = none) (ha : advances code inp = true) :
    inp.req.numWeights ≠ 0 ∧ ∀ ss, pe.alloc = some ss → semiStatic inp.req = ss := by
  obtain ⟨-, -, hstable, -, hnw, -⟩ := peBreach_none.mp hb
  refine ⟨hnw ha, fun ss hss => ?_⟩
  have hvalid : inp.reqValid = true := (Bool.and_eq_true_iff.mp ha).1
  simpa [semiStaticBroken, hss, hvalid] using hstable

/-- Outside UNALLOCATED the allocation after an advance is the request's: it begins with it, or
it began with the same fields. -/
theorem nextAlloc_open {code next : StateCode} {r : Request} {old : Option SemiStatic}
    (hnext : next ≠ Code.unallocated) (hnone : old = none → code = Code.unallocated)
    (hsame : ∀ ss, old = some ss → semiStatic r = ss) :
    nextAlloc code next r old = some (semiStatic r) := by
  cases old with
  | none => simp [nextAlloc, hnext, hnone rfl]
  | some ss => simp [nextAlloc, hnext, hsame ss rfl]

theorem nextAlloc_closed (code : StateCode) (r : Request) (old : Option SemiStatic) :
    nextAlloc code Code.unallocated r old = none := rfl

/-- A PE that meets the invariant and advances has its index within the weights of the request. -/
theorem indexWithin_of_indexOk {pe : Pe} {r : Request} (h : pe.indexOk = true)
    (hsame : ∀ ss, pe.alloc = some ss → semiStatic r = ss) :
    IndexWithin r.numWeights pe.state pe.index := by
  cases halloc : pe.alloc with
  | none =>
    rw [(indexOk_none halloc).mp h]
    exact indexWithin_stale (by decide)
  | some ss =>
    obtain ⟨-, -, hwithin⟩ := (indexOk_some halloc).mp h
    rwa [← hsame ss halloc] at hwithin

/-- An advance keeps the index within the open allocation. -/
theorem advancePe_indexOk {s : State} {n : Nat} {pe : Pe}
    (hb : peBreach s.params pe.state pe (s.peInput n) = none)
    (ha : advances pe.state (s.peInput n) = true) (h : pe.indexOk = true) :
    (advancePe pe.state (ruleOf (decodeState pe.state)) (s.peCtx n) (s.peInput n) pe).indexOk =
      true := by
  obtain ⟨hnw, hsame⟩ := advance_request hb ha
  have hwithin := ruleOf_indexWithin (x := s.peCtx n) (encode_decodeState s.params pe.state)
    (not_isErrorState_of_advances ha) hnw (indexWithin_of_indexOk h hsame)
  by_cases hnext : (ruleOf (decodeState pe.state) (s.peCtx n) pe).state = Code.unallocated
  · refine (indexOk_none ?_).mpr hnext
    simp only [advancePe, hnext, nextAlloc_closed]
  · have hnone (hn : pe.alloc = none) : pe.state = Code.unallocated := (indexOk_none hn).mp h
    exact (indexOk_some (nextAlloc_open hnext hnone hsame)).mpr ⟨hnext, hnw, hwithin⟩

/-- A PE's turn keeps the index within the open allocation: on a hold and in ERROR it writes neither
the index nor the allocation nor the state. -/
theorem peTurn_indexOk (s : State) (n : Nat) (pe u : Pe) (hturn : PeTurn s n pe u)
    (h : pe.indexOk = true) : u.indexOk = true := by
  cases hturn with
  | advance hb ha => exact advancePe_indexOk hb ha h
  | hold => exact h
  | inError => exact h

theorem pe_reset_indexOk (c : Params) (run n : Nat) : (Pe.reset c run n).indexOk = true := rfl

/-- Settles O57, by what a PE's turn keeps. -/
theorem stepKeepsIndexInRange : Obligations.StepKeepsIndexInRange :=
  fun _ _ hs h => step_keeps_pes pe_reset_indexOk peTurn_indexOk hs h

/-! ## Reset (R42, R300) -/

/-- Settles O54: each agent is its reset value. -/
theorem resetValues : Obligations.ResetValues := by
  intro c run
  refine ⟨by simp [State.resetOf], by simp [State.resetOf], fun pe hpe => ?_, fun q hq => ?_, rfl,
    rfl⟩
  · obtain ⟨n, -, rfl⟩ := List.mem_map.mp hpe
    exact ⟨rfl, rfl, rfl, rfl, rfl, rfl⟩
  · obtain ⟨p, -, rfl⟩ := List.mem_map.mp hq
    exact ⟨rfl, rfl⟩

/-- Settles O59, from the reset values of a PE and of the state. -/
theorem resetMeetsTheInvariants : Obligations.ResetMeetsTheInvariants := by
  intro c run hc
  refine ⟨state_wf_iff.mpr (resetOf_inFormat hc run), fun pe hpe => ?_⟩
  obtain ⟨n, -, rfl⟩ := List.mem_map.mp hpe
  exact ⟨pe_reset_indexOk c run n, pe_reset_biasOk_errorOk c run n⟩

end Sys2Proof.Machine
end

section
/-! SUPPORT. A port's cycle on its architectural contents and on its storage (R68, R69, R75): a write
takes effect once and in order, and nothing but the pending block is stored. -/

namespace Sys2Proof.Machine

section tick
variable {c : Params} {q : Port} {r : Nat} {w : Option WriteCmd} {wc : WriteCmd}

/-! ## What a cycle makes of the pending block (R145, R146) -/

theorem sameBlock_iff {pd : Pending} :
    sameBlock pd wc = true ↔ pd.valid = true ∧ pd.addrHi = wc.waddrHi := by
  rw [sameBlock, Bool.and_eq_true, beq_iff_eq, eq_comm (a := wc.waddrHi)]

theorem arch_eq (c : Params) (q : Port) (x : Nat) :
    q.arch c x = if q.pend.valid = true ∧ x = q.pend.addrHi then comb c q none
      else q.readBlock c x := by
  have heq : (q.pend.valid && q.pend.addrHi == x) = true ↔
      q.pend.valid = true ∧ x = q.pend.addrHi := by
    rw [Bool.and_eq_true, beq_iff_eq, eq_comm (a := x)]
  simp only [Port.arch, heq]
  split
  · rename_i h
    rw [h.2]
    rfl
  · rfl

theorem arch_of_not_valid (h : q.pend.valid = false) (x : Nat) :
    q.arch c x = q.readBlock c x := by
  rw [arch_eq, if_neg (by simp [h])]

theorem comb_of_forwards (h : forwards q.pend wc = true) :
    comb c q (some wc) = foldWrite c wc (comb c q none) := if_pos h

theorem comb_of_not_forwards (h : forwards q.pend wc = false) :
    comb c q (some wc) = comb c q none := if_neg (by simp [h])

theorem length_comb (hp : q.pend.fits c = true) (hw : ∀ wc ∈ w, wc.dinBlock.length = c.epb) :
    (comb c q w).length = c.epb := by
  obtain ⟨-, hblock, -⟩ := pending_fits_iff.mp hp
  have hrmw : (comb c q none).length = c.epb :=
    length_rmw (fitsBlock_iff.mp hblock).1 (length_readBlock c q _)
  cases w with
  | none => exact hrmw
  | some wc =>
    cases hf : forwards q.pend wc with
    | true => exact comb_of_forwards hf ▸ length_foldWrite (hw wc rfl) hrmw
    | false => exact comb_of_not_forwards hf ▸ hrmw

/-! ## The storage after a tick (R148) -/

/-- A cycle that folds no write in stores what the pending entry alone makes: the storage becomes the
architectural contents. -/
theorem readBlock_tick_eq_arch (hp : q.pend.fits c = true) (hcomb : comb c q w = comb c q none)
    (x : Nat) : (q.tick c r w).readBlock c x = q.arch c x := by
  have hlen : (comb c q w).length = c.epb := hcomb ▸ length_comb hp (by simp)
  rw [readBlock_tick hlen, hcomb, arch_eq]

theorem readBlock_getElem? (c : Params) (q : Port) (hi : Nat) {j : Nat} (hj : j < c.epb) :
    (q.readBlock c hi)[j]? = some (q.readElem c (elemAddr c hi j)) := by
  simp [Port.readBlock, hj]

/-- A tick stores no element outside the pending block. -/
theorem readElem_tick_of_not_pending (hlen : (comb c q w).length = c.epb) {hi j : Nat}
    (hj : j < c.epb) (h : ¬(q.pend.valid = true ∧ hi = q.pend.addrHi)) :
    (q.tick c r w).readElem c (elemAddr c hi j) = q.readElem c (elemAddr c hi j) := by
  have hblock : (q.tick c r w).readBlock c hi = q.readBlock c hi := by
    rw [readBlock_tick hlen, if_neg h]
  have helem := congrArg (·[j]?) hblock
  simpa only [readBlock_getElem? _ _ _ hj, Option.some.injEq] using helem

/-! ## The architectural contents and the read data after a tick (R69) -/

/-- The pending entry that a deferred write leaves makes of a block what the write means (R149). -/
theorem rmw_nextPending (h : forwards q.pend wc = false) (t : Block) :
    rmw c (nextPending q.pend (some wc)) t = foldWrite c wc t := by
  simp only [nextPending, h]
  rfl

theorem arch_tick_none (hp : q.pend.fits c = true) (x : Nat) :
    (q.tick c r none).arch c x = q.arch c x := by
  rw [arch_of_not_valid rfl, readBlock_tick_eq_arch hp rfl]

theorem dout_tick_eq_arch (hcomb : comb c q w = comb c q none) :
    (q.tick c r w).dout = q.arch c r := by
  simp only [tick_dout, arch_eq, hcomb, Bool.and_eq_true, beq_iff_eq]

/-- A deferred write reads from the pending entry, over a storage that is the architectural
contents. -/
theorem arch_tick_of_deferred (hp : q.pend.fits c = true) (hf : forwards q.pend wc = false)
    (x : Nat) :
    (q.tick c r (some wc)).arch c x =
      if x = wc.waddrHi then foldWrite c wc (q.arch c x) else q.arch c x := by
  have hread := readBlock_tick_eq_arch (r := r) hp (comb_of_not_forwards hf) x
  have hentry : ((nextPending q.pend (some wc)).valid &&
      (nextPending q.pend (some wc)).addrHi == x) = true ↔ x = wc.waddrHi := by
    simp [nextPending, hf, eq_comm (a := x)]
  simp only [Port.arch, tick_pend, hentry, rmw_nextPending hf, hread]

/-- A forwarded write is in the storage after its own cycle, and nothing is pending. -/
theorem arch_tick_of_forwarded (hp : q.pend.fits c = true) (hlen : wc.dinBlock.length = c.epb)
    (hf : forwards q.pend wc = true) (hs : q.pend.valid = true ∧ q.pend.addrHi = wc.waddrHi)
    (x : Nat) :
    (q.tick c r (some wc)).arch c x =
      if x = wc.waddrHi then foldWrite c wc (q.arch c x) else q.arch c x := by
  obtain ⟨hv, hhi⟩ := hs
  have hempty : (q.tick c r (some wc)).pend.valid = false := by simp [nextPending, hf]
  rw [arch_of_not_valid hempty, readBlock_tick (length_comb hp (by simpa using hlen)),
    comb_of_forwards hf, arch_eq]
  simp only [hv, hhi, true_and]
  split_ifs
  · rfl
  · rfl

/-- A write that raises no violation takes effect on the architectural contents, once, by its
meaning. -/
theorem arch_tick_write (hp : q.pend.fits c = true) (hlen : wc.dinBlock.length = c.epb)
    (hf : forwards q.pend wc = sameBlock q.pend wc) (x : Nat) :
    (q.tick c r (some wc)).arch c x =
      if x = wc.waddrHi then foldWrite c wc (q.arch c x) else q.arch c x := by
  cases hs : sameBlock q.pend wc with
  | true => exact arch_tick_of_forwarded hp hlen (hf.trans hs) (sameBlock_iff.mp hs) x
  | false => exact arch_tick_of_deferred hp (hf.trans hs) x

/-- The read data are the architectural contents of the cycle's start, and of its end where the
write is forwarded to the block that is read. -/
theorem dout_tick_write (hp : q.pend.fits c = true) (hlen : wc.dinBlock.length = c.epb)
    (hf : forwards q.pend wc = sameBlock q.pend wc) :
    (q.tick c r (some wc)).dout =
      if q.pend.valid = true ∧ q.pend.addrHi = wc.waddrHi ∧ r = wc.waddrHi then
        (q.tick c r (some wc)).arch c r
      else q.arch c r := by
  cases hs : sameBlock q.pend wc with
  | true =>
    obtain ⟨hv, hhi⟩ := sameBlock_iff.mp hs
    rw [arch_tick_write hp hlen hf, tick_dout, comb_of_forwards (hf.trans hs), arch_eq]
    by_cases hr : r = wc.waddrHi
    · simp [hv, hhi, hr]
    · simp [hhi, hr]
  | false =>
    have hnot : ¬(q.pend.valid = true ∧ q.pend.addrHi = wc.waddrHi ∧ r = wc.waddrHi) :=
      fun ⟨hv, hhi, _⟩ => by simp [sameBlock_iff.mpr ⟨hv, hhi⟩] at hs
    rw [if_neg hnot, dout_tick_eq_arch (comb_of_not_forwards (hf.trans hs))]

end tick

/-! ## Commands that raise no violation -/

section commands
variable (s : State) (r hi lo : Nat) (e : Elem) (b : Block)

theorem exec_rd : exec (.rd r) s = bankCycle r none s := rfl

theorem exec_wrE :
    exec (.wrE r hi lo e b) s = bankCycle r (some ⟨0, hi, lo, e, b⟩) s := rfl

theorem exec_wrB :
    exec (.wrB r hi lo e b) s = bankCycle r (some ⟨1, hi, lo, e, b⟩) s := rfl

theorem exec_wrA :
    exec (.wrA r hi lo e b) s = bankCycle r (some ⟨2, hi, lo, e, b⟩) s := rfl

end commands

theorem bankCycle_read {s : State} {p r : Nat} {q : Port} (h : PortReady s p q)
    (hr : r < s.params.nb) :
    bankCycle r none s = .next (s.setPort p (q.tick s.params r none)) :=
  bankCycle_ticks h.active h.sound rfl (by simpa [outOfRange] using hr)

/-- A write of an existing block is taken, in order: the architectural contents become the old ones
with the write applied, and the read data are the old ones or, where the write is forwarded to them,
the new ones. -/
theorem bankCycle_write {s : State} {p r : Nat} {q : Port} {wc : WriteCmd} (h : PortReady s p q)
    (hr : r < s.params.nb) (hhi : wc.waddrHi < s.params.nb) (hlo : wc.waddrLo < s.params.epb)
    (hlen : wc.dinBlock.length = s.params.epb) (htype : wc.wType ≠ 3)
    (hsame : q.pend.valid = true ∧ q.pend.addrHi = wc.waddrHi → q.pend.wType = wc.wType) :
    ∃ u, bankCycle r (some wc) s = .next (s.setPort p u) ∧
      (∀ x, u.arch s.params x =
        if x = wc.waddrHi then foldWrite s.params wc (q.arch s.params x)
        else q.arch s.params x) ∧
      u.dout = if q.pend.valid = true ∧ q.pend.addrHi = wc.waddrHi ∧ r = wc.waddrHi then
          u.arch s.params r
        else q.arch s.params r := by
  have hv : violation p s.cycle q.pend wc = none :=
    violation_none.mpr ⟨htype, fun hs => (hsame (sameBlock_iff.mp hs)).symm⟩
  have hrange : outOfRange s.params r (some wc) = false := by simp [outOfRange, hr, hhi, hlo]
  have hf := forwards_of_noViolation hv
  exact ⟨_, bankCycle_ticks h.active h.sound hv hrange, arch_tick_write h.fits hlen hf,
    dout_tick_write h.fits hlen hf⟩

section foldWrite
variable (c : Params) (hi lo : Nat) (e : Elem) (b t : Block)

theorem foldWrite_element : foldWrite c ⟨0, hi, lo, e, b⟩ t = t.set lo e := rfl

theorem foldWrite_block : foldWrite c ⟨1, hi, lo, e, b⟩ t = b := rfl

theorem foldWrite_accumulate :
    foldWrite c ⟨2, hi, lo, e, b⟩ t = List.zipWith (fun y z => wrap c.w (y + z)) t b := by
  show addBlocks c.w b t = _
  rw [addBlocks, List.zipWith_comm]
  simp only [Int.add_comm]

end foldWrite

/-- Settles O43, by what a tick makes of the architectural contents and the meaning of each type of
write. -/
theorem writesApplyInOrder : Obligations.WritesApplyInOrder := by
  intro s p q r hi lo e b h _ hr hhi hlo hlen
  refine ⟨⟨_, (exec_rd s r).trans (bankCycle_read h hr), dout_tick_eq_arch rfl,
      arch_tick_none h.fits⟩,
    fun hsame => ?element, fun hsame => ?block, fun hsame => ?accumulate⟩
  case element =>
    simpa only [exec_wrE, foldWrite_element] using
      bankCycle_write (wc := ⟨0, hi, lo, e, b⟩) h hr hhi hlo hlen
        (show (0 : WType) ≠ 3 by decide) hsame
  case block =>
    simpa only [exec_wrB, foldWrite_block] using
      bankCycle_write (wc := ⟨1, hi, lo, e, b⟩) h hr hhi hlo hlen
        (show (1 : WType) ≠ 3 by decide) hsame
  case accumulate =>
    simpa only [exec_wrA, foldWrite_accumulate] using
      bankCycle_write (wc := ⟨2, hi, lo, e, b⟩) h hr hhi hlo hlen
        (show (2 : WType) ≠ 3 by decide) hsame

/-! ## The frame on storage (R60, R75) -/

/-- A PE action leaves every port as it is. -/
theorem exec_peState_ports {i : Instr} {c : Params} {code : StateCode} {s t : State}
    (he : encode c i = .peState code) (h : exec i s = .next t) : t.ports = s.ports := by
  obtain ⟨n, pe, u, -, rfl⟩ := exec_peState_setPe he h
  rfl

/-- A ready port that its command leaves without a fault has ticked. -/
theorem bankCycle_ticked {r p : Nat} {w : Option WriteCmd} {s t : State} {q u : Port}
    (hready : PortReady s p q) (h : bankCycle r w s = .next t) (hu : t.ports[p]? = some u)
    (hf : u.bankFault = none) : t = s.setPort p u ∧ u = q.tick s.params r w := by
  obtain ⟨-, hq⟩ := activePort_eq.mp hready.active
  obtain ⟨hlt, -⟩ := List.getElem?_eq_some_iff.mp hq
  obtain ⟨p', q', ha, hcases⟩ := bankCycle_next h
  obtain ⟨rfl, rfl⟩ := Prod.mk.inj (Option.some.inj (hready.active.symm.trans ha))
  have hset {v : Port} (ht : t = s.setPort p v) : v = u := by simpa [ht, hlt] using hu
  obtain ⟨hfault, -⟩ | ⟨-, f, -, ht⟩ | ⟨-, -, -, ht⟩ := hcases
  · simp [hready.sound] at hfault
  · have hrec : recordFault q.bankFault f = none := (congrArg Port.bankFault (hset ht)).trans hf
    simpa [hrec] using recordFault_isSome q.bankFault f
  · exact ⟨hset ht ▸ ht, (hset ht).symm⟩

/-- Settles O47: a PE action leaves the ports alone, and a bank command that ends without a fault is a
tick of its port. -/
theorem storageFrame : Obligations.StorageFrame := by
  refine ⟨fun i s t code he h p q hq => ?action, fun i s t p q u hready hwf h hu hf => ?command⟩
  case action => exact ⟨q, exec_peState_ports he h ▸ hq, fun _ => rfl⟩
  case command =>
    cases he : encode s.params i with
    | peState code =>
      have hports := exec_peState_ports he h
      obtain ⟨-, hq⟩ := activePort_eq.mp hready.active
      rw [hports, hq] at hu
      obtain rfl := Option.some.inj hu
      exact ⟨fun _ _ _ _ => rfl, fun _ _ => by rw [hports]⟩
    | bank bits =>
      obtain ⟨r, hr⟩ := exec_bank he
      obtain ⟨rfl, rfl⟩ := bankCycle_ticked hready ((hr s).symm.trans h) hu hf
      have hdata : ∀ wc ∈ writeOf i, wc.dinBlock.length = s.params.epb := fun wc hwc =>
        (fitsBlock_iff.mp (writeOf_fits hwf wc hwc).2).1
      exact ⟨fun _ _ hj hnot =>
          readElem_tick_of_not_pending (length_comb hready.fits hdata) hj hnot,
        fun p' hp => List.getElem?_set_ne hp.symm⟩

end Sys2Proof.Machine
end

section
/-! SUPPORT. What an agent becomes depends on itself, its inputs, the sizes and the cycle number alone
(R7, R70, R283). -/

namespace Sys2Proof.Machine

section transfer
variable {s₁ s₂ t₁ : State}

/-- It is one agent's turn. -/
theorem activePe_of_activePort {s : State} {a : Nat × Port} (h : s.activePort = some a) :
    s.activePe = none := by
  obtain ⟨hturn, -⟩ := activePort_eq.mp h
  simp [State.activePe, hturn]

theorem setPort_getElem? {s : State} {p : Nat} {q : Port} (h : s.activePort = some (p, q))
    (u : Port) : (s.setPort p u).ports[p]? = some u :=
  (activePort_eq.mp (activePort_setPort h)).2

theorem setPe_getElem? {s : State} {n : Nat} {pe : Pe} (h : s.activePe = some (n, pe))
    (u : Pe) : (s.setPe n u).pes[n]? = some u :=
  (activePe_eq.mp (activePe_setPe h)).2

/-! ## Ports -/

/-- A bank cycle makes of a port the same in each state in which it is active. -/
theorem bankCycle_transfer {r p : Nat} {w : Option WriteCmd} {q : Port}
    (hparams : s₁.params = s₂.params) (hcycle : s₁.cycle = s₂.cycle)
    (h₁ : s₁.activePort = some (p, q)) (h₂ : s₂.activePort = some (p, q))
    (h : bankCycle r w s₁ = .next t₁) :
    ∃ u, t₁ = s₁.setPort p u ∧ bankCycle r w s₂ = .next (s₂.setPort p u) := by
  obtain ⟨p', q', ha, hcases⟩ := bankCycle_next h
  obtain ⟨rfl, rfl⟩ := Prod.mk.inj (Option.some.inj (h₁.symm.trans ha))
  rw [hparams, hcycle] at hcases
  obtain ⟨hf, ht⟩ | ⟨hf, f, hv, ht⟩ | ⟨hf, hv, ho, ht⟩ := hcases
  · exact ⟨_, ht, bankCycle_faulted h₂ hf⟩
  · exact ⟨_, ht, bankCycle_violation h₂ hf hv⟩
  · exact ⟨_, ht, bankCycle_ticks h₂ hf hv ho⟩

/-! ## PEs -/

theorem peCycle_of_advances {code : StateCode} {rule : PeCtx → Pe → Pe} {s : State} {n : Nat}
    {pe : Pe} (h : s.activePe = some (n, pe))
    (hb : peBreach s.params code pe (s.peInput n) = none)
    (ha : advances code (s.peInput n) = true) :
    peCycle code rule s =
      .next (s.setPe n (advancePe code rule (s.peCtx n) (s.peInput n) pe)) := by
  simp [peCycle, h, hb, ha]

theorem peCycle_of_not_advances {code : StateCode} {rule : PeCtx → Pe → Pe} {s : State} {n : Nat}
    {pe : Pe} (h : s.activePe = some (n, pe))
    (hb : peBreach s.params code pe (s.peInput n) = none)
    (ha : advances code (s.peInput n) = false) :
    peCycle code rule s = .next (s.setPe n (holdPe s.params code (s.peInput n) pe)) := by
  simp [peCycle, h, hb, ha]

theorem errorCycle_active {code : StateCode} {s : State} {n : Nat} {pe : Pe}
    (h : s.activePe = some (n, pe)) :
    errorCycle code s = .next (s.setPe n { pe.raise (foundInError s n code) with
      out := peOutputs s.params code pe (s.peInput n) }) := by
  simp [errorCycle, h]

theorem peCtx_congr {n : Nat} (hparams : s₁.params = s₂.params) (hcycle : s₁.cycle = s₂.cycle)
    (hinput : s₁.peInput n = s₂.peInput n) : s₁.peCtx n = s₂.peCtx n := by
  simp only [State.peCtx, hparams, hcycle, hinput]

theorem foundInError_congr {n : Nat} (hcycle : s₁.cycle = s₂.cycle)
    (hinput : s₁.peInput n = s₂.peInput n) (code : StateCode) :
    foundInError s₁ n code = foundInError s₂ n code := by
  simp only [foundInError, hcycle, hinput]

section pe
variable {n : Nat} {pe : Pe} (hparams : s₁.params = s₂.params) (hcycle : s₁.cycle = s₂.cycle)
  (h₁ : s₁.activePe = some (n, pe)) (h₂ : s₂.activePe = some (n, pe))
  (hinput : s₁.peInput n = s₂.peInput n)
include hparams hcycle h₁ h₂ hinput

/-- A PE's cycle makes of it the same in each state in which it is active, with the same inputs. -/
theorem peCycle_transfer {code : StateCode} {rule : PeCtx → Pe → Pe}
    (h : peCycle code rule s₁ = .next t₁) :
    ∃ u, t₁ = s₁.setPe n u ∧ peCycle code rule s₂ = .next (s₂.setPe n u) := by
  obtain ⟨n', pe', ha, hb, hcases⟩ := peCycle_next h
  obtain ⟨rfl, rfl⟩ := Prod.mk.inj (Option.some.inj (h₁.symm.trans ha))
  rw [hparams, hinput] at hb
  rw [hparams, hinput, peCtx_congr hparams hcycle hinput] at hcases
  obtain ⟨hadv, ht⟩ | ⟨hadv, ht⟩ := hcases
  · exact ⟨_, ht, peCycle_of_advances h₂ hb hadv⟩
  · exact ⟨_, ht, peCycle_of_not_advances h₂ hb hadv⟩

theorem errorCycle_transfer {code : StateCode} (h : errorCycle code s₁ = .next t₁) :
    ∃ u, t₁ = s₁.setPe n u ∧ errorCycle code s₂ = .next (s₂.setPe n u) := by
  obtain ⟨n', pe', ha, ht⟩ := errorCycle_next h
  obtain ⟨rfl, rfl⟩ := Prod.mk.inj (Option.some.inj (h₁.symm.trans ha))
  rw [hparams, hinput, foundInError_congr hcycle hinput] at ht
  exact ⟨_, ht, errorCycle_active h₂⟩

end pe

/-! ## Instructions -/

/-- An instruction that runs on a port's turn is one cycle of the bank. -/
theorem exec_eq_bankCycle_of_activePort {i : Instr} {a : Nat × Port}
    (h : s₁.activePort = some a) (hi : exec i s₁ = .next t₁) :
    ∃ r, ∀ s, exec i s = bankCycle r (writeOf i) s := by
  cases he : encode s₁.params i with
  | bank bits => exact exec_bank he
  | peState code =>
    obtain ⟨n, pe, u, ha, -⟩ := exec_peState_setPe he hi
    simp [activePe_of_activePort h] at ha

/-- An instruction that runs on a PE's turn has a state code. -/
theorem encode_of_activePe {i : Instr} {a : Nat × Pe} (h : s₁.activePe = some a)
    (hi : exec i s₁ = .next t₁) : ∃ code, encode s₁.params i = .peState code := by
  cases he : encode s₁.params i with
  | peState code => exact ⟨code, rfl⟩
  | bank bits =>
    obtain ⟨p, q, u, ha, -⟩ := exec_bank_setPort he hi
    simp [activePe_of_activePort ha] at h

end transfer

/-- Settles O48, by the cycle of a port, of a PE outside ERROR and of a PE in ERROR. -/
theorem agentsDoNotInteract : Obligations.AgentsDoNotInteract := by
  refine ⟨fun s₁ s₂ t₁ p q i hparams hcycle h₁ h₂ h => ?port,
    fun s₁ s₂ t₁ n pe i hparams hcycle h₁ h₂ hinput h => ?pe⟩
  case port =>
    obtain ⟨r, hex⟩ := exec_eq_bankCycle_of_activePort h₁ h
    obtain ⟨u, rfl, hnext⟩ := bankCycle_transfer hparams hcycle h₁ h₂ ((hex s₁).symm.trans h)
    exact ⟨_, (hex s₂).trans hnext, by rw [setPort_getElem? h₁, setPort_getElem? h₂]⟩
  case pe =>
    suffices ∃ u, t₁ = s₁.setPe n u ∧ exec i s₂ = .next (s₂.setPe n u) by
      obtain ⟨u, rfl, hnext⟩ := this
      exact ⟨_, hnext, by rw [setPe_getElem? h₁, setPe_getElem? h₂]⟩
    obtain ⟨code, he⟩ := encode_of_activePe h₁ h
    obtain ⟨-, rule, hex⟩ | ⟨-, hex⟩ := exec_peState he
    · rw [hex] at h ⊢
      exact peCycle_transfer hparams hcycle h₁ h₂ hinput h
    · rw [hex] at h ⊢
      exact errorCycle_transfer hparams hcycle h₁ h₂ hinput h

end Sys2Proof.Machine
end

section
/-! SUPPORT. Packing and unpacking the other way round (R90): a number that its format admits is the
packing of the fields it holds; and a bank word that is no RD is the encoding of the write it names
(R91, R92). -/

namespace Sys2Proof

/-- A number without a bit above the format is the packing of the fields it holds. -/
theorem packFields_unpackFields {ks : List Nat} {n : Nat} (h : n < 2 ^ totalWidth ks) :
    packFields (ks.zip (unpackFields ks n)) = n := by
  induction ks generalizing n with
  | nil => simpa [totalWidth, packFields, unpackFields, eq_comm] using h
  | cons k ks ih =>
    have hrest : n / 2 ^ k < 2 ^ totalWidth ks :=
      Nat.div_lt_of_lt_mul (by rwa [← Nat.pow_add])
    simp only [unpackFields, List.zip_cons_cons, packFields]
    rw [ih hrest, Nat.mod_mod, Nat.mod_add_div]

/-- The bit pattern of the element that a `W`-bit pattern denotes is that pattern (R120). -/
theorem toBits_ofBits {w n : Nat} (h : n < 2 ^ w) : toBits w (ofBits w n) = n := by
  have hmod : ofBits w n % ((2 ^ w : Nat) : Int) = (n : Int) % ((2 ^ w : Nat) : Int) :=
    Int.bmod_emod
  rw [toBits, hmod, ← Int.natCast_mod, Int.toNat_natCast, Nat.mod_eq_of_lt h]

/-- A number of `epb` elements' bits is the packing of the block it holds (R62). -/
theorem packBlock_unpackBlock {w epb n : Nat} (h : n < 2 ^ (w * epb)) :
    packBlock w (unpackBlock w epb n) = n := by
  induction epb generalizing n with
  | zero =>
    calc packBlock w (unpackBlock w 0 n) = 0 := rfl
      _ = n := by simpa [eq_comm] using h
  | succ k ih =>
    have hrest : n / 2 ^ w < 2 ^ (w * k) :=
      Nat.div_lt_of_lt_mul (by rwa [← Nat.pow_add, Nat.add_comm])
    have hfirst : n % 2 ^ w < 2 ^ w := Nat.mod_lt _ (Nat.two_pow_pos w)
    calc packBlock w (unpackBlock w (k + 1) n)
        = toBits w (ofBits w (n % 2 ^ w)) % 2 ^ w
            + 2 ^ w * packBlock w (unpackBlock w k (n / 2 ^ w)) := rfl
      _ = n := by rw [toBits_ofBits hfirst, ih hrest, Nat.mod_mod, Nat.mod_add_div]

/-- A bank word that decodes is the packing of fields that fit their widths, and decodes to their
instruction. -/
theorem decodeBank_ok_packFields {c : Params} {bits : Nat} {i : Instr}
    (h : decodeBank c bits = .ok i) :
    ∃ we wt lo hi r e b, we < 2 ^ 1 ∧ wt < 2 ^ 2 ∧ e < 2 ^ c.w ∧ b < 2 ^ c.dw ∧
      i = bankInstr c we wt lo hi r e b ∧
      packFields [(1, we), (2, wt), (c.low, lo), (c.hiw, hi), (c.hiw, r), (c.w, e), (c.dw, b)]
        = bits := by
  have hmod (k m : Nat) : m % 2 ^ k < 2 ^ k := Nat.mod_lt _ (Nat.two_pow_pos k)
  by_cases hlt : bits < 2 ^ totalWidth (bankWidths c)
  · have hd := decodeBank_of_fields hlt rfl
    rw [h] at hd
    exact ⟨_, _, _, _, _, _, _, hmod 1 _, hmod 2 _, hmod c.w _, hmod c.dw _, Except.ok.inj hd,
      packFields_unpackFields hlt⟩
  · rw [decodeBank, if_pos (Nat.not_lt.mp hlt)] at h
    cases h

/-- Every write command is encoded with `we = 1` and its type (R91, R93). -/
theorem encode_writeInstr (c : Params) {wt : Nat} (hwt : wt < 2 ^ 2) (r hi lo : Nat) (e : Elem)
    (b : Block) : encode c (writeInstr wt r hi lo e b) = encodeBank c 1 wt r hi lo e b := by
  interval_cases wt <;> rfl

/-- A bank word that decodes to a write command is that command's encoding. -/
theorem encode_of_decodeBank {c : Params} {bits : Nat} {i : Instr} (h : decodeBank c bits = .ok i)
    (hrd : ∀ r, i ≠ .rd r) : encode c i = .bank bits := by
  obtain ⟨we, wt, lo, hi, r, e, b, hwe, hwt, he, hb, rfl, rfl⟩ := decodeBank_ok_packFields h
  have hwe1 : we = 1 := by
    have hne : we ≠ 0 := fun h0 => hrd r (if_pos h0)
    omega
  subst hwe1
  rw [bankInstr, if_neg Nat.one_ne_zero, encode_writeInstr c hwt, encodeBank, toBits_ofBits he,
    packBlock_unpackBlock hb]

/-- Settles O3: a bank word is the packing of its fields, a state code has one instruction. -/
theorem encodeOfDecode : Obligations.EncodeOfDecode := by
  intro c m i hc h hrd
  refine ⟨decode_wellFormed (one_le_w_of_ok hc) h, ?_⟩
  cases m with
  | bank bits => exact encode_of_decodeBank h hrd
  | peState code =>
    obtain rfl := Except.ok.inj h
    exact Machine.encode_decodeState c code

/-- Settles O1, by evaluating the decoder on each word. -/
theorem tableWordsDecode : Obligations.TableWordsDecode :=
  ⟨rfl, rfl, rfl, rfl, rfl, rfl, rfl, rfl, rfl, rfl, rfl, rfl, rfl, rfl⟩

end Sys2Proof
end

section
/-! SUPPORT. The packed records (R94, R95, R99, R101): each is read back from its packing. -/

namespace Sys2Proof

/-- Fields that fit their widths are read back whole (R90). -/
theorem unpackFields_packFields_of_fit {ks : List Nat} {fs : List (Nat × Nat)}
    (hks : ks = fs.map Prod.fst) (h : fs.Forall fun f => f.2 < 2 ^ f.1) :
    unpackFields ks (packFields fs) = fs.map Prod.snd := by
  rw [hks, unpackFields_packFields]
  exact List.map_congr_left fun f hf => Nat.mod_eq_of_lt (List.forall_iff_forall_mem.mp h f hf)

/-- A block that fits its format packs into `DW` bits. -/
theorem packBlock_lt_of_fitsBlock {c : Params} {b : Block} (hb : fitsBlock c b = true) :
    packBlock c.w b < 2 ^ c.dw :=
  packBlock_lt c (fitsBlock_iff.mp hb).1

theorem request_fits_iff {c : Params} {r : Request} :
    r.fits c = true ↔ r.decimalPoint < 2 ^ c.dpw ∧ r.steepness < 2 ^ c.sw ∧
      inRange c.w r.learningRate = true ∧ inRange c.w r.lambda = true ∧
      inRange c.w r.bias = true ∧ fitsBlock c r.iBlock = true ∧ fitsBlock c r.wBlock = true ∧
      inRange c.w r.learnReg = true ∧ inRange c.w r.dw_in = true := by
  simp [Request.fits, and_assoc]

theorem response_fits_iff {c : Params} {r : Response} :
    r.fits c = true ↔ inRange c.w r.data = true ∧ fitsBlock c r.dataBlock = true ∧
      inRange c.w r.error = true := by
  simp [Response.fits, and_assoc]

theorem afRequest_fits_iff {c : Params} {a : AfRequest} :
    a.fits c = true ↔ inRange c.w a.input = true ∧ a.decimal ≤ c.decMax ∧
      a.steepness < 2 ^ c.sw := by
  simp [AfRequest.fits, and_assoc]

/-- Every effective decimal point fits the unit request's decimal field (R101). -/
theorem lt_two_pow_decBits {c : Params} {d : Nat} (h : d ≤ c.decMax) : d < 2 ^ c.decBits :=
  (Nat.lt_succ_of_le h).trans_le (le_two_pow_clog2 _)

section unpack_pack
variable {c : Params} (hw : 1 ≤ c.w)
include hw

/-- A request in format is read back from its packing (R95). -/
theorem Request.unpack_pack {r : Request} (h : r.fits c = true) :
    Request.unpack c (r.pack c) = some r := by
  obtain ⟨hdp, hst, hlr, hla, hbias, hib, hwb, hle, hdw⟩ := request_fits_iff.mp h
  have hf : unpackFields (requestWidths c) (r.pack c) = _ :=
    unpackFields_packFields_of_fit rfl ⟨r.numWeights.isLt, r.index.isLt, hdp, hst,
      r.activationFunction.isLt, r.errorFunction.isLt, toBits_lt _ _, toBits_lt _ _, toBits_lt _ _,
      packBlock_lt_of_fitsBlock hib, packBlock_lt_of_fitsBlock hwb, toBits_lt _ _,
      r.stateLearn.isLt, boolBit_lt _, boolBit_lt _, toBits_lt _ _, boolBit_lt _⟩
  rw [Request.unpack, hf]
  simp only [List.map, BitVec.ofNat_toNat, BitVec.setWidth_eq, bitBool_boolBit,
    ofBits_toBits hw hlr, ofBits_toBits hw hla, ofBits_toBits hw hbias, ofBits_toBits hw hle,
    ofBits_toBits hw hdw, unpackBlock_packBlock hw hib, unpackBlock_packBlock hw hwb]

/-- A pending entry in format is read back from its packing (R94). -/
theorem Pending.unpack_pack {p : Pending} (h : p.fits c = true) :
    Pending.unpack c (p.pack c) = some p := by
  obtain ⟨he, hb, hhi, hlo⟩ := Machine.pending_fits_iff.mp h
  have hf : unpackFields (pendingWidths c) (p.pack c) = _ :=
    unpackFields_packFields_of_fit rfl ⟨boolBit_lt _, p.wType.isLt, hlo, hhi, toBits_lt _ _,
      packBlock_lt_of_fitsBlock hb⟩
  rw [Pending.unpack, hf]
  simp only [List.map, BitVec.ofNat_toNat, BitVec.setWidth_eq, bitBool_boolBit,
    ofBits_toBits hw he, unpackBlock_packBlock hw hb]

/-- A response in format is read back from its packing (R99). -/
theorem Response.unpack_pack {r : Response} (h : r.fits c = true) :
    Response.unpack c (r.pack c) = some r := by
  obtain ⟨hd, hb, he⟩ := response_fits_iff.mp h
  have hf : unpackFields (responseWidths c) (r.pack c) = _ :=
    unpackFields_packFields_of_fit rfl ⟨toBits_lt _ _, packBlock_lt_of_fitsBlock hb, r.state.isLt,
      r.index.isLt, toBits_lt _ _, boolBit_lt _⟩
  rw [Response.unpack, hf]
  simp only [List.map, BitVec.ofNat_toNat, BitVec.setWidth_eq, bitBool_boolBit,
    ofBits_toBits hw hd, ofBits_toBits hw he, unpackBlock_packBlock hw hb]

/-- A unit request in format is read back from its packing (R101). -/
theorem AfRequest.unpack_pack {a : AfRequest} (h : a.fits c = true) :
    AfRequest.unpack c (a.pack c) = some a := by
  obtain ⟨hi, hd, hs⟩ := afRequest_fits_iff.mp h
  have hf : unpackFields (afRequestWidths c) (a.pack c) = _ :=
    unpackFields_packFields_of_fit rfl ⟨toBits_lt _ _, lt_two_pow_decBits hd, hs,
      a.activationFunction.isLt, a.errorFunction.isLt, boolBit_lt _⟩
  rw [AfRequest.unpack, hf]
  simp only [List.map, BitVec.ofNat_toNat, BitVec.setWidth_eq, bitBool_boolBit,
    ofBits_toBits hw hi]

end unpack_pack

/-- Settles O4, by the round trip of the request and the bound on every packing. -/
theorem requestUnpacksItsPacking : Obligations.RequestUnpacksItsPacking :=
  fun _ _ hc hr => ⟨Request.unpack_pack (one_le_w_of_ok hc) hr, packFields_lt _⟩

/-- Settles O5, by the round trip of each record. -/
theorem recordsUnpackTheirPackings : Obligations.RecordsUnpackTheirPackings := fun _ hc =>
  have hw := one_le_w_of_ok hc
  ⟨fun _ => Pending.unpack_pack hw, fun _ => Response.unpack_pack hw,
    fun _ => AfRequest.unpack_pack hw⟩

end Sys2Proof
end

section
/-! The fixed-point helpers of 40_fixed_point_helpers.md: truncation is the choice of one
representative modulo `2^W`, the shift is the floor, and the laws of R126. -/

namespace Sys2Proof

/-- The uniqueness of R121: an integer in range is its own truncation, and truncation only sees the
residue modulo `2^W`. -/
theorem eq_wrap_of_dvd_sub {w : Nat} (hw : 1 ≤ w) {u v : Int} (hu : inRange w u = true)
    (h : ((2 ^ w : Nat) : Int) ∣ u - v) : u = wrap w v := by
  have hmod : u.bmod (2 ^ w) = v.bmod (2 ^ w) := Int.bmod_eq_bmod_iff_bmod_sub_eq_zero.mpr
    (Int.bmod_eq_zero_of_dvd h)
  exact (wrap_of_inRange hw hu).symm.trans hmod

theorem dvd_wrap_sub (w : Nat) (v : Int) : ((2 ^ w : Nat) : Int) ∣ wrap w v - v :=
  Int.dvd_bmod_sub_self

/-- Settles O6, by the range of a truncated value, its congruence and its uniqueness. -/
theorem wrapGivesTheCongruentElement : Obligations.WrapGivesTheCongruentElement := by
  intro w v hw
  have hw1 : 1 ≤ w := by omega
  obtain ⟨hlo, hhi⟩ := inRange_iff.mp (wrap_inRange hw1 v)
  refine ⟨by exact_mod_cast hlo, by exact_mod_cast hhi, by exact_mod_cast dvd_wrap_sub w v, ?_⟩
  intro u hulo huhi hdvd
  have hu : inRange w u = true := inRange_iff.mpr ⟨by exact_mod_cast hulo, by exact_mod_cast huhi⟩
  exact eq_wrap_of_dvd_sub hw1 hu (by exact_mod_cast hdvd)

/-- What a shift right drops is the remainder. -/
theorem sub_shr_mul_eq_emod (v : Int) (n : Nat) : v - shr v n * 2 ^ n = v % 2 ^ n := by
  rw [Int.emod_def, shr, mul_comm]
  norm_cast

/-- The part that a shift right drops is in `[0, 2^n)`. -/
theorem sub_shr_mul_bounds (v : Int) (n : Nat) :
    0 ≤ v - shr v n * 2 ^ n ∧ v - shr v n * 2 ^ n < 2 ^ n := by
  have hpos : (0 : Int) < 2 ^ n := by positivity
  rw [sub_shr_mul_eq_emod]
  exact ⟨Int.emod_nonneg v hpos.ne', Int.emod_lt_of_pos v hpos⟩

/-- Settles O7, by the bounds of the part dropped. -/
theorem shiftIsFloor : Obligations.ShiftIsFloor := by
  intro v n
  obtain ⟨hlo, hhi⟩ := sub_shr_mul_bounds v n
  exact ⟨by linarith, by linarith⟩

/-- The shift as the rational floor of R122. -/
theorem shr_eq_floor (v : Int) (n : Nat) : shr v n = ⌊(v : ℚ) / 2 ^ n⌋ := by
  rw [shr, ← Rat.floor_intCast_div_natCast]
  push_cast
  rfl

theorem shr_mul_two_pow (v : Int) (n : Nat) : shr (v * 2 ^ n) n = v := by
  have hne : (2 ^ n : Int) ≠ 0 := by positivity
  have hcancel := Int.mul_ediv_cancel v hne
  exact_mod_cast hcancel

/-- A shift right needs no truncation: its result is an element (R125). -/
theorem shr_inRange {w : Nat} {v : Int} (h : inRange w v = true) (n : Nat) :
    inRange w (shr v n) = true := by
  rw [inRange_iff] at *
  obtain ⟨hlo, hhi⟩ := h
  have hpos : (0 : Int) < ((2 ^ n : Nat) : Int) := by positivity
  have hbound : ((2 ^ (w - 1) : Nat) : Int) ≤ ((2 ^ (w - 1) : Nat) : Int) * ((2 ^ n : Nat) : Int) :=
    le_mul_of_one_le_right (by positivity) hpos
  exact ⟨(Int.le_ediv_iff_mul_le hpos).mpr (by linarith),
    (Int.ediv_lt_iff_lt_mul hpos).mpr (by linarith)⟩

section steepness

variable {w so s : Nat} {x : Elem}

theorem applySteepness_of_lt (h : s < so) : applySteepness w so x s = shr x (so - s) :=
  if_pos h

theorem applySteepness_self : applySteepness w so x so = x := by
  rw [applySteepness, if_neg (lt_irrefl so), if_pos rfl]

theorem applySteepness_of_gt (h : so < s) :
    applySteepness w so x s = wrap w (x * 2 ^ (s - so)) := by
  rw [applySteepness, if_neg h.not_gt, if_neg h.ne']
  norm_cast

/-- The steepness keeps elements in range, on every side of the offset. -/
theorem applySteepness_inRange (hw : 1 ≤ w) (hx : inRange w x = true) :
    inRange w (applySteepness w so x s) = true := by
  rcases lt_trichotomy s so with h | rfl | h
  · rw [applySteepness_of_lt h]
    exact shr_inRange hx _
  · rwa [applySteepness_self]
  · rw [applySteepness_of_gt h]
    exact wrap_inRange hw _

end steepness

/-- Settles O8, by the equation of each side of the offset. -/
theorem steepnessCases : Obligations.SteepnessCases := by
  intro w so x s hw hx
  refine ⟨fun h => ?below, fun h => ?equal, applySteepness_of_gt,
    applySteepness_inRange (by omega) hx⟩
  case below => rw [applySteepness_of_lt h, shr_eq_floor]
  case equal => rw [h, applySteepness_self]

theorem mulshift_comm (w : Nat) (a b : Int) (d : Nat) : mulshift w a b d = mulshift w b a d := by
  rw [mulshift, mulshift, mul_comm]

theorem mulshift_zero (w : Nat) (a : Int) (d : Nat) : mulshift w a 0 d = 0 := by
  simp [mulshift, shr, wrap]

/-- `2^d` is the fixed-point number one. -/
theorem mulshift_two_pow {w : Nat} (hw : 1 ≤ w) {a : Int} (ha : inRange w a = true) (d : Nat) :
    mulshift w a (2 ^ d) d = a := by
  rw [mulshift, shr_mul_two_pow, wrap_of_inRange hw ha]

/-- The example of R126: the floor of `3/2` is `1`, that of `-3/2` is `-2`. -/
theorem mulshift_neg_ne : mulshift 32 (-3) 1 1 ≠ -mulshift 32 3 1 1 := by decide

/-- Truncating in every step of an accumulation is truncating its exact sum once. -/
theorem foldl_accum_eq_wrap_sum {w : Nat} (hw : 1 ≤ w) (d : Nat) (terms : List (Elem × Elem))
    {bias : Elem} (hb : inRange w bias = true) :
    terms.foldl (fun acc t => accum w acc t.1 t.2 d) bias =
      wrap w (bias + (terms.map fun t => mulshift w t.1 t.2 d).sum) := by
  induction terms generalizing bias with
  | nil => simp [wrap_of_inRange hw hb]
  | cons t ts ih =>
    rw [List.foldl_cons, ih (accum_inRange hw _ _ _ _), accum, wrap_wrap_add, List.map_cons,
      List.sum_cons, add_assoc]

/-- Settles O9, clause by clause; `2^d` below `2^(W-1)` only says that one is an element. -/
theorem fixedPointLaws : Obligations.FixedPointLaws :=
  ⟨wrap_wrap_add, mulshift_comm, mulshift_zero,
    fun _ _ d hw ha _ => mulshift_two_pow (by omega) ha d,
    ⟨32, 3, 1, 1, mulshift_neg_ne⟩,
    fun a b => sub_shr_mul_bounds (a * b),
    fun _ d _ terms hw hb => foldl_accum_eq_wrap_sum (by omega) d terms hb⟩

end Sys2Proof
end

section
/-! SUPPORT. The bank's commands, each with the whole next state of its port (R141 to R144), and
what two writes in a row (R151) and a cycle without a write (R153) come to. -/

namespace Sys2Proof.Machine

section tick
variable {c : Params} {q : Port} {r : Nat} {w : Option WriteCmd} {wc : WriteCmd}

/-! ## The meaning of the pending entry, by its type (R145) -/

theorem arch_of_pending {hi : Nat} (hv : q.pend.valid = true) (ha : q.pend.addrHi = hi) :
    q.arch c hi = rmw c q.pend (q.readBlock c hi) := by simp [Port.arch, hv, ha]

theorem rmw_element {pd : Pending} (ht : pd.wType = 0) (t : Block) :
    rmw c pd t = t.set pd.addrLo pd.dataElement := by simp [rmw, ht]

theorem rmw_accumulate {pd : Pending} (ht : pd.wType = 2) (t : Block) :
    rmw c pd t = addBlocks c.w pd.dataBlock t := by simp [rmw, ht]

/-- Two accumulates of a stored block are one sum per element, truncated once (R126, R144). -/
theorem addBlocks_addBlocks_readBlock {a b : Block} (ha : a.length = c.epb) (hb : b.length = c.epb)
    (q : Port) (hi : Nat) :
    addBlocks c.w a (addBlocks c.w b (q.readBlock c hi)) = (List.range c.epb).map fun j =>
      wrap c.w (a.getD j 0 + b.getD j 0 + q.readElem c (elemAddr c hi j)) := by
  have hinner := length_addBlocks c.w hb (length_readBlock c q hi)
  refine List.ext_getElem (by simpa using length_addBlocks c.w ha hinner) fun j _ hj => ?_
  have hj : j < c.epb := by simpa using hj
  simp [addBlocks, Port.readBlock, ha, hb, hj, wrap_add_wrap, add_assoc]

/-! ## The whole port after a tick (R140) -/

/-- A write that is not forwarded becomes the pending entry (R149). -/
theorem nextPending_of_not_forwards {pd : Pending} (hf : forwards pd wc = false) :
    nextPending pd (some wc) =
      { valid := true, wType := wc.wType, dataElement := wc.dinElement, dataBlock := wc.dinBlock,
        addrHi := wc.waddrHi, addrLo := wc.waddrLo } := if_neg (by simp [hf])

/-- A cycle that folds no write in reads and stores the architectural contents (R147, R148). -/
theorem tick_of_comb_eq (hcomb : comb c q w = comb c q none) :
    q.tick c r w =
      { q with
        dout := q.arch c r,
        mem := if q.pend.valid = true then
                 q.storeBlock c q.pend.addrHi (q.arch c q.pend.addrHi)
               else q.mem,
        pend := nextPending q.pend w } := by
  have hmem : (q.tick c r w).mem = if q.pend.valid = true then
      q.storeBlock c q.pend.addrHi (q.arch c q.pend.addrHi) else q.mem := by
    rw [tick_mem, hcomb]
    split
    · rename_i hv
      rw [arch_eq, if_pos ⟨hv, rfl⟩]
    · rfl
  rw [← hmem, ← dout_tick_eq_arch hcomb]
  rfl

/-- What a forwarded write makes of the pending block (R146). -/
theorem comb_eq_foldWrite_arch (hf : forwards q.pend wc = true) (hv : q.pend.valid = true)
    (ha : q.pend.addrHi = wc.waddrHi) :
    comb c q (some wc) = foldWrite c wc (q.arch c wc.waddrHi) := by
  rw [comb_of_forwards hf, arch_eq, if_pos ⟨hv, ha.symm⟩]

/-- A forwarded write is stored, and bypassed to a read of its block (R146 to R149). -/
theorem tick_of_forwards (hf : forwards q.pend wc = true) (hv : q.pend.valid = true)
    (ha : q.pend.addrHi = wc.waddrHi) :
    q.tick c r (some wc) =
      { q with
        dout := if r = wc.waddrHi then foldWrite c wc (q.arch c wc.waddrHi) else q.readBlock c r,
        mem := q.storeBlock c wc.waddrHi (foldWrite c wc (q.arch c wc.waddrHi)),
        pend := { q.pend with valid := false } } := by
  simp [Port.tick, comb_eq_foldWrite_arch hf hv ha, nextPending, hf, hv, ha]

end tick

/-! ## A write without a violation (R142 to R144) -/

theorem sameBlock_eq_false_iff {pd : Pending} {wc : WriteCmd} :
    sameBlock pd wc = false ↔ ¬(pd.valid = true ∧ pd.addrHi = wc.waddrHi) := by
  rw [← sameBlock_iff, Bool.not_eq_true]

section write
variable {s : State} {p r : Nat} {q : Port} {wc : WriteCmd}
variable (hactive : s.activePort = some (p, q)) (hsound : q.bankFault = none)
  (hr : r < s.params.nb) (hhi : wc.waddrHi < s.params.nb) (hlo : wc.waddrLo < s.params.epb)
  (htype : wc.wType ≠ 3)
include hactive hsound hr hhi hlo htype

/-- A write of existing addresses and of the type of a pending write of its block is taken, and is
forwarded exactly where there is such a write. -/
theorem bankCycle_write_ticks
    (hsame : q.pend.valid = true → q.pend.addrHi = wc.waddrHi → q.pend.wType = wc.wType) :
    bankCycle r (some wc) s = .next (s.setPort p (q.tick s.params r (some wc))) ∧
      forwards q.pend wc = sameBlock q.pend wc := by
  have hv : violation p s.cycle q.pend wc = none :=
    violation_none.mpr ⟨htype, fun hs =>
      have ⟨hv, ha⟩ := sameBlock_iff.mp hs
      (hsame hv ha).symm⟩
  have hrange : outOfRange s.params r (some wc) = false := by simp [outOfRange, hr, hhi, hlo]
  exact ⟨bankCycle_ticks hactive hsound hv hrange, forwards_of_noViolation hv⟩

/-- A write to the block of a pending write of its type is forwarded (R146). -/
theorem bankCycle_forwarded (hv : q.pend.valid = true) (ha : q.pend.addrHi = wc.waddrHi)
    (ht : q.pend.wType = wc.wType) {blk : Block}
    (hblk : blk = foldWrite s.params wc (rmw s.params q.pend (q.readBlock s.params wc.waddrHi))) :
    bankCycle r (some wc) s = .next (s.setPort p
      { q with
        dout := if r = wc.waddrHi then blk else q.readBlock s.params r,
        mem := q.storeBlock s.params wc.waddrHi blk,
        pend := { q.pend with valid := false } }) := by
  obtain ⟨hnext, hf⟩ := bankCycle_write_ticks hactive hsound hr hhi hlo htype fun _ _ => ht
  rw [hnext, tick_of_forwards (hf.trans (sameBlock_iff.mpr ⟨hv, ha⟩)) hv ha, arch_of_pending hv ha,
    hblk]

/-- A write to a block with nothing pending becomes the pending entry (R149). -/
theorem bankCycle_deferred (hnot : ¬(q.pend.valid = true ∧ q.pend.addrHi = wc.waddrHi)) :
    bankCycle r (some wc) s = .next (s.setPort p
      { q with
        dout := q.arch s.params r,
        mem := if q.pend.valid = true then
                 q.storeBlock s.params q.pend.addrHi (q.arch s.params q.pend.addrHi)
               else q.mem,
        pend := { valid := true, wType := wc.wType, dataElement := wc.dinElement,
                  dataBlock := wc.dinBlock, addrHi := wc.waddrHi, addrLo := wc.waddrLo } }) := by
  obtain ⟨hnext, hf⟩ := bankCycle_write_ticks hactive hsound hr hhi hlo htype
    fun hv ha => absurd ⟨hv, ha⟩ hnot
  have hf : forwards q.pend wc = false := hf.trans (sameBlock_eq_false_iff.mpr hnot)
  rw [hnext, tick_of_comb_eq (comb_of_not_forwards hf), nextPending_of_not_forwards hf]

end write

/-- Settles O36: a read folds nothing into the pending write. -/
theorem readReturnsContents : Obligations.ReadReturnsContents := by
  intro s p q r h hr
  rw [exec_rd, bankCycle_read h hr, tick_of_comb_eq rfl]
  rfl

/-- Settles O37: the pending element, then the new one, are set in the stored block. -/
theorem elementWrite : Obligations.ElementWrite := by
  intro s p q r hi lo e b h hr hhi hlo
  rw [exec_wrE]
  have htype : (0 : WType) ≠ 3 := by decide
  refine ⟨fun hv ha ht blk hblk => ?forwarded, fun hnot => ?deferred⟩
  case forwarded =>
    exact bankCycle_forwarded h.active h.sound hr hhi hlo htype hv ha ht
      (by rw [hblk, foldWrite_element, rmw_element ht])
  case deferred => exact bankCycle_deferred h.active h.sound hr hhi hlo htype hnot

/-- Settles O38: whatever the pending block is, the new block overwrites it. -/
theorem blockOverwrite : Obligations.BlockOverwrite := by
  intro s p q r hi lo e b h hr hhi hlo
  rw [exec_wrB]
  have htype : (1 : WType) ≠ 3 := by decide
  refine ⟨fun hv ha ht => ?forwarded, fun hnot => ?deferred⟩
  case forwarded =>
    exact bankCycle_forwarded h.active h.sound hr hhi hlo htype hv ha ht (foldWrite_block ..).symm
  case deferred => exact bankCycle_deferred h.active h.sound hr hhi hlo htype hnot

/-- Settles O39: truncating after each of the two additions is truncating their sum. -/
theorem blockAccumulate : Obligations.BlockAccumulate := by
  intro s p q r hi lo e b h hr hhi hlo hlen
  rw [exec_wrA]
  have htype : (2 : WType) ≠ 3 := by decide
  refine ⟨fun hv ha ht blk hblk => ?forwarded, fun hnot => ?deferred⟩
  case forwarded =>
    obtain ⟨-, hdata, -⟩ := pending_fits_iff.mp h.fits
    have hsum := addBlocks_addBlocks_readBlock hlen (fitsBlock_iff.mp hdata).1 q hi
    refine bankCycle_forwarded h.active h.sound hr hhi hlo htype hv ha ht ?_
    rw [hblk, rmw_accumulate ht]
    exact hsum.symm
  case deferred => exact bankCycle_deferred h.active h.sound hr hhi hlo htype hnot

/-! ## Two writes of one type in a row (R151) -/

theorem setPort_setPort (s : State) (p : Nat) (u v : Port) :
    (s.setPort p u).setPort p v = s.setPort p v := by simp [State.setPort]

section write
variable {s : State} {p r : Nat} {q : Port} {wc : WriteCmd}

/-- The port after a deferred write: the write is pending, and the architectural contents of its
block are the stored block with the write applied. -/
theorem bankCycle_deferred_arch (h : PortReady s p q) (hr : r < s.params.nb)
    (hhi : wc.waddrHi < s.params.nb) (hlo : wc.waddrLo < s.params.epb) (htype : wc.wType ≠ 3)
    (hnot : ¬(q.pend.valid = true ∧ q.pend.addrHi = wc.waddrHi)) :
    ∃ u, bankCycle r (some wc) s = .next (s.setPort p u) ∧ u.bankFault = none ∧
      (u.pend.valid = true ∧ u.pend.addrHi = wc.waddrHi ∧ u.pend.wType = wc.wType) ∧
      u.arch s.params wc.waddrHi = foldWrite s.params wc (q.readBlock s.params wc.waddrHi) := by
  obtain ⟨hnext, hf⟩ := bankCycle_write_ticks h.active h.sound hr hhi hlo htype
    fun hv ha => absurd ⟨hv, ha⟩ hnot
  have hf : forwards q.pend wc = false := hf.trans (sameBlock_eq_false_iff.mpr hnot)
  refine ⟨_, hnext, h.sound, ?pending, ?arch⟩
  case pending => simp [nextPending_of_not_forwards hf]
  case arch =>
    rw [arch_tick_of_deferred h.fits hf, if_pos rfl, arch_eq,
      if_neg fun ⟨hv, ha⟩ => hnot ⟨hv, ha.symm⟩]

/-- A forwarded write is what a read of its block gets and what is stored there, and nothing is
pending. -/
theorem bankCycle_forwarded_read (hactive : s.activePort = some (p, q))
    (hsound : q.bankFault = none) (hhi : wc.waddrHi < s.params.nb)
    (hlo : wc.waddrLo < s.params.epb) (htype : wc.wType ≠ 3)
    (hv : q.pend.valid = true) (ha : q.pend.addrHi = wc.waddrHi) (ht : q.pend.wType = wc.wType)
    (hlen : (foldWrite s.params wc (q.arch s.params wc.waddrHi)).length = s.params.epb) :
    ∃ v, bankCycle wc.waddrHi (some wc) s = .next (s.setPort p v) ∧
      v.dout = foldWrite s.params wc (q.arch s.params wc.waddrHi) ∧
      v.readBlock s.params wc.waddrHi = v.dout ∧ v.pend.valid = false := by
  obtain ⟨hnext, hf⟩ := bankCycle_write_ticks hactive hsound hhi hhi hlo htype fun _ _ => ht
  have hf := hf.trans (sameBlock_iff.mpr ⟨hv, ha⟩)
  have hcomb := comb_eq_foldWrite_arch (c := s.params) hf hv ha
  have hdout : (q.tick s.params wc.waddrHi (some wc)).dout =
      foldWrite s.params wc (q.arch s.params wc.waddrHi) := by
    rw [tick_of_forwards hf hv ha]
    exact if_pos rfl
  refine ⟨_, hnext, hdout, ?stored, ?empty⟩
  case stored => rw [readBlock_tick (hcomb ▸ hlen), if_pos ⟨hv, ha.symm⟩, hcomb, hdout]
  case empty => simp [nextPending, hf]

end write

/-- A deferred write takes in a write of its type to its block in the next cycle, and the block has
both, in order. -/
theorem bankCycle_deferred_forwarded {s : State} {p r hi lo₁ lo₂ : Nat} {q : Port} {ty : WType}
    {e₁ e₂ : Elem} {b₁ b₂ : Block} (h : PortReady s p q) (hr : r < s.params.nb)
    (hhi : hi < s.params.nb) (hlo₁ : lo₁ < s.params.epb) (hlo₂ : lo₂ < s.params.epb)
    (hlen₁ : b₁.length = s.params.epb) (hlen₂ : b₂.length = s.params.epb) (htype : ty ≠ 3)
    (hnot : ¬(q.pend.valid = true ∧ q.pend.addrHi = hi)) {blk : Block}
    (hblk : blk = foldWrite s.params ⟨ty, hi, lo₂, e₂, b₂⟩
      (foldWrite s.params ⟨ty, hi, lo₁, e₁, b₁⟩ (q.readBlock s.params hi))) :
    ∃ u v, bankCycle r (some ⟨ty, hi, lo₁, e₁, b₁⟩) s = .next (s.setPort p u) ∧
      bankCycle hi (some ⟨ty, hi, lo₂, e₂, b₂⟩) (s.setPort p u) = .next (s.setPort p v) ∧
      v.dout = blk ∧ v.readBlock s.params hi = v.dout ∧ v.pend.valid = false := by
  obtain ⟨u, hnext₁, hsound, ⟨hv, ha, ht⟩, harch⟩ := bankCycle_deferred_arch
    (wc := ⟨ty, hi, lo₁, e₁, b₁⟩) h hr hhi hlo₁ htype hnot
  have hlen : (u.arch s.params hi).length = s.params.epb :=
    harch ▸ length_foldWrite hlen₁ (length_readBlock ..)
  obtain ⟨v, hnext₂, hdout, hstored⟩ := bankCycle_forwarded_read (wc := ⟨ty, hi, lo₂, e₂, b₂⟩)
    (activePort_setPort h.active) hsound hhi hlo₂ htype hv ha ht (length_foldWrite hlen₂ hlen)
  rw [setPort_setPort] at hnext₂
  refine ⟨u, v, hnext₁, hnext₂, ?_, hstored⟩
  rw [hblk, ← harch]
  exact hdout

/-- Settles O44, by the meaning of each type of write applied twice to the stored block. -/
theorem forwardingIsSequential : Obligations.ForwardingIsSequential := by
  intro s p q r hi lo₁ lo₂ e₁ e₂ b₁ b₂ h _ hr hhi hlo₁ hlo₂ hlen₁ hlen₂ hnot
  simp only [exec_wrE, exec_wrB, exec_wrA]
  have hboth {ty : WType} (htype : ty ≠ 3) {blk : Block} :=
    bankCycle_deferred_forwarded (e₁ := e₁) (e₂ := e₂) (blk := blk) h hr hhi hlo₁ hlo₂ hlen₁ hlen₂
      htype hnot
  refine ⟨hboth (by decide) ?element, hboth (by decide) ?block, hboth (by decide) ?accumulate⟩
  case element => rw [foldWrite_element, foldWrite_element]
  case block => rw [foldWrite_block]
  case accumulate =>
    refine .trans ?_ (addBlocks_addBlocks_readBlock hlen₂ hlen₁ q hi).symm
    exact List.map_congr_left fun j _ => congrArg _ (by ring)

/-! ## An idle port (R153) -/

/-- Only the illegal command writes with type 3. -/
theorem writeOf_wType_ne {i : Instr} (hi : ∀ r hi lo e b, i ≠ .illegalWtype3 r hi lo e b) :
    ∀ wc ∈ writeOf i, wc.wType ≠ 3 := by
  cases i with
  | wrE | wrB | wrA => rintro _ ⟨⟩; simp
  | illegalWtype3 r hi' lo e b => exact absurd rfl (hi r hi' lo e b)
  | _ => rintro _ ⟨⟩

/-- While nothing is pending, a legal command raises no violation, and its cycle stores nothing. -/
theorem bankCycle_mem_of_not_pending {s t : State} {p r : Nat} {q : Port} {w : Option WriteCmd}
    (h : PortReady s p q) (hv : q.pend.valid = false) (hw : ∀ wc ∈ w, wc.wType ≠ 3)
    (ht : bankCycle r w s = .next t) : ∃ u, t.ports[p]? = some u ∧ u.mem = q.mem := by
  have hnone : w.bind (violation p s.cycle q.pend) = none :=
    Option.bind_eq_none_iff.mpr fun wc hwc =>
      violation_none.mpr ⟨hw wc hwc, fun hs => absurd (sameBlock_iff.mp hs).1 (by simp [hv])⟩
  obtain ⟨p', q', ha, hcases⟩ := bankCycle_next ht
  obtain ⟨rfl, rfl⟩ := Prod.mk.inj (Option.some.inj (h.active.symm.trans ha))
  obtain ⟨hfault, -⟩ | ⟨-, f, hf, -⟩ | ⟨-, -, -, rfl⟩ := hcases
  · simp [h.sound] at hfault
  · simp [hnone] at hf
  · exact ⟨_, setPort_getElem? ha _, if_neg (by simp [hv])⟩

/-- Settles O45: a read stores the pending write and leaves none, and without a pending write there
is nothing to store. -/
theorem quietPortIsSettled : Obligations.QuietPortIsSettled := by
  refine ⟨fun s p q r h hr => ?read, fun s t p q i bits h hv he hi ht => ?quiet⟩
  case read =>
    exact ⟨_, (exec_rd s r).trans (bankCycle_read h hr), rfl, readBlock_tick_eq_arch h.fits rfl⟩
  case quiet =>
    obtain ⟨r, hr⟩ := exec_bank he
    exact bankCycle_mem_of_not_pending h hv (writeOf_wType_ne hi) ((hr s).symm.trans ht)

end Sys2Proof.Machine
end

section
/-! SUPPORT. The control states of a PE (42_pe_control.md): what a cycle drives, a cycle that holds,
and each advance with its whole next state. -/

namespace Sys2Proof.Machine

/-! ## What a PE drives in a cycle (R171 to R174) -/

section outputs
variable {code : StateCode} {inp : PeInput} {pe : Pe}

theorem waitsForUnit_iff :
    waitsForUnit code = true ↔ code = Code.activationFunction ∨ code = Code.errorFunction := by
  simp [waitsForUnit]

/-- A PE is ready unless it is in ERROR or still waits for the unit (R171). -/
theorem ready_iff :
    ready code inp = true ↔
      code ≠ Code.error ∧ code ≠ Code.reservedState31 ∧
        (code = Code.activationFunction ∨ code = Code.errorFunction → inp.afRespValid = true) := by
  have herror : (!isErrorState code) = true ↔ code ≠ Code.error ∧ code ≠ Code.reservedState31 := by
    rw [Bool.not_eq_true', ← Bool.not_eq_true, isErrorState_iff, not_or]
  have hunit : (!waitsForUnit code || inp.afRespValid) = true ↔
      (code = Code.activationFunction ∨ code = Code.errorFunction → inp.afRespValid = true) := by
    rw [← waitsForUnit_iff]
    cases waitsForUnit code <;> simp
  rw [ready, Bool.and_eq_true, herror, hunit, and_assoc]

theorem respValid_iff : respValid code = true ↔ code ∈ emitting := List.contains_iff_mem

/-- A state that neither waits for the unit nor is ERROR advances exactly with a request (R170). -/
theorem advances_eq_reqValid (he : isErrorState code = false) (hu : waitsForUnit code = false) :
    advances code inp = inp.reqValid := by
  simp [advances, ready, he, hu]

/-- The states that close a write group, under their conditions (R173). -/
theorem incWrite_iff {r : Request} :
    incWrite code r pe = true ↔
      code = Code.deltaWriteBack ∧ r.tType = false ∨
      code = Code.errorBackpropWeightWb ∧ pe.index = r.numWeights ∨
      code = Code.done ∨
      code = Code.slopeWb ∧ pe.index = r.numWeights ∨
      code = Code.weightUpdateWriteBias := by
  unfold incWrite
  split
  case isTrue h =>
    obtain rfl := beq_iff_eq.mp h
    simp [batch, Code.deltaWriteBack, Code.errorBackpropWeightWb, Code.done, Code.slopeWb,
      Code.weightUpdateWriteBias]
  case isFalse hdelta =>
    split
    case isTrue h =>
      obtain rfl | rfl : code = Code.errorBackpropWeightWb ∨ code = Code.slopeWb := by simpa using h
      all_goals
        simp [allWeights_iff, Code.deltaWriteBack, Code.errorBackpropWeightWb, Code.done,
          Code.slopeWb, Code.weightUpdateWriteBias]
    case isFalse hblock =>
      have hne : ¬(code = Code.errorBackpropWeightWb ∨ code = Code.slopeWb) := by simpa using hblock
      obtain ⟨hebp, hslope⟩ := not_or.mp hne
      simp [mt beq_iff_eq.mpr hdelta, hebp, hslope]

/-- The states that close a write group neither wait for the unit nor are ERROR. -/
theorem advances_of_incWrite {r : Request} (h : incWrite code r pe = true) :
    advances code inp = inp.reqValid := by
  obtain ⟨rfl, -⟩ | ⟨rfl, -⟩ | rfl | ⟨rfl, -⟩ | rfl := incWrite_iff.mp h
  all_goals exact advances_eq_reqValid (by decide) (by decide)

end outputs

/-- Whatever a PE action does to the registers, the PE drives the outputs of its cycle (R171 to
R174). -/
theorem exec_pe_out {i : Instr} {code : StateCode} {s t : State} {n : Nat} {pe : Pe}
    (ha : s.activePe = some (n, pe)) (hi : encode s.params i = .peState code)
    (h : exec i s = .next t) :
    ∃ u, t.pes[n]? = some u ∧ u.out = peOutputs s.params code pe (s.peInput n) := by
  obtain ⟨-, rule, hex⟩ | ⟨-, hex⟩ := exec_peState hi
  · obtain ⟨m, pe', ha', -, hnext⟩ := peCycle_next ((hex s).symm.trans h)
    obtain ⟨rfl, rfl⟩ := Prod.mk.inj (Option.some.inj (ha.symm.trans ha'))
    obtain ⟨-, rfl⟩ | ⟨-, rfl⟩ := hnext
    · exact ⟨_, setPe_getElem? ha _, rfl⟩
    · exact ⟨_, setPe_getElem? ha _, rfl⟩
  · obtain ⟨m, pe', ha', rfl⟩ := errorCycle_next ((hex s).symm.trans h)
    obtain ⟨rfl, rfl⟩ := Prod.mk.inj (Option.some.inj (ha.symm.trans ha'))
    exact ⟨_, setPe_getElem? ha _, rfl⟩

/-- The request to the unit: `acc` for an activation, `errorOut` for an error function (R174). -/
theorem afReq_eq (c : Params) (code : StateCode) (pe : Pe) (inp : PeInput) :
    (peOutputs c code pe inp).afReq =
      if inp.reqValid = true ∧ (code = Code.activationFunction ∨ code = Code.errorFunction) then
        some { input := if code = Code.errorFunction then pe.errorOut else pe.acc,
               decimal := c.dpo + inp.req.decimalPoint, steepness := inp.req.steepness,
               activationFunction := inp.req.activationFunction,
               errorFunction := inp.req.errorFunction,
               opKind := decide (code = Code.errorFunction) }
      else none := by
  simp only [peOutputs, unitRequest, effDecimal, Bool.and_eq_true, waitsForUnit_iff, beq_iff_eq]
  rfl

/-- Outside the two states that wait for the unit the PE presents no request to it (R174). -/
theorem afReq_eq_none {code : StateCode} (hu : waitsForUnit code = false) (c : Params) (pe : Pe)
    (inp : PeInput) : (peOutputs c code pe inp).afReq = none := by
  simp [peOutputs, hu]

/-- Settles O33, from the fields of the outputs that every cycle drives. -/
theorem handshakeOutputs : Obligations.HandshakeOutputs := by
  intro s t n pe i code ha hi h
  obtain ⟨u, hu, hout⟩ := exec_pe_out ha hi h
  refine ⟨u, hu, ?_⟩
  rw [hout]
  exact ⟨ready_iff, respValid_iff, rfl, rfl, rfl, rfl, rfl, afReq_eq _ _ _ _⟩

/-- Settles O34: the states that close a write group advance with every request. -/
theorem incWriteCountPulses : Obligations.IncWriteCountPulses := by
  intro s t n pe i code ha hi h
  obtain ⟨u, hu, hout⟩ := exec_pe_out ha hi h
  refine ⟨u, hu, ?_⟩
  have hpulse : u.out.resp.incWriteCount = true ↔
      (s.peInput n).reqValid = true ∧ incWrite code (s.peInput n).req pe = true := by
    rw [hout]
    refine Bool.and_eq_true_iff.trans (and_congr_left fun hinc => ?_)
    rw [advances_of_incWrite hinc]
  exact hpulse.trans (and_congr_right fun _ => incWrite_iff)

/-! ## A cycle without an advance (R21, R170, R182) -/

/-- Settles O32: outside ERROR a PE that is not served holds. -/
theorem unservedPeHolds : Obligations.UnservedPeHolds := by
  intro s n pe i code hi he h
  rw [exec_ruleOf hi he, peCycle_unserved h]
  simp only [holdPe, presented, Bool.and_eq_true]

theorem recordFault_eq_getD {α : Type} (old : Option α) (f : α) :
    recordFault old f = some (old.getD f) := by
  cases old <;> rfl

/-- A cycle of an active PE in ERROR drives nothing and writes the fault record only, where it is
empty (R182, R273). -/
theorem errorCycle_absorbs {code : StateCode} {s : State} {n : Nat} {pe : Pe}
    (h : s.activePe = some (n, pe)) :
    errorCycle code s = .next (s.setPe n
      { pe with peFault := some (pe.peFault.getD (foundInError s n code)),
                out := peOutputs s.params code pe (s.peInput n) }) := by
  rw [errorCycle_active h, Pe.raise, recordFault_eq_getD]

/-- Settles O16, by the cycle that ERROR and code 31 share. -/
theorem errorStateAbsorbs : Obligations.ErrorStateAbsorbs := by
  intro s n pe i code ha hcode
  refine ⟨peOutputs s.params code pe (s.peInput n), foundInError s n code, ?_⟩
  obtain ⟨rfl, rfl⟩ | ⟨rfl, rfl⟩ := hcode
  all_goals
    exact ⟨rfl, rfl, afReq_eq_none (by decide) _ _ _, rfl, rfl, rfl, rfl, errorCycle_absorbs ha⟩

/-! ## An advance and its whole next state (R170) -/

/-- No rule writes the record of the open allocation (R302). -/
theorem ruleOf_alloc (i : Instr) (x : PeCtx) (pe : Pe) : (ruleOf i x pe).alloc = pe.alloc := by
  cases i with
  | waitForInfo =>
    simp only [ruleOf, ruleWaitForInfo]
    split_ifs <;> rfl
  | requestInputsAndWeights =>
    simp only [ruleOf, ruleRequestInputsAndWeights]
    split <;> rfl
  | waitForInputsAndWeights =>
    simp only [ruleOf, ruleWaitForInputsAndWeights]
    split_ifs <;> rfl
  | computeDelta =>
    simp only [ruleOf, ruleComputeDelta]
    split <;> rfl
  | _ => rfl

/-- A served PE outside ERROR and UNALLOCATED takes the registers `pe'` that its rule gives; its
allocation stays open unless it enters UNALLOCATED (R170, R302). -/
theorem exec_served {i : Instr} {code : StateCode} {s : State} {n : Nat} {pe pe' : Pe}
    (hi : encode s.params i = .peState code) (he : isErrorState code = false)
    (hopen : code ≠ Code.unallocated) (h : Serviced code s n pe)
    (hrule : ruleOf i (s.peCtx n) pe = pe') : exec i s = .next (s.served code n pe pe') := by
  subst hrule
  rw [exec_ruleOf hi he, peCycle_serviced h he]
  simp only [State.served, advancePe, nextAlloc, ruleOf_alloc, beq_iff_eq, if_neg hopen]
  rfl

/-- Settles O10: the allocation is recorded by the advance that leaves UNALLOCATED. -/
theorem unallocatedOpensAllocation : Obligations.UnallocatedOpensAllocation := by
  intro s n pe h
  exact ⟨peCycle_serviced h (by decide), by decide⟩

/-- Settles O11, by the served advance. -/
theorem getInfoClears : Obligations.GetInfoClears := by
  intro s n pe h
  exact ⟨exec_served rfl (by decide) (by decide) h rfl, by decide⟩

/-- Settles O13, by whether the bias has been loaded. -/
theorem biasLoadedOnce : Obligations.BiasLoadedOnce := by
  intro s n pe h
  exact ⟨exec_served rfl (by decide) (by decide) h rfl, by decide⟩

/-- Settles O15: DONE advances with every request, and closes a write group whenever it does. -/
theorem doneReleases : Obligations.DoneReleases := by
  intro s n pe h
  refine ⟨exec_served rfl (by decide) (by decide) h rfl, by decide, fun inp => ⟨?_, rfl⟩⟩
  have hadv : advances Code.done inp = inp.reqValid := advances_eq_reqValid (by decide) (by decide)
  have hinc : incWrite Code.done inp.req pe = true := incWrite_iff.mpr (by simp)
  simp only [peOutputs, responseOf, hadv, hinc, Bool.and_true]

/-! ## The branches on `stateLearn` (R97, R178, R180) -/

/-- An advance that selects ERROR records the fault where the record is empty (R273, R276). -/
theorem enterError_eq (code : StateCode) (x : PeCtx) (pe : Pe) :
    enterError code x pe =
      { pe with state := Code.error,
                peFault := some (pe.peFault.getD (selectedError x code)) } := by
  rw [enterError, Pe.raise, recordFault_eq_getD]

/-- A code that is none of the five phases is reserved (R97). -/
theorem reserved_of_ne_phases {code : Nat} (h0 : code ≠ 0) (h1 : code ≠ 1) (h2 : code ≠ 2)
    (h3 : code ≠ 3) (h4 : code ≠ 4) : 5 ≤ code := by
  omega

/-- A reserved code is none of the five phases (R97). -/
theorem ne_phase_of_reserved {stateLearn phase : Selector} (h : 5 ≤ stateLearn.toNat)
    (hphase : phase.toNat < 5) : stateLearn ≠ phase := by
  rintro rfl
  omega

section rules
variable {x : PeCtx} (pe : Pe)

theorem ruleWaitForInfo_feedforward_updateSlope (h : x.req.stateLearn.toNat ≤ 2) :
    ruleWaitForInfo x pe = { pe with state := Code.requestInputsAndWeights } := by
  have hphase : x.req.stateLearn = Phase.feedforward ∨ x.req.stateLearn = Phase.learnFeedforward ∨
      x.req.stateLearn = Phase.updateSlope := by
    unfold Phase.feedforward Phase.learnFeedforward Phase.updateSlope
    bv_omega
  simp only [ruleWaitForInfo, if_pos hphase]

theorem ruleWaitForInfo_errorBackprop (h : x.req.stateLearn.toNat = 3) :
    ruleWaitForInfo x pe = { pe with state := Code.requestOutputsErrorBackprop } := by
  have hphase : x.req.stateLearn = Phase.errorBackprop := BitVec.eq_of_toNat_eq h
  simp only [ruleWaitForInfo, hphase]
  rfl

theorem ruleWaitForInfo_weightUpdate (h : x.req.stateLearn.toNat = 4) :
    ruleWaitForInfo x pe = { pe with state := Code.weightUpdateRequestDelta } := by
  have hphase : x.req.stateLearn = Phase.weightUpdate := BitVec.eq_of_toNat_eq h
  simp only [ruleWaitForInfo, hphase]
  rfl

theorem ruleWaitForInfo_reserved (h : 5 ≤ x.req.stateLearn.toNat) :
    ruleWaitForInfo x pe = enterError Code.waitForInfo x pe := by
  have hne (phase : Selector) (hphase : phase.toNat < 5) := ne_phase_of_reserved h hphase
  simp [ruleWaitForInfo, hne Phase.feedforward (by decide), hne Phase.learnFeedforward (by decide),
    hne Phase.updateSlope (by decide), hne Phase.errorBackprop (by decide),
    hne Phase.weightUpdate (by decide)]

theorem ruleWaitForInputsAndWeights_feedforward (h : x.req.stateLearn.toNat ≤ 1) :
    ruleWaitForInputsAndWeights x pe = { pe with state := Code.run } := by
  have hphase :
      x.req.stateLearn = Phase.feedforward ∨ x.req.stateLearn = Phase.learnFeedforward := by
    unfold Phase.feedforward Phase.learnFeedforward
    bv_omega
  simp only [ruleWaitForInputsAndWeights, if_pos hphase]

theorem ruleWaitForInputsAndWeights_updateSlope (h : x.req.stateLearn.toNat = 2) :
    ruleWaitForInputsAndWeights x pe = { pe with state := Code.runUpdateSlope } := by
  have hphase : x.req.stateLearn = Phase.updateSlope := BitVec.eq_of_toNat_eq h
  simp only [ruleWaitForInputsAndWeights, hphase]
  rfl

theorem ruleWaitForInputsAndWeights_errorBackprop (h : x.req.stateLearn.toNat = 3) :
    ruleWaitForInputsAndWeights x pe =
      { pe with
        state := if x.req.tType = true then Code.runUpdateSlope else Code.runWeightUpdate } := by
  have hphase : x.req.stateLearn = Phase.errorBackprop := BitVec.eq_of_toNat_eq h
  simp only [ruleWaitForInputsAndWeights, hphase]
  rfl

theorem ruleWaitForInputsAndWeights_weightUpdate (h : x.req.stateLearn.toNat = 4) :
    ruleWaitForInputsAndWeights x pe = { pe with state := Code.runWeightUpdate } := by
  have hphase : x.req.stateLearn = Phase.weightUpdate := BitVec.eq_of_toNat_eq h
  simp only [ruleWaitForInputsAndWeights, hphase]
  rfl

theorem ruleWaitForInputsAndWeights_reserved (h : 5 ≤ x.req.stateLearn.toNat) :
    ruleWaitForInputsAndWeights x pe = enterError Code.waitForInputsAndWeights x pe := by
  have hne (phase : Selector) (hphase : phase.toNat < 5) := ne_phase_of_reserved h hphase
  simp [ruleWaitForInputsAndWeights, hne Phase.feedforward (by decide),
    hne Phase.learnFeedforward (by decide), hne Phase.updateSlope (by decide),
    hne Phase.errorBackprop (by decide), hne Phase.weightUpdate (by decide)]

end rules

/-- Settles O12, by the code of `stateLearn`. -/
theorem waitForInfoBranches : Obligations.WaitForInfoBranches := by
  intro s n pe h
  refine ⟨exec_served rfl (by decide) (by decide) h ?_, by decide⟩
  split
  case h_1 hsl | h_2 hsl | h_3 hsl =>
    exact ruleWaitForInfo_feedforward_updateSlope pe (hsl.trans_le (by decide))
  case h_4 hsl => exact ruleWaitForInfo_errorBackprop pe hsl
  case h_5 hsl => exact ruleWaitForInfo_weightUpdate pe hsl
  case h_6 h0 h1 h2 h3 h4 =>
    have hreserved := reserved_of_ne_phases h0 h1 h2 h3 h4
    exact (ruleWaitForInfo_reserved pe hreserved).trans (enterError_eq _ _ _)

/-- Settles O14, by the code of `stateLearn`. -/
theorem waitForInputsBranches : Obligations.WaitForInputsBranches := by
  intro s n pe h
  refine ⟨exec_served rfl (by decide) (by decide) h ?_, by decide⟩
  split
  case h_1 hsl | h_2 hsl =>
    exact ruleWaitForInputsAndWeights_feedforward pe (hsl.trans_le (by decide))
  case h_3 hsl => exact ruleWaitForInputsAndWeights_updateSlope pe hsl
  case h_4 hsl => exact ruleWaitForInputsAndWeights_errorBackprop pe hsl
  case h_5 hsl => exact ruleWaitForInputsAndWeights_weightUpdate pe hsl
  case h_6 h0 h1 h2 h3 h4 =>
    have hreserved := reserved_of_ne_phases h0 h1 h2 h3 h4
    exact (ruleWaitForInputsAndWeights_reserved pe hreserved).trans (enterError_eq _ _ _)

end Sys2Proof.Machine
end

section
/-! SUPPORT. The feed-forward states of a PE (43_pe_feedforward.md): the multiply-accumulate of RUN,
what successive RUN advances sum up to, and the wait for the activation unit. -/

namespace Sys2Proof.Machine

/-! ## RUN (R200) -/

/-- The shifted and truncated product as R200 writes it. -/
theorem mulshift_eq_bmod (w : Nat) (a b : Int) (d : Nat) :
    mulshift w a b d = Int.bmod (a * b / 2 ^ d) (2 ^ w) := by
  rw [mulshift, shr, wrap]
  norm_cast

/-- The accumulation as R200 writes it. -/
theorem accum_eq_bmod (w : Nat) (acc a b : Int) (d : Nat) :
    accum w acc a b d = Int.bmod (acc + Int.bmod (a * b / 2 ^ d) (2 ^ w)) (2 ^ w) := by
  rw [accum, wrap, mulshift_eq_bmod]

theorem blockElem_of_getElem? {b : Block} {k : Nat} {v : Elem} (h : b[k]? = some v) :
    blockElem b k = v := by
  rw [blockElem, List.getD_eq_getElem?_getD, h, Option.getD_some]

theorem blockEnd_iff {c : Params} {pe : Pe} :
    blockEnd c pe = true ↔ weightPos c pe + 1 = c.epb := by
  simp [blockEnd]

/-- The RUN rule on the elements that it reads, with the successor as R200 lists it. -/
theorem ruleRun_eq {x : PeCtx} {pe : Pe} {a b : Elem} (ha : x.req.iBlock[x.pos pe]? = some a)
    (hb : x.req.wBlock[x.pos pe]? = some b) :
    ruleRun x pe =
      { pe with
        acc := Int.bmod (pe.acc + Int.bmod (a * b / 2 ^ x.dec) (2 ^ x.params.w)) (2 ^ x.params.w),
        index := pe.index + 1,
        state := if pe.index.toNat + 1 = x.req.numWeights.toNat then Code.activationFunction
                 else if weightPos x.params pe + 1 = x.params.epb then Code.requestInputsAndWeights
                 else Code.run } := by
  have hinput : x.input pe = a := blockElem_of_getElem? ha
  have hweight : x.weight pe = b := blockElem_of_getElem? hb
  simp only [ruleRun, hinput, hweight, accum_eq_bmod, lastWeight_iff, blockEnd_iff]

/-- Settles O17, by the RUN rule on element `k` of the two blocks. -/
theorem runAccumulates : Obligations.RunAccumulates := by
  rintro s n pe k a b h rfl ha hb
  exact ⟨exec_served rfl (by decide) (by decide) h (ruleRun_eq (x := s.peCtx n) ha hb), by decide⟩

/-! ## Successive RUN advances (R202) -/

/-- The factors of the products that RUN advances with the requests `rs` accumulate from index `k` on
(`foldl_ruleRun_acc`). -/
def runTerms (c : Params) (rs : List Request) (k : Nat) : List (Elem × Elem) :=
  (rs.zipIdx k).map fun x =>
    (x.1.iBlock.getD (x.2 % c.epb) 0, x.1.wBlock.getD (x.2 % c.epb) 0)

theorem runTerms_cons (c : Params) (r : Request) (rs : List Request) (k : Nat) :
    runTerms c (r :: rs) k =
      (r.iBlock.getD (k % c.epb) 0, r.wBlock.getD (k % c.epb) 0) :: runTerms c rs (k + 1) := rfl

/-- RUN advances with requests of one decimal point accumulate the products of `runTerms`, whatever
successor states the rule selects on the way. -/
theorem foldl_ruleRun_acc {c : Params} {n cyc dp : Nat} {out : Elem} {rs : List Request} {pe : Pe}
    (hdp : ∀ r ∈ rs, r.decimalPoint = dp) (hindex : pe.index.toNat + rs.length ≤ 255) :
    (rs.foldl (fun p r => ruleRun ⟨c, n, cyc, r, out⟩ p) pe).acc =
      (runTerms c rs pe.index.toNat).foldl (fun acc t => accum c.w acc t.1 t.2 (c.dpo + dp))
        pe.acc := by
  induction rs generalizing pe with
  | nil => rfl
  | cons r rs ih =>
    obtain ⟨hr, hrs⟩ := List.forall_mem_cons.mp hdp
    rw [List.length_cons] at hindex
    have hsucc : (pe.index + 1).toNat = pe.index.toNat + 1 := by bv_omega
    have hrest : (pe.index + 1).toNat + rs.length ≤ 255 := by omega
    rw [List.foldl_cons, ih hrs hrest, runTerms_cons, List.foldl_cons, ← hr, ← hsucc]
    rfl

/-- Counting the requests from 0 and adding the first index names the same elements. -/
theorem map_runTerms {α : Type} (c : Params) (rs : List Request) (k : Nat) (f : Elem × Elem → α) :
    (runTerms c rs k).map f = rs.zipIdx.map fun x =>
      f (x.1.iBlock.getD ((k + x.2) % c.epb) 0, x.1.wBlock.getD ((k + x.2) % c.epb) 0) := by
  rw [runTerms, List.zipIdx_eq_map_add, List.map_map, List.map_map]
  rfl

/-- Settles O19: RUN advances accumulate their terms, and truncating in every step is truncating the
exact sum once (R126). -/
theorem accumulationIsTheSum : Obligations.AccumulationIsTheSum := by
  intro c n cyc dp out rs pe hc hacc hdp hindex
  rw [foldl_ruleRun_acc hdp hindex, foldl_accum_eq_wrap_sum (one_le_w_of_ok hc) _ _ hacc,
    map_runTerms]
  simp only [mulshift_eq_bmod, wrap]

/-! ## Waiting for the unit (R171, R174, R201) -/

section unit
variable {code : StateCode} {inp : PeInput}

/-- A state that waits for the unit is ready exactly with the unit's response (R171). -/
theorem ready_eq_afRespValid (he : isErrorState code = false) (hu : waitsForUnit code = true) :
    ready code inp = inp.afRespValid := by
  simp [ready, he, hu]

theorem advances_eq_reqValid_and_afRespValid (he : isErrorState code = false)
    (hu : waitsForUnit code = true) :
    advances code inp = (inp.reqValid && inp.afRespValid) := by
  rw [advances, ready_eq_afRespValid he hu]

/-- A state that waits for the unit presents a request to it exactly in the cycles with a valid
request of the scheduler (R174). -/
theorem afReq_isSome (hu : waitsForUnit code = true) (c : Params) (pe : Pe) :
    (peOutputs c code pe inp).afReq.isSome = inp.reqValid := by
  cases hv : inp.reqValid <;> simp [peOutputs, hu, hv]

end unit

theorem feedforwardLast_iff {r : Request} :
    feedforwardLast r = true ↔ r.stateLearn = 1 ∧ r.inLast = true := by
  simp [feedforwardLast, Phase.learnFeedforward]

theorem ruleActivationFunction_eq (x : PeCtx) (pe : Pe) :
    ruleActivationFunction x pe =
      { pe with
        dataOut := x.afOut,
        state := if x.req.stateLearn = 1 ∧ x.req.inLast = true then Code.computeDerivative
                 else Code.done } := by
  simp only [ruleActivationFunction, feedforwardLast_iff]

/-- Settles O18: a served PE has the unit's answer to the request that it presents. -/
theorem activationLatchesTheAnswer : Obligations.ActivationLatchesTheAnswer := by
  intro s n pe h
  have he : isErrorState Code.activationFunction = false := by decide
  have hu : waitsForUnit Code.activationFunction = true := by decide
  obtain ⟨-, hanswer, -⟩ := h.unit hu
  refine ⟨?latched, by decide, fun inp => ⟨ready_eq_afRespValid he hu,
    advances_eq_reqValid_and_afRespValid he hu, afReq_isSome hu s.params pe⟩, ?request, hanswer⟩
  case latched =>
    exact exec_served rfl he (by decide) h (ruleActivationFunction_eq (s.peCtx n) pe)
  case request =>
    rw [afReq_eq, if_pos ⟨h.valid, .inl rfl⟩]
    rfl

end Sys2Proof.Machine
end

section
/-! SUPPORT. The states between a neuron's output and its delta (44_pe_error_delta.md), and the
states that only pass on to one successor: each advance with its whole next state. -/

namespace Sys2Proof.Machine

/-! ## What the rules branch on (R96, R97, R175) -/

theorem backprop_iff {r : Request} : backprop r = true ↔ r.stateLearn = 3 := by
  simp [backprop, Phase.errorBackprop]

theorem symmetric_iff {r : Request} :
    symmetric r = true ↔
      r.activationFunction = 3 ∨ r.activationFunction = 4 ∨ r.activationFunction = 6 := by
  simp [symmetric, Act.sigmoidSymmetric, Act.sigmoidSymmetricStepwise, Act.thresholdSymmetric,
    or_assoc]

/-! ## The rules as the spec writes them (R210, R213, R215, R216) -/

theorem ruleComputeDerivative_eq (x : PeCtx) (pe : Pe) :
    ruleComputeDerivative x pe =
      { pe with
        derivative := wrap x.params.w
          (Config.deriv x.params x.req.activationFunction pe.dataOut x.dec x.req.steepness),
        state := if x.req.stateLearn = 3 then Code.computeDelta
                 else Code.requestExpectedOutput } := by
  simp only [ruleComputeDerivative, derivativeOf, backprop_iff]

/-- The error of COMPUTE_ERROR is the truncation of the exact difference, halved with floor for a
symmetric selector. -/
theorem errorOf_eq_bmod {x : PeCtx} {pe : Pe} {e : Int}
    (he : e = if x.req.activationFunction = 3 ∨ x.req.activationFunction = 4 ∨
        x.req.activationFunction = 6 then (x.req.learnReg - pe.dataOut) / 2
      else x.req.learnReg - pe.dataOut) :
    errorOf x pe = Int.bmod e (2 ^ x.params.w) := by
  have hhalf (v : Int) : shr v 1 = v / 2 := rfl
  simp only [he, errorOf, wrap, symmetric_iff, hhalf]

theorem ruleComputeError_eq {x : PeCtx} {pe : Pe} {e : Elem} (he : errorOf x pe = e) :
    ruleComputeError x pe =
      { pe with errorOut := e, mse := wrap x.params.w (Config.mse x.params e x.dec),
                state := Code.errorFunction } := by
  rw [ruleComputeError, he]

/-- The two phases of COMPUTE_DELTA, with the derivative that it uses (R215). -/
theorem ruleComputeDelta_eq {x : PeCtx} {pe : Pe} {der : Int} (hder : nonzeroDerivative pe = der) :
    ruleComputeDelta x pe =
      if x.req.stateLearn = 3 then
        { pe with
          errorOut := Int.bmod (der * x.req.dw_in / 2 ^ x.dec) (2 ^ x.params.w),
          index := 0,
          state := if x.req.inFirst = true then Code.requestInputsAndWeights
                   else Code.deltaWriteBack }
      else
        { pe with
          errorOut := Int.bmod (der * pe.errorOut / 2 ^ x.dec) (2 ^ x.params.w),
          index := 0,
          state := Code.deltaWriteBack } := by
  simp only [ruleComputeDelta, backprop_iff, hder, mulshift_eq_bmod]

/-- The four branches of DELTA_WRITE_BACK, by the phase first (R216). -/
theorem ruleDeltaWriteBack_eq (x : PeCtx) (pe : Pe) :
    ruleDeltaWriteBack x pe =
      { pe with
        state :=
          if x.req.stateLearn = 3 then
            if x.req.tType = true then Code.requestInputsAndWeights
            else Code.errorBackpropRequestWeights
          else if x.req.stateLearn = 1 ∧ x.req.inLast = true then Code.errorBackpropRequestWeights
          else Code.done } := by
  simp only [ruleDeltaWriteBack, Bool.and_eq_true, backprop_iff, feedforwardLast_iff, batch]
  by_cases hphase : x.req.stateLearn = 3
  · simp only [hphase, true_and, if_true]
  · simp only [hphase, false_and, if_false]

/-! ## The advances with their whole next state (R210 to R216, R230 to R237, R252, R253) -/

/-- Settles O21: DERIV is a parameter, so its four arguments are all that the rule says of it. -/
theorem derivativeIsLatched : Obligations.DerivativeIsLatched := by
  intro s n pe h
  exact ⟨exec_served rfl (by decide) (by decide) h (ruleComputeDerivative_eq (s.peCtx n) pe),
    by decide⟩

/-- Settles O22: each of the nine rows is the served advance of a rule that writes the state alone. -/
theorem plainTransitions : Obligations.PlainTransitions := by
  intro s n pe i code nxt emits hrow h
  simp only [List.mem_cons, Prod.mk.injEq, List.not_mem_nil, or_false] at hrow
  obtain ⟨rfl, rfl, rfl, rfl⟩ | ⟨rfl, rfl, rfl, rfl⟩ | ⟨rfl, rfl, rfl, rfl⟩ | ⟨rfl, rfl, rfl, rfl⟩ |
    ⟨rfl, rfl, rfl, rfl⟩ | ⟨rfl, rfl, rfl, rfl⟩ | ⟨rfl, rfl, rfl, rfl⟩ | ⟨rfl, rfl, rfl, rfl⟩ |
    ⟨rfl, rfl, rfl, rfl⟩ := hrow
  all_goals exact ⟨exec_served rfl (by decide) (by decide) h rfl, by decide⟩

/-- Settles O23, by the truncated difference. -/
theorem errorIsComputed : Obligations.ErrorIsComputed := by
  intro s n pe e h he
  have herror : errorOf (s.peCtx n) pe = Int.bmod e (2 ^ s.params.w) :=
    errorOf_eq_bmod (x := s.peCtx n) he
  exact ⟨exec_served rfl (by decide) (by decide) h (ruleComputeError_eq herror), by decide⟩

/-- Settles O24: a served PE has the unit's answer to the request that it presents, here for
`errorOut`. -/
theorem errorFunctionLatchesTheAnswer : Obligations.ErrorFunctionLatchesTheAnswer := by
  intro s n pe h
  have he : isErrorState Code.errorFunction = false := by decide
  have hu : waitsForUnit Code.errorFunction = true := by decide
  obtain ⟨-, hanswer, -⟩ := h.unit hu
  refine ⟨exec_served rfl he (by decide) h rfl, by decide, fun inp => ⟨ready_eq_afRespValid he hu,
    advances_eq_reqValid_and_afRespValid he hu, afReq_isSome hu s.params pe⟩, ?request, hanswer⟩
  case request =>
    rw [afReq_eq, if_pos ⟨h.valid, .inr rfl⟩]
    rfl

/-- Settles O25, by the phase. -/
theorem deltaIsComputed : Obligations.DeltaIsComputed := by
  intro s n pe der h hder
  exact ⟨exec_served rfl (by decide) (by decide) h
    (ruleComputeDelta_eq (x := s.peCtx n) (pe := pe) hder.symm), by decide⟩

/-- Settles O26: DELTA_WRITE_BACK advances with every request, and closes a write group outside batch
mode. -/
theorem deltaWriteBackBranches : Obligations.DeltaWriteBackBranches := by
  intro s n pe h
  refine ⟨exec_served rfl (by decide) (by decide) h (ruleDeltaWriteBack_eq (s.peCtx n) pe),
    by decide, fun inp => ?_⟩
  have hadv : advances Code.deltaWriteBack inp = inp.reqValid :=
    advances_eq_reqValid (by decide) (by decide)
  have hinc : incWrite Code.deltaWriteBack inp.req pe = !inp.req.tType := rfl
  simp only [peOutputs, responseOf, hadv, hinc]

end Sys2Proof.Machine
end

section
/-! SUPPORT. The error back-propagation states (45_pe_backprop.md) and the write-backs of all learning
phases (R233, R251, R255, R256): each advance with its whole next state, and the write counts. -/

namespace Sys2Proof.Machine

/-! ## Delta-weight products and the reloaded output (R232, R235) -/

/-- A block's weights are used up at the last weight or at the block's end (R175). -/
theorem exhausted_iff {c : Params} {r : Request} {pe : Pe} :
    exhausted c r pe = true ↔
      pe.index.toNat + 1 = r.numWeights.toNat ∨ weightPos c pe + 1 = c.epb := by
  rw [exhausted, Bool.or_eq_true, lastWeight_iff, blockEnd_iff]

/-- R232 on the weight that the rule reads. -/
theorem ruleErrorBackpropDeltaWeightMul_eq {x : PeCtx} {pe : Pe} {b : Elem}
    (hb : x.req.wBlock[x.pos pe]? = some b) :
    ruleErrorBackpropDeltaWeightMul x pe =
      { pe with
        weightWB := pe.weightWB.set (x.pos pe)
          (Int.bmod (pe.errorOut * b / 2 ^ x.dec) (2 ^ x.params.w)),
        index := pe.index + 1,
        state := if pe.index.toNat + 1 = x.req.numWeights.toNat ∨
                      weightPos x.params pe + 1 = x.params.epb
                 then Code.errorBackpropWeightWb else Code.errorBackpropDeltaWeightMul } := by
  have hweight : x.weight pe = b := blockElem_of_getElem? hb
  simp only [ruleErrorBackpropDeltaWeightMul, hweight, mulshift_eq_bmod, exhausted_iff]

/-- Settles O27, by the rule on element `k` of the weight block. -/
theorem deltaWeightProduct : Obligations.DeltaWeightProduct := by
  rintro s n pe k b h rfl hb
  have hrule := ruleErrorBackpropDeltaWeightMul_eq (x := s.peCtx n) hb
  exact ⟨exec_served rfl (by decide) (by decide) h hrule, by decide⟩

/-- Settles O29, by the served advance. -/
theorem outputIsReloaded : Obligations.OutputIsReloaded := by
  intro s n pe h
  exact ⟨exec_served rfl (by decide) (by decide) h rfl, by decide⟩

/-! ## Write-backs (R173, R233, R251, R255, R256) -/

/-- R233, with the branch on unfinished weights first. -/
theorem ruleErrorBackpropWeightWb_eq (x : PeCtx) (pe : Pe) :
    ruleErrorBackpropWeightWb x pe =
      { pe with
        state := if pe.index ≠ x.req.numWeights then Code.errorBackpropRequestWeights
                 else if x.req.stateLearn = 3 then Code.unallocated
                 else Code.done } := by
  simp only [ruleErrorBackpropWeightWb, Bool.not_eq_true', ← Bool.not_eq_true, allWeights_iff,
    backprop_iff, ne_eq]

theorem ruleSlopeWb_eq (x : PeCtx) (pe : Pe) :
    ruleSlopeWb x pe =
      { pe with
        state := if pe.index = x.req.numWeights then Code.unallocated
                 else Code.requestInputsAndWeights } := by
  simp only [ruleSlopeWb, allWeights_iff]

theorem ruleWeightUpdateWriteBack_eq (x : PeCtx) (pe : Pe) :
    ruleWeightUpdateWriteBack x pe =
      { pe with
        state := if pe.index = x.req.numWeights then Code.weightUpdateWriteBias
                 else Code.requestInputsAndWeights } := by
  simp only [ruleWeightUpdateWriteBack, allWeights_iff]

/-- The write count pulses on the requests of a state that closes a write group: such a state advances
with every request (R173). -/
theorem incWriteCount_eq (c : Params) (code : StateCode) (pe : Pe) (inp : PeInput) :
    (peOutputs c code pe inp).resp.incWriteCount =
      (inp.reqValid && incWrite code inp.req pe) := by
  simp only [peOutputs, responseOf]
  cases hinc : incWrite code inp.req pe
  case false => rw [Bool.and_false, Bool.and_false]
  case true => rw [advances_of_incWrite hinc]

/-- A state that closes its write group with the last weight pulses there and nowhere else (R173). -/
theorem incWriteCount_iff_of_allWeights {code : StateCode} {pe : Pe} {inp : PeInput}
    (hinc : incWrite code inp.req pe = allWeights inp.req pe) (c : Params) :
    (peOutputs c code pe inp).resp.incWriteCount = true ↔
      inp.reqValid = true ∧ pe.index = inp.req.numWeights := by
  rw [incWriteCount_eq, hinc, Bool.and_eq_true, allWeights_iff]

/-- Settles O28, state by state: the served advance, and what the state counts as a closed group. -/
theorem writeBacksBranch : Obligations.WriteBacksBranch := by
  intro s n pe
  refine ⟨fun h => ⟨?errorBackprop, by decide, fun _ => incWriteCount_iff_of_allWeights rfl _⟩,
    fun h => ⟨?slope, by decide, fun _ => incWriteCount_iff_of_allWeights rfl _⟩,
    fun h => ⟨?weight, by decide, fun inp => ?weightCount⟩,
    fun h => ⟨?bias, by decide, fun inp => ?biasCount⟩⟩
  case errorBackprop =>
    exact exec_served rfl (by decide) (by decide) h (ruleErrorBackpropWeightWb_eq (s.peCtx n) pe)
  case slope => exact exec_served rfl (by decide) (by decide) h (ruleSlopeWb_eq (s.peCtx n) pe)
  case weight =>
    exact exec_served rfl (by decide) (by decide) h (ruleWeightUpdateWriteBack_eq (s.peCtx n) pe)
  case weightCount =>
    have hinc : incWrite Code.weightUpdateWriteBack inp.req pe = false := rfl
    rw [incWriteCount_eq, hinc, Bool.and_false]
  case bias => exact exec_served rfl (by decide) (by decide) h rfl
  case biasCount =>
    have hinc : incWrite Code.weightUpdateWriteBias inp.req pe = true := rfl
    rw [incWriteCount_eq, hinc, Bool.and_true]

end Sys2Proof.Machine
end

section
/-! SUPPORT. The slope-update and weight-update states of a PE (46_pe_slope_weight_update.md): the
values that R250 and R254 compute, and each advance with its whole next state. -/

namespace Sys2Proof.Machine

/-! ## Slopes (R250) -/

/-- R250 on the input that the rule reads. -/
theorem ruleRunUpdateSlope_eq {x : PeCtx} {pe : Pe} {a delta : Elem}
    (ha : x.req.iBlock[x.pos pe]? = some a) (hdelta : x.deltaSource pe = delta) :
    ruleRunUpdateSlope x pe =
      { pe with
        weightWB := pe.weightWB.set (x.pos pe)
          (Int.bmod (delta * a / 2 ^ x.dec) (2 ^ x.params.w)),
        index := pe.index + 1,
        state := if pe.index.toNat + 1 = x.req.numWeights.toNat ∨
                      weightPos x.params pe + 1 = x.params.epb
                 then Code.slopeWb else Code.runUpdateSlope } := by
  have hinput : x.input pe = a := blockElem_of_getElem? ha
  simp only [ruleRunUpdateSlope, hdelta, hinput, mulshift_eq_bmod, exhausted_iff]

/-- Settles O30, by the rule on element `k` of the input block. -/
theorem slopeIsComputed : Obligations.SlopeIsComputed := by
  rintro s n pe k a delta h rfl ha hdelta
  have hsource : (s.peCtx n).deltaSource pe = delta := hdelta.symm
  have hrule := ruleRunUpdateSlope_eq (x := s.peCtx n) ha hsource
  exact ⟨exec_served rfl (by decide) (by decide) h hrule, by decide⟩

/-! ## Weight changes (R127, R254) -/

section values
variable {x : PeCtx} {pe : Pe}

/-- The delta of R254 is the delta's source scaled by the learning rate. -/
theorem updateDelta_eq {sel : Elem} (hsel : x.deltaSource pe = sel) :
    updateDelta x pe = Int.bmod (sel * x.req.learningRate / 2 ^ x.dec) (2 ^ x.params.w) := by
  rw [updateDelta, hsel, mulshift_eq_bmod]

/-- The decay truncates after the product: the negated weight itself may leave the elements' range
(R127). -/
theorem weightDecay_eq {b : Elem} (hb : x.req.wBlock[x.pos pe]? = some b) :
    weightDecay x pe = Int.bmod (-b * x.req.lambda / 2 ^ x.dec) (2 ^ x.params.w) := by
  have hweight : x.weight pe = b := blockElem_of_getElem? hb
  rw [weightDecay, hweight, mulshift_eq_bmod]

/-- The two training modes of R254: the delta alone, or the delta times the input. -/
theorem updateResult_eq {a delta : Elem} (ha : x.req.iBlock[x.pos pe]? = some a)
    (hdelta : updateDelta x pe = delta) :
    updateResult x pe =
      if x.req.tType = true then delta
      else Int.bmod (delta * a / 2 ^ x.dec) (2 ^ x.params.w) := by
  have hinput : x.input pe = a := blockElem_of_getElem? ha
  rw [updateResult, hdelta, hinput, mulshift_eq_bmod, batch]

/-- R254 on the three values that it names. -/
theorem ruleRunWeightUpdate_eq {delta decay result : Elem} (hdelta : updateDelta x pe = delta)
    (hdecay : weightDecay x pe = decay) (hresult : updateResult x pe = result) :
    ruleRunWeightUpdate x pe =
      { pe with
        weightWB := pe.weightWB.set (x.pos pe) (Int.bmod (result + decay) (2 ^ x.params.w)),
        dataOut := delta,
        index := pe.index + 1,
        state := if pe.index.toNat + 1 = x.req.numWeights.toNat ∨
                      weightPos x.params pe + 1 = x.params.epb
                 then Code.weightUpdateWriteBack else Code.runWeightUpdate } := by
  simp only [ruleRunWeightUpdate, hdelta, hdecay, hresult, wrap, exhausted_iff]

end values

/-- Settles O31, by the rule on element `k` of the two blocks: the delta, the decay and the result
are those that R254 names. -/
theorem weightChangeIsComputed : Obligations.WeightChangeIsComputed := by
  rintro s n pe k a b sel delta decay result d h rfl ha hb rfl hsel hdelta hdecay hresult
  have hsource : (s.peCtx n).deltaSource pe = sel := hsel.symm
  have hdelta' : updateDelta (s.peCtx n) pe = delta := (updateDelta_eq hsource).trans hdelta.symm
  have hdecay' : weightDecay (s.peCtx n) pe = decay :=
    (weightDecay_eq (x := s.peCtx n) hb).trans hdecay.symm
  have hresult' : updateResult (s.peCtx n) pe = result :=
    (updateResult_eq (x := s.peCtx n) ha hdelta').trans hresult.symm
  have hrule := ruleRunWeightUpdate_eq hdelta' hdecay' hresult'
  exact ⟨exec_served rfl (by decide) (by decide) h hrule, by decide⟩

end Sys2Proof.Machine
end

section
/-! SUPPORT. Faults and refusals (60_exceptions.md): the violations of a bank port, the sticky
records, what enters and leaves ERROR, the breaches that stop a run, and the global reset. -/

namespace Sys2Proof.Machine

/-! ## The violations of a bank port (R150, R271, R272) -/

theorem violation_of_wType_three {wc : WriteCmd} (h : wc.wType = 3) (p cycle : Nat) (pd : Pending) :
    violation p cycle pd wc = some (.wtypeIllegal p cycle 3 wc.waddrHi) := by
  simp [violation, h]

theorem violation_of_mismatch {pd : Pending} {wc : WriteCmd} (htype : wc.wType ≠ 3)
    (hsame : sameBlock pd wc = true) (hne : pd.wType ≠ wc.wType) (p cycle : Nat) :
    violation p cycle pd wc = some (.wtypeMismatch p cycle pd.wType wc.wType wc.waddrHi) := by
  rw [violation, if_neg htype, hsame]
  simp [hne.symm]

section port
variable {s : State} {p r : Nat} {q : Port} {wc : WriteCmd}
variable (ha : s.activePort = some (p, q)) (hf : q.bankFault = none)
include ha hf

/-- A write that raises a violation leaves its record on the port, and changes no other agent. -/
theorem bankCycle_records {f : BankFault} (hv : violation p s.cycle q.pend wc = some f) :
    ∃ u, bankCycle r (some wc) s = .next (s.setPort p u) ∧ u.bankFault = some f :=
  ⟨_, bankCycle_violation ha hf hv, by rw [raisePort_bankFault, hf, recordFault_none]⟩

theorem bankCycle_mismatch (htype : wc.wType ≠ 3) (hv : q.pend.valid = true)
    (hhi : q.pend.addrHi = wc.waddrHi) (hne : q.pend.wType ≠ wc.wType) :
    ∃ u, bankCycle r (some wc) s = .next (s.setPort p u) ∧
      u.bankFault = some (.wtypeMismatch p s.cycle q.pend.wType wc.wType wc.waddrHi) :=
  bankCycle_records ha hf
    (violation_of_mismatch htype (sameBlock_iff.mpr ⟨hv, hhi⟩) hne p s.cycle)

end port

/-- Settles O40: type 3 is a violation whatever is pending. -/
theorem illegalTypeFaults : Obligations.IllegalTypeFaults := by
  intro s p q r hi lo e b ha hf
  exact bankCycle_records (r := r) (wc := ⟨3, hi, lo, e, b⟩) ha hf
    (violation_of_wType_three rfl p s.cycle q.pend)

/-- Settles O41, by the three types of a write. -/
theorem typeMismatchFaults : Obligations.TypeMismatchFaults := by
  intro s p q r hi lo e b ha hf hv hhi
  simp only [exec_wrE, exec_wrB, exec_wrA]
  exact ⟨bankCycle_mismatch (wc := ⟨0, hi, lo, e, b⟩) ha hf (show (0 : WType) ≠ 3 by decide) hv hhi,
    bankCycle_mismatch (wc := ⟨1, hi, lo, e, b⟩) ha hf (show (1 : WType) ≠ 3 by decide) hv hhi,
    bankCycle_mismatch (wc := ⟨2, hi, lo, e, b⟩) ha hf (show (2 : WType) ≠ 3 by decide) hv hhi⟩

/-! ## A faulted port (R276) -/

/-- Read data, pending entry and storage of `u` are the unspecified values of the generation after
generation `gen` (R276, log entry 8). -/
structure Port.Unspecified (c : Params) (gen : Nat) (u : Port) : Prop where
  gen   : u.origin.gen = gen + 1
  dout  : u.dout = unspecDout c u.origin
  pend  : u.pend = unspecPending c u.origin
    (bitBool (Config.unspecified (.pend u.origin .valid 0)).toNat)
  elems : ∀ a, u.readElem c a = unspecElem c (.mem u.origin a)

theorem unspecify_unspecified (c : Params) (q : Port) :
    (q.unspecify c).Unspecified c q.origin.gen where
  gen     := rfl
  dout    := rfl
  pend    := rfl
  elems _ := rfl

theorem raise_unspecified (c : Params) (q : Port) (f : BankFault) :
    (q.raise c f).Unspecified c q.origin.gen :=
  unspecify_unspecified c { q with bankFault := recordFault q.bankFault f }

/-- A cycle that leaves its port faulted leaves it with unspecified contents: only a tick does not,
and a tick has no fault before it and records none. -/
theorem bankCycle_unspecified {r p : Nat} {w : Option WriteCmd} {s t : State} {q u : Port}
    (ha : s.activePort = some (p, q)) (h : bankCycle r w s = .next t) (hu : t.ports[p]? = some u)
    (hf : u.bankFault.isSome = true) : u.Unspecified s.params q.origin.gen := by
  obtain ⟨p', q', ha', hcases⟩ := bankCycle_next h
  obtain ⟨rfl, rfl⟩ := Prod.mk.inj (Option.some.inj (ha.symm.trans ha'))
  have hset {v : Port} (ht : t = s.setPort p v) : v = u := by
    rw [ht, setPort_getElem? ha] at hu
    exact Option.some.inj hu
  obtain ⟨-, ht⟩ | ⟨-, f, -, ht⟩ | ⟨hsound, -, -, ht⟩ := hcases
  · exact hset ht ▸ unspecify_unspecified s.params q
  · exact hset ht ▸ raise_unspecified s.params q f
  · rw [← hset ht, tick_bankFault, hsound] at hf
    cases hf

/-- Settles O42, by the cycle of a faulted port and of a port that becomes faulted. -/
theorem faultedPortStaysFaulted : Obligations.FaultedPortStaysFaulted := by
  intro s p q i bits ha hi
  obtain ⟨r, hex⟩ := exec_bank hi
  refine ⟨fun f hf => ⟨q.unspecify s.params, ?next, hf⟩, fun t u h hu hf => ?contents⟩
  case next => exact (hex s).trans (bankCycle_faulted ha (by rw [hf]; rfl))
  case contents =>
    have hc := bankCycle_unspecified ha ((hex s).symm.trans h) hu hf
    exact ⟨hc.gen, hc.dout, hc.pend, hc.elems⟩

/-! ## Sticky records (R276, R277) -/

/-- No rule overwrites a fault record. -/
theorem ruleOf_peFault_sticky {pe : Pe} {f : PeFault} (h : pe.peFault = some f) (i : Instr)
    (x : PeCtx) : (ruleOf i x pe).peFault = some f := by
  have herror (code : StateCode) : (enterError code x pe).peFault = some f := by
    simp [enterError, h]
  cases i with
  | waitForInfo =>
    simp only [ruleOf, ruleWaitForInfo]
    split_ifs
    · exact h
    · exact h
    · exact h
    · exact herror _
  | requestInputsAndWeights =>
    simp only [ruleOf, ruleRequestInputsAndWeights]
    split <;> exact h
  | waitForInputsAndWeights =>
    simp only [ruleOf, ruleWaitForInputsAndWeights]
    split_ifs
    · exact h
    · exact h
    · exact h
    · exact h
    · exact h
    · exact herror _
  | computeDelta =>
    simp only [ruleOf, ruleComputeDelta]
    split <;> exact h
  | _ => exact h

theorem peTurn_peFault_sticky {s : State} {n : Nat} {pe u : Pe} {f : PeFault}
    (hturn : PeTurn s n pe u) (h : pe.peFault = some f) : u.peFault = some f := by
  cases hturn with
  | advance => exact ruleOf_peFault_sticky h (decodeState pe.state) (s.peCtx n)
  | hold => exact h
  | inError => simp [h]

/-- A bank cycle keeps the record of every port that has one (R276). -/
theorem bankCycle_bankFault_sticky {r p : Nat} {w : Option WriteCmd} {s t : State} {q : Port}
    {f : BankFault} (h : bankCycle r w s = .next t) (hq : s.ports[p]? = some q)
    (hf : q.bankFault = some f) : ∃ u, t.ports[p]? = some u ∧ u.bankFault = some f := by
  obtain ⟨p', q', u, ha, rfl⟩ := bankCycle_setPort h
  by_cases hp : p' = p
  · subst hp
    obtain ⟨-, hq'⟩ := activePort_eq.mp ha
    obtain rfl := Option.some.inj (hq.symm.trans hq')
    have hnext : bankCycle r w s = .next (s.setPort p' (q.unspecify s.params)) :=
      bankCycle_faulted ha (by rw [hf]; rfl)
    rw [h] at hnext
    rw [Host.Outcome.next.inj hnext]
    exact ⟨_, setPort_getElem? ha _, hf⟩
  · exact ⟨q, by rw [setPort_ports, List.getElem?_set_ne hp, hq], hf⟩

section step
variable {s t : State} (hr : s.resetAsked = false) (h : step s = .next t)
include hr h

/-- After a step that is no reset, each PE is still there, as it was or after its turn. -/
theorem step_pe_of {n : Nat} {pe : Pe} (hp : s.pes[n]? = some pe) :
    ∃ u, t.pes[n]? = some u ∧ (u = pe ∨ PeTurn s n pe u) := by
  have hlen : t.pes.length = s.pes.length := by
    obtain ⟨hreset, -⟩ | ⟨-, i, v, hf, hv, rfl⟩ := step_next h
    · simp [hr] at hreset
    · rw [endTurn_pes]
      obtain hsame | ⟨m, pe', w, -, hset, -⟩ := exec_pes hf hv
      · rw [hsame]
      · rw [hset, List.length_set]
  obtain ⟨hlt, -⟩ := List.getElem?_eq_some_iff.mp hp
  have hu : t.pes[n]? = some t.pes[n] := List.getElem?_eq_getElem (hlen ▸ hlt)
  refine ⟨_, hu, ?_⟩
  obtain hsame | ⟨pe', hp', hturn⟩ := step_pe hr h hu
  · exact .inl (Option.some.inj (hsame.symm.trans hp))
  · obtain rfl := Option.some.inj (hp.symm.trans hp')
    exact .inr hturn

/-- After a step that is no reset, each port with a record has the same record. -/
theorem step_bankFault_sticky {p : Nat} {q : Port} {f : BankFault} (hq : s.ports[p]? = some q)
    (hf : q.bankFault = some f) : ∃ u, t.ports[p]? = some u ∧ u.bankFault = some f := by
  obtain ⟨hreset, -⟩ | ⟨-, i, v, -, hv, rfl⟩ := step_next h
  · simp [hr] at hreset
  · rw [endTurn_ports]
    cases hi : encode s.params i with
    | peState code => exact ⟨q, exec_peState_ports hi hv ▸ hq, hf⟩
    | bank bits =>
      obtain ⟨r, hex⟩ := exec_bank hi
      exact bankCycle_bankFault_sticky ((hex s).symm.trans hv) hq hf

end step

/-- Settles O51, by a turn of the PE and a cycle of the port. -/
theorem faultRecordsAreSticky : Obligations.FaultRecordsAreSticky := by
  intro s t hr h
  refine ⟨fun n pe f hp hf => ?_, fun p q f hq hf => step_bankFault_sticky hr h hq hf⟩
  obtain ⟨u, hu, rfl | hturn⟩ := step_pe_of hr h hp
  · exact ⟨u, hu, hf⟩
  · exact ⟨u, hu, peTurn_peFault_sticky hturn hf⟩

/-! ## Entering UNALLOCATED and ERROR (R182, R183, R278) -/

/-- Only the four completing states lead to UNALLOCATED (R278). -/
theorem unallocated_entered : ∀ code : StateCode, Code.unallocated ∈ successors code →
    code ∈ [Code.done, Code.slopeWb, Code.errorBackpropWeightWb, Code.weightUpdateWriteBias] := by
  decide

section rules
variable {x : PeCtx} {pe : Pe}

/-- WAIT_FOR_INFO selects ERROR on a reserved code only (R178). -/
theorem reserved_of_ruleWaitForInfo_error (h : (ruleWaitForInfo x pe).state = Code.error) :
    5 ≤ x.req.stateLearn.toNat := by
  by_contra hlt
  obtain hsl | hsl | hsl : x.req.stateLearn.toNat ≤ 2 ∨ x.req.stateLearn.toNat = 3 ∨
      x.req.stateLearn.toNat = 4 := by omega
  · rw [ruleWaitForInfo_feedforward_updateSlope pe hsl] at h
    exact absurd h (show Code.requestInputsAndWeights ≠ _ by decide)
  · rw [ruleWaitForInfo_errorBackprop pe hsl] at h
    exact absurd h (show Code.requestOutputsErrorBackprop ≠ _ by decide)
  · rw [ruleWaitForInfo_weightUpdate pe hsl] at h
    exact absurd h (show Code.weightUpdateRequestDelta ≠ _ by decide)

/-- WAIT_FOR_INPUTS_AND_WEIGHTS selects ERROR on a reserved code only (R180). -/
theorem reserved_of_ruleWaitForInputsAndWeights_error
    (h : (ruleWaitForInputsAndWeights x pe).state = Code.error) :
    5 ≤ x.req.stateLearn.toNat := by
  by_contra hlt
  obtain hsl | hsl | hsl | hsl : x.req.stateLearn.toNat ≤ 1 ∨ x.req.stateLearn.toNat = 2 ∨
      x.req.stateLearn.toNat = 3 ∨ x.req.stateLearn.toNat = 4 := by omega
  · rw [ruleWaitForInputsAndWeights_feedforward pe hsl] at h
    exact absurd h (show Code.run ≠ _ by decide)
  · rw [ruleWaitForInputsAndWeights_updateSlope pe hsl] at h
    exact absurd h (show Code.runUpdateSlope ≠ _ by decide)
  · have hmem : (ruleWaitForInputsAndWeights x pe).state ∈
        [Code.runUpdateSlope, Code.runWeightUpdate] := by
      rw [ruleWaitForInputsAndWeights_errorBackprop pe hsl]
      exact ite_state_mem (by decide) (by decide)
    rw [h] at hmem
    exact absurd hmem (by decide)
  · rw [ruleWaitForInputsAndWeights_weightUpdate pe hsl] at h
    exact absurd h (show Code.runWeightUpdate ≠ _ by decide)

/-- An advance enters ERROR from the two branching states, on a reserved code. -/
theorem ruleOf_entersError (he : isErrorState pe.state = false)
    (h : (ruleOf (decodeState pe.state) x pe).state = Code.error) :
    pe.state ∈ [Code.waitForInfo, Code.waitForInputsAndWeights] ∧
      5 ≤ x.req.stateLearn.toNat := by
  have hmem := ruleOf_state_mem (encode_decodeState x.params pe.state) he x pe
  have hfrom := errorState_entered _ _ hmem (by rw [h]; decide)
  refine ⟨hfrom, ?_⟩
  obtain hs | hs := List.mem_pair.mp hfrom
  · rw [hs] at h
    exact reserved_of_ruleWaitForInfo_error h
  · rw [hs] at h
    exact reserved_of_ruleWaitForInputsAndWeights_error h

end rules

/-- A turn that does not advance keeps the state register. -/
theorem peTurn_state {s : State} {n : Nat} {pe u : Pe} (h : PeTurn s n pe u) :
    u.state = pe.state ∨ isErrorState pe.state = false ∧
      u.state = (ruleOf (decodeState pe.state) (s.peCtx n) pe).state := by
  cases h with
  | advance hb ha => exact .inr ⟨not_isErrorState_of_advances ha, rfl⟩
  | hold => exact .inl rfl
  | inError => exact .inl rfl

/-- Settles O53: a turn that changes the state is an advance, which enters a successor. -/
theorem onlyCompletionReleases : Obligations.OnlyCompletionReleases := by
  intro s t n pe u hr h hp hu
  have hstate : u.state = pe.state ∨ isErrorState pe.state = false ∧
      u.state = (ruleOf (decodeState pe.state) (s.peCtx n) pe).state := by
    obtain ⟨u', hu', rfl | hturn⟩ := step_pe_of hr h hp
    · obtain rfl := Option.some.inj (hu.symm.trans hu')
      exact .inl rfl
    · obtain rfl := Option.some.inj (hu.symm.trans hu')
      exact peTurn_state hturn
  refine ⟨fun hun hne => ?released, fun herr hne => ?erred, fun herr => ?stays⟩
  case released =>
    obtain hsame | ⟨he, hnext⟩ := hstate
    · exact absurd (hsame.symm.trans hun) hne
    · have hmem := ruleOf_state_mem (encode_decodeState s.params pe.state) he (s.peCtx n) pe
      rw [← hnext, hun] at hmem
      exact unallocated_entered _ hmem
  case erred =>
    obtain hsame | ⟨he, hnext⟩ := hstate
    · exact absurd (hsame.symm.trans herr) hne
    · exact ruleOf_entersError (x := s.peCtx n) he (hnext.symm.trans herr)
  case stays =>
    obtain hsame | ⟨he, -⟩ := hstate
    · exact hsame.trans herr
    · simp [herr, isErrorState] at he

/-! ## The model's own faults (R270) -/

/-- The instruction of a bank word has a bank word. -/
theorem encode_bankInstr (c : Params) (we wt lo hi r e b : Nat) :
    ∃ bits, encode c (bankInstr c we wt lo hi r e b) = .bank bits := by
  unfold bankInstr writeInstr
  split_ifs <;> exact ⟨_, rfl⟩

/-- A bank command faults only where no port is active. -/
theorem exec_bank_fault {i : Instr} {c : Params} {bits : Nat} {s : State} {f : Fault}
    (hi : encode c i = .bank bits) (h : exec i s = .fault f) : s.activePort = none := by
  obtain ⟨r, hex⟩ := exec_bank hi
  exact bankCycle_fault ((hex s).symm.trans h)

/-- A PE action faults only where no PE is active. -/
theorem exec_peState_fault {i : Instr} {c : Params} {code : StateCode} {s : State} {f : Fault}
    (hi : encode c i = .peState code) (h : exec i s = .fault f) : s.activePe = none := by
  obtain ⟨-, rule, hex⟩ | ⟨-, hex⟩ := exec_peState hi
  · exact peCycle_fault ((hex s).symm.trans h)
  · by_contra hne
    obtain ⟨⟨n, pe⟩, ha⟩ := Option.ne_none_iff_exists'.mp hne
    rw [hex, errorCycle_active ha] at h
    cases h

/-- In a well-formed state the turn is that of an agent the state holds. -/
theorem agent_of_inFormat {s : State} (h : s.InFormat) :
    (∃ n pe, s.turn = .pe n ∧ s.pes[n]? = some pe) ∨
      ∃ p q, s.turn = .port p ∧ s.ports[p]? = some q := by
  have hlegal := h.turn
  cases ht : s.turn with
  | pe n =>
    rw [ht] at hlegal
    have hlt : n < s.pes.length := h.peCount ▸ of_decide_eq_true hlegal
    exact .inl ⟨n, _, rfl, List.getElem?_eq_getElem hlt⟩
  | port p =>
    rw [ht] at hlegal
    have hlt : p < s.ports.length := h.portCount ▸ of_decide_eq_true hlegal
    exact .inr ⟨p, _, rfl, List.getElem?_eq_getElem hlt⟩

/-- Settles O60: the agent whose turn it is exists, and its instruction is of its kind. -/
theorem wellFormedNeverFaults : Obligations.WellFormedNeverFaults := by
  intro s f hs h
  obtain ⟨i, hf, hx⟩ := step_fault h
  obtain ⟨n, pe, ht, hp⟩ | ⟨p, q, ht, hq⟩ := agent_of_inFormat (state_wf_iff.mp hs)
  · obtain rfl := fetch_pe hf ht hp
    have hnone := exec_peState_fault (encode_decodeState s.params pe.state) hx
    simp [activePe_eq.mpr ⟨ht, hp⟩] at hnone
  · obtain ⟨we, wt, lo, hi, r, e, b, -, -, -, rfl⟩ := decodeBank_ok (fetch_port hf ht)
    obtain ⟨bits, hbits⟩ := encode_bankInstr s.params we wt lo hi r e b
    have hnone := exec_bank_fault hbits hx
    simp [activePort_eq.mpr ⟨ht, hq⟩] at hnone

/-! ## The global reset (R277, R300) -/

theorem resetOf_faultFree (c : Params) (run : Nat) : (State.resetOf c run).faultFree = true := by
  obtain ⟨-, -, hpes, hports, -⟩ := resetValues c run
  simp only [State.faultFree, Bool.and_eq_true, List.all_eq_true, Option.isNone_iff_eq_none]
  refine ⟨fun pe hpe => ?_, fun q hq => ?_⟩
  · obtain ⟨-, -, -, hnone, -⟩ := hpes pe hpe
    exact hnone
  · obtain ⟨-, hnone⟩ := hports q hq
    exact hnone

/-- Settles O55, by the reset state. -/
theorem globalResetRestarts : Obligations.GlobalResetRestarts := by
  intro s rest hs
  have hr : s.resetAsked = true := by rw [State.resetAsked, hs]
  have hrest : s.globalReset.stimulus = rest := by rw [globalReset_stimulus, hs, List.tail_cons]
  exact ⟨s.globalReset, by rw [step, if_pos hr], rfl, rfl, resetOf_faultFree s.params (s.run + 1),
    rfl, rfl, rfl, hrest⟩

/-! ## Breaches of the environment's duties (R280, R302) -/

theorem not_isErrorState_of_waitsForUnit {code : StateCode} (h : waitsForUnit code = true) :
    isErrorState code = false := by
  obtain rfl | rfl := waitsForUnit_iff.mp h <;> decide

section breach
variable {s : State} {n : Nat} {pe : Pe} {i : Instr} {code : StateCode}
variable (ha : s.activePe = some (n, pe)) (hi : encode s.params i = .peState code)
  (he : isErrorState code = false)
include ha hi he

/-- A breach of a duty is refused in every state but ERROR. -/
theorem exec_refused_of_breach (hb : peBreach s.params code pe (s.peInput n) ≠ none) :
    ∃ r, exec i s = .refused r := by
  obtain ⟨r, hr⟩ := Option.ne_none_iff_exists'.mp hb
  exact ⟨r, by simp [exec_ruleOf hi he, peCycle, ha, hr]⟩

/-- A changed semi-static field is a breach. -/
theorem exec_refused_of_semiStatic_ne {ss : SemiStatic} (hv : (s.peInput n).reqValid = true)
    (hss : pe.alloc = some ss) (hne : semiStatic (s.peInput n).req ≠ ss) :
    ∃ r, exec i s = .refused r := by
  refine exec_refused_of_breach ha hi he fun hb => ?_
  obtain ⟨-, -, hkept, -⟩ := peBreach_none.mp hb
  simp [semiStaticBroken, hss, hv, hne] at hkept

/-- An advance with no weights is a breach. -/
theorem exec_refused_of_numWeights_zero (hv : (s.peInput n).reqValid = true)
    (hu : waitsForUnit code = true → (s.peInput n).afRespValid = true)
    (hnw : (s.peInput n).req.numWeights = 0) : ∃ r, exec i s = .refused r := by
  have hadv : advances code (s.peInput n) = true := by
    cases hw : waitsForUnit code with
    | true => rw [advances_eq_reqValid_and_afRespValid he hw, hv, hu hw, Bool.and_self]
    | false => rw [advances_eq_reqValid he hw, hv]
  refine exec_refused_of_breach ha hi he fun hb => ?_
  obtain ⟨-, -, -, -, hweights, -⟩ := peBreach_none.mp hb
  exact hweights hadv hnw

end breach

section unit
variable {s : State} {n : Nat} {pe : Pe} {i : Instr} {code : StateCode}
variable (ha : s.activePe = some (n, pe)) (hi : encode s.params i = .peState code)
  (hu : waitsForUnit code = true)
include ha hi hu

/-- A unit response that is withdrawn or changed is a breach. -/
theorem exec_refused_of_withdrawn {v : Elem} (hv : pe.afSeen = some v)
    (hgone : (s.peInput n).afRespValid = false ∨ (s.peInput n).afOut ≠ v) :
    ∃ r, exec i s = .refused r := by
  refine exec_refused_of_breach ha hi (not_isErrorState_of_waitsForUnit hu) fun hb => ?_
  obtain ⟨-, -, -, hkept, -⟩ := peBreach_none.mp hb
  simp only [unitResponseBroken, hv, hu, Bool.true_and, Bool.not_eq_false', Bool.and_eq_true,
    beq_iff_eq] at hkept
  obtain ⟨hvalid, hout⟩ := hkept
  obtain hgone | hgone := hgone
  · simp [hvalid] at hgone
  · exact hgone hout

/-- A unit response that is no answer to a request presented is a breach. -/
theorem exec_refused_of_no_answer (hr : (s.peInput n).afRespValid = true)
    (hno : ∀ a, presented s.params code pe (s.peInput n) = some a →
      (s.peInput n).afOut ≠ unitAnswer s.params a) : ∃ r, exec i s = .refused r := by
  refine exec_refused_of_breach ha hi (not_isErrorState_of_waitsForUnit hu) fun hb => ?_
  obtain ⟨-, -, -, -, -, hanswer⟩ := peBreach_none.mp hb
  obtain ⟨a, hpres, hout⟩ := unitAnswerBreach_none.mp hanswer hu hr
  exact hno a hpres hout

omit ha hi in
/-- In a cycle without a request the one presented is the latest before it. -/
theorem presented_of_not_valid {c : Params} {inp : PeInput} (hv : inp.reqValid = false) :
    presented c code pe inp = pe.afAsked := by
  simp [presented, hu, hv]

end unit

/-- An address that names no block or element is refused where no violation is raised (R63). -/
theorem bankCycle_outOfRange {r p : Nat} {w : Option WriteCmd} {s : State} {q : Port}
    (h : PortReady s p q) (hv : w.bind (violation p s.cycle q.pend) = none)
    (ho : outOfRange s.params r w = true) : bankCycle r w s = .refused .addressOutOfRange := by
  simp [bankCycle, h.active, h.sound, hv, ho]

theorem bankCycle_write_outOfRange {r p : Nat} {s : State} {q : Port} {wc : WriteCmd}
    (h : PortReady s p q) (htype : wc.wType ≠ 3)
    (ho : s.params.nb ≤ r ∨ s.params.nb ≤ wc.waddrHi ∨ s.params.epb ≤ wc.waddrLo)
    (hsame : q.pend.valid = true ∧ q.pend.addrHi = wc.waddrHi → q.pend.wType = wc.wType) :
    bankCycle r (some wc) s = .refused .addressOutOfRange :=
  bankCycle_outOfRange h
    (violation_none.mpr ⟨htype, fun hs => (hsame (sameBlock_iff.mp hs)).symm⟩)
    (by simpa [outOfRange] using ho)

/-- Settles O35, duty by duty. -/
theorem brokenDutiesAreRefused : Obligations.BrokenDutiesAreRefused := by
  refine ⟨fun s n pe i code ss ha hi he => exec_refused_of_semiStatic_ne ha hi he,
    fun s n pe i code ha hi he => exec_refused_of_numWeights_zero ha hi he,
    fun s n pe i code v ha hi hu => exec_refused_of_withdrawn ha hi hu,
    fun s n pe i code ha hi hu hr => ⟨fun hv hnone => ?unasked, fun hv a hasked hne => ?another,
      fun hv hne => ?wrong⟩,
    fun s p q r hi lo e b h => ⟨fun hr => ?read, ?element, ?block, ?accumulate⟩⟩
  case unasked =>
    refine exec_refused_of_no_answer ha hi hu hr fun a hpres => ?_
    rw [presented_of_not_valid hu hv, hnone] at hpres
    cases hpres
  case another =>
    refine exec_refused_of_no_answer ha hi hu hr fun a' hpres => ?_
    rw [presented_of_not_valid hu hv, hasked] at hpres
    exact Option.some.inj hpres ▸ hne
  case wrong =>
    refine exec_refused_of_no_answer ha hi hu hr fun a hpres => ?_
    rw [presented_valid hu hv] at hpres
    exact Option.some.inj hpres ▸ hne
  case read => exact bankCycle_outOfRange (w := none) h rfl (by simpa [outOfRange] using hr)
  case element =>
    exact bankCycle_write_outOfRange (wc := ⟨0, hi, lo, e, b⟩) h (show (0 : WType) ≠ 3 by decide)
  case block =>
    exact bankCycle_write_outOfRange (wc := ⟨1, hi, lo, e, b⟩) h (show (1 : WType) ≠ 3 by decide)
  case accumulate =>
    exact bankCycle_write_outOfRange (wc := ⟨2, hi, lo, e, b⟩) h (show (2 : WType) ≠ 3 by decide)

end Sys2Proof.Machine
end

section
/-! SUPPORT. How far a PE is from the end of its allocation (R184, R309): the advances that are
left in each state of each phase, and every rule's advance takes one of them. -/

namespace Sys2Proof.Machine

/-! ## The advances of a pass over the weights -/

/-- How many blocks of the allocation begin at weight `i` or after it (R104). -/
def blocksFrom (c : Params) (ss : SemiStatic) (i : Nat) : Nat :=
  (ss.numWeights.toNat + c.epb - 1) / c.epb - (i + c.epb - 1) / c.epb

/-- The advances that a pass spends from weight `i` on: one for each weight, and `perBlock` for each
block that is still to begin. -/
def passFrom (c : Params) (ss : SemiStatic) (perBlock i : Nat) : Nat :=
  (ss.numWeights.toNat - i) + perBlock * blocksFrom c ss i

/-- Weight `i` is to be processed and is the first of its block. -/
def BlockStart (c : Params) (ss : SemiStatic) (i : Nat) : Prop :=
  i < ss.numWeights.toNat ∧ c.epb ∣ i

section passes
variable {c : Params} {ss : SemiStatic} {i : Nat}

/-- Going on by one weight, the number of blocks begun grows where the weight begins a block. -/
theorem blocks_succ (hc : 1 ≤ c.epb) :
    (i + 1 + c.epb - 1) / c.epb = (i + c.epb - 1) / c.epb + if c.epb ∣ i then 1 else 0 := by
  have hpred : i + 1 + c.epb - 1 = i + c.epb - 1 + 1 := by omega
  have hdvd : c.epb ∣ i + c.epb - 1 + 1 ↔ c.epb ∣ i := by
    rw [show i + c.epb - 1 + 1 = i + c.epb by omega, Nat.dvd_add_self_right]
  rw [hpred, Nat.succ_div]
  simp only [hdvd]

theorem blocksFrom_eq_succ (hc : 1 ≤ c.epb) (hi : i < ss.numWeights.toNat) :
    blocksFrom c ss i = blocksFrom c ss (i + 1) + if c.epb ∣ i then 1 else 0 := by
  have hle : (i + 1 + c.epb - 1) / c.epb ≤ (ss.numWeights.toNat + c.epb - 1) / c.epb :=
    Nat.div_le_div_right (by omega)
  have hsucc := blocks_succ (i := i) hc
  unfold blocksFrom
  omega

theorem passFrom_blockStart (hc : 1 ≤ c.epb) (h : BlockStart c ss i) (perBlock : Nat) :
    passFrom c ss perBlock i = perBlock + 1 + passFrom c ss perBlock (i + 1) := by
  obtain ⟨hi, hdvd⟩ := h
  rw [passFrom, passFrom, blocksFrom_eq_succ hc hi, if_pos hdvd, Nat.mul_succ]
  omega

theorem passFrom_inside (hc : 1 ≤ c.epb) (hi : i < ss.numWeights.toNat) (hdvd : ¬c.epb ∣ i)
    (perBlock : Nat) : passFrom c ss perBlock i = 1 + passFrom c ss perBlock (i + 1) := by
  rw [passFrom, passFrom, blocksFrom_eq_succ hc hi, if_neg hdvd, Nat.add_zero]
  omega

theorem passFrom_numWeights (c : Params) (r : Request) (perBlock : Nat) :
    passFrom c (semiStatic r) perBlock r.numWeights.toNat = 0 := by
  simp [passFrom, blocksFrom, semiStatic]

theorem passFrom_zero (hc : 1 ≤ c.epb) (perBlock : Nat) :
    passFrom c ss perBlock 0 =
      ss.numWeights.toNat + perBlock * ((ss.numWeights.toNat + c.epb - 1) / c.epb) := by
  have hzero : (0 + c.epb - 1) / c.epb = 0 := Nat.div_eq_of_lt (by omega)
  rw [passFrom, blocksFrom, hzero, Nat.sub_zero, Nat.sub_zero]

theorem passFrom_pos (hi : i < ss.numWeights.toNat) (perBlock : Nat) :
    0 < passFrom c ss perBlock i := by
  unfold passFrom
  omega

theorem blockStart_zero (h : ss.numWeights ≠ 0) : BlockStart c ss 0 :=
  ⟨by bv_omega, dvd_zero _⟩

/-- Position `EPB - 1` is the last of a block (R104): the next weight begins one. -/
theorem weightPos_last_iff (hc : 1 ≤ c.epb) {pe : Pe} :
    weightPos c pe + 1 = c.epb ↔ c.epb ∣ pe.index.toNat + 1 := by
  have hlt : weightPos c pe < c.epb := Nat.mod_lt _ hc
  have hsplit : pe.index.toNat + 1 = c.epb * (pe.index.toNat / c.epb) + (weightPos c pe + 1) := by
    rw [weightPos, ← Nat.add_assoc, Nat.div_add_mod]
  rw [hsplit, Nat.dvd_add_right (dvd_mul_right _ _)]
  exact ⟨fun h => h ▸ dvd_rfl, fun h => le_antisymm hlt (Nat.le_of_dvd (Nat.succ_pos _) h)⟩

end passes

/-! ## The advances that each part of an allocation takes (R309) -/

/-- The phases that make a feed-forward pass. -/
abbrev Forward (ss : SemiStatic) : Prop := ss.stateLearn = 0 ∨ ss.stateLearn = 1

/-- The allocation ends with the output of a feed-forward pass. -/
abbrev OnlyForward (ss : SemiStatic) : Prop :=
  ss.stateLearn = 0 ∨ ss.stateLearn = 1 ∧ ss.inLast = false

/-- The allocation comes to a delta, of a hidden layer or of the output layer. -/
abbrev Derives (ss : SemiStatic) : Prop :=
  ss.stateLearn = 3 ∨ ss.stateLearn = 1 ∧ ss.inLast = true

/-- The pass over inputs and weights computes slopes. -/
abbrev Slopes (ss : SemiStatic) : Prop :=
  ss.stateLearn = 2 ∨ ss.stateLearn = 3 ∧ ss.tType = true

/-- The pass over inputs and weights computes weight changes. -/
abbrev Updates (ss : SemiStatic) : Prop :=
  ss.stateLearn = 4 ∨ ss.stateLearn = 3 ∧ ss.tType = false

/-- The advances for each block of inputs and weights besides those for its weights: two to fetch
it, and one to write back what a learning pass computes. -/
def perBlock (ss : SemiStatic) : Nat := if Forward ss then 2 else 3

/-- The advances after the last block of slopes or weight changes: WEIGHT_UPDATE_WRITE_BIAS or
none. -/
def afterUpdates (ss : SemiStatic) : Nat := if Slopes ss then 0 else 1

/-- The advances after the last block of delta-weight products: DONE or none. -/
def afterProducts (ss : SemiStatic) : Nat := if ss.stateLearn = 3 then 0 else 1

/-- The advances after COMPUTE_DELTA: a learning pass at once, or DELTA_WRITE_BACK and a pass. -/
def afterDelta (c : Params) (ss : SemiStatic) : Nat :=
  if ss.stateLearn = 3 ∧ ss.inFirst = true then passFrom c ss 3 0 + afterUpdates ss
  else 1 + passFrom c ss 3 0 + afterProducts ss

/-- The advances after COMPUTE_DERIVATIVE: with the expected output and the error, or COMPUTE_DELTA
at once. -/
def afterDerivative (c : Params) (ss : SemiStatic) : Nat :=
  if ss.stateLearn = 3 then 1 + afterDelta c ss else 5 + afterDelta c ss

/-- The advances after ACTIVATION_FUNCTION: COMPUTE_DERIVATIVE and on, or DONE. -/
def afterActivation (c : Params) (ss : SemiStatic) : Nat :=
  if Derives ss then 1 + afterDerivative c ss else 1

/-- The advances after the last block of inputs and weights. -/
def afterWeights (c : Params) (ss : SemiStatic) : Nat :=
  if Forward ss then 1 + afterActivation c ss else afterUpdates ss

/-- The advances after WAIT_FOR_INFO. -/
def afterInfo (c : Params) (ss : SemiStatic) : Nat :=
  if ss.stateLearn = 3 then 6 + afterDelta c ss
  else (if ss.stateLearn = 4 then 2 else 0) + passFrom c ss (perBlock ss) 0 + afterWeights c ss

theorem stateLearn_cases {phase : Selector} (h : phase.toNat ≤ 4) :
    phase = 0 ∨ phase = 1 ∨ phase = 2 ∨ phase = 3 ∨ phase = 4 := by
  bv_omega

section phases
variable {c : Params} {ss : SemiStatic}

theorem phase_cases (h : ss.stateLearn.toNat ≤ 4) : Forward ss ∨ Slopes ss ∨ Updates ss := by
  obtain hsl | hsl | hsl | hsl | hsl := stateLearn_cases h
  · exact .inl (.inl hsl)
  · exact .inl (.inr hsl)
  · exact .inr (.inl (.inl hsl))
  · cases ht : ss.tType with
    | true => exact .inr (.inl (.inr ⟨hsl, ht⟩))
    | false => exact .inr (.inr (.inr ⟨hsl, ht⟩))
  · exact .inr (.inr (.inl hsl))

theorem not_forward_of_slopes (h : Slopes ss) : ¬Forward ss := by
  obtain hsl | ⟨hsl, -⟩ := h <;> rw [Forward, hsl] <;> decide

theorem not_forward_of_updates (h : Updates ss) : ¬Forward ss := by
  obtain hsl | ⟨hsl, -⟩ := h <;> rw [Forward, hsl] <;> decide

theorem not_forward_of_errorBackprop (h : ss.stateLearn = 3) : ¬Forward ss := by
  rw [Forward, h]
  decide

theorem not_slopes_of_updates (h : Updates ss) : ¬Slopes ss := by
  obtain hsl | ⟨hsl, ht⟩ := h
  · rw [Slopes, hsl]
    simp
  · rw [Slopes, hsl, ht]
    simp

theorem perBlock_forward (h : Forward ss) : perBlock ss = 2 := if_pos h

theorem perBlock_learning (h : ¬Forward ss) : perBlock ss = 3 := if_neg h

theorem perBlock_pos (ss : SemiStatic) : 0 < perBlock ss := by
  unfold perBlock
  split_ifs <;> decide

theorem afterWeights_forward (h : Forward ss) : afterWeights c ss = 1 + afterActivation c ss :=
  if_pos h

theorem afterWeights_learning (h : ¬Forward ss) : afterWeights c ss = afterUpdates ss := if_neg h

theorem afterWeights_slopes (h : Slopes ss) : afterWeights c ss = 0 := by
  rw [afterWeights_learning (not_forward_of_slopes h), afterUpdates, if_pos h]

theorem afterWeights_updates (h : Updates ss) : afterWeights c ss = 1 := by
  rw [afterWeights_learning (not_forward_of_updates h), afterUpdates,
    if_neg (not_slopes_of_updates h)]

theorem afterInfo_errorBackprop (h : ss.stateLearn = 3) :
    afterInfo c ss = 6 + afterDelta c ss := if_pos h

theorem afterInfo_weightUpdate (h : ss.stateLearn = 4) :
    afterInfo c ss = 2 + passFrom c ss 3 0 + 1 := by
  have hu : Updates ss := .inl h
  have h3 : ss.stateLearn ≠ 3 := by
    rw [h]
    decide
  rw [afterInfo, if_neg h3, if_pos h, perBlock_learning (not_forward_of_updates hu),
    afterWeights_updates hu]

theorem afterInfo_fetch (h3 : ss.stateLearn ≠ 3) (h4 : ss.stateLearn ≠ 4) :
    afterInfo c ss = passFrom c ss (perBlock ss) 0 + afterWeights c ss := by
  rw [afterInfo, if_neg h3, if_neg h4, Nat.zero_add]

end phases

/-- The parts of an allocation take the advances that R309 lists. -/
theorem allocationAdvances_eq {c : Params} {r : Request} (hc : 1 ≤ c.epb)
    (h : r.stateLearn.toNat ≤ 4) :
    allocationAdvances c r = 3 + afterInfo c (semiStatic r) := by
  obtain hsl | hsl | hsl | hsl | hsl := stateLearn_cases h
  all_goals
    simp only [allocationAdvances, afterInfo, afterWeights, afterActivation, afterDerivative,
      afterDelta, afterUpdates, afterProducts, perBlock, passFrom_zero hc, semiStatic, Forward,
      Derives, Slopes, hsl, Phase.feedforward, Phase.learnFeedforward, Phase.updateSlope,
      Phase.errorBackprop]
  · simp
    omega
  · cases r.inLast <;> simp <;> omega
  · simp
    omega
  · cases r.inFirst <;> cases r.tType <;> simp <;> omega
  · simp
    omega

end Sys2Proof.Machine
end

section
/-! SUPPORT. The course of an allocation (R176 to R256, R309): in each state and at each index, the
advances that are left, of which every rule takes one. -/

namespace Sys2Proof.Machine

/-- A PE in the given state with the given index, on its course through an allocation with the
fields `ss`, is the given number of advances from the end: 0 in UNALLOCATED after it, all of them
before it (`ruleOf_due`: every rule takes one). -/
inductive Due (c : Params) (ss : SemiStatic) : StateCode → Nat → Nat → Prop
  | ended : Due c ss Code.unallocated ss.numWeights.toNat 0
  | unallocated (i : Nat) : Due c ss Code.unallocated i (3 + afterInfo c ss)
  | getInfo (i : Nat) : Due c ss Code.getInfo i (2 + afterInfo c ss)
  | waitForInfo : Due c ss Code.waitForInfo 0 (1 + afterInfo c ss)
  | requestInputsAndWeights {i : Nat} (hi : BlockStart c ss i) :
    Due c ss Code.requestInputsAndWeights i (passFrom c ss (perBlock ss) i + afterWeights c ss)
  | waitForInputsAndWeights {i : Nat} (hi : BlockStart c ss i) :
    Due c ss Code.waitForInputsAndWeights i
      (perBlock ss + passFrom c ss (perBlock ss) (i + 1) + afterWeights c ss)
  | run {i : Nat} (hf : Forward ss) (hi : i < ss.numWeights.toNat) :
    Due c ss Code.run i (1 + passFrom c ss 2 (i + 1) + (1 + afterActivation c ss))
  | activationFunction (hf : Forward ss) :
    Due c ss Code.activationFunction ss.numWeights.toNat (1 + afterActivation c ss)
  | computeDerivative (hd : Derives ss) (i : Nat) :
    Due c ss Code.computeDerivative i (1 + afterDerivative c ss)
  | requestExpectedOutput (hd : Derives ss) (i : Nat) :
    Due c ss Code.requestExpectedOutput i (5 + afterDelta c ss)
  | waitForExpectedOutput (hd : Derives ss) (i : Nat) :
    Due c ss Code.waitForExpectedOutput i (4 + afterDelta c ss)
  | computeError (hd : Derives ss) (i : Nat) : Due c ss Code.computeError i (3 + afterDelta c ss)
  | errorFunction (hd : Derives ss) (i : Nat) : Due c ss Code.errorFunction i (2 + afterDelta c ss)
  | computeDelta (hd : Derives ss) (i : Nat) : Due c ss Code.computeDelta i (1 + afterDelta c ss)
  | deltaWriteBack (hd : Derives ss) :
    Due c ss Code.deltaWriteBack 0 (1 + passFrom c ss 3 0 + afterProducts ss)
  | errorBackpropRequestWeights {i : Nat} (hd : Derives ss) (hi : BlockStart c ss i) :
    Due c ss Code.errorBackpropRequestWeights i (passFrom c ss 3 i + afterProducts ss)
  | errorBackpropWaitForWeights {i : Nat} (hd : Derives ss) (hi : BlockStart c ss i) :
    Due c ss Code.errorBackpropWaitForWeights i (3 + passFrom c ss 3 (i + 1) + afterProducts ss)
  | errorBackpropDeltaWeightMul {i : Nat} (hd : Derives ss) (hi : i < ss.numWeights.toNat) :
    Due c ss Code.errorBackpropDeltaWeightMul i (2 + passFrom c ss 3 (i + 1) + afterProducts ss)
  | errorBackpropWeightWb {i : Nat} (hd : Derives ss)
      (hi : i = ss.numWeights.toNat ∨ BlockStart c ss i) :
    Due c ss Code.errorBackpropWeightWb i (1 + passFrom c ss 3 i + afterProducts ss)
  | requestOutputsErrorBackprop (hb : ss.stateLearn = 3) (i : Nat) :
    Due c ss Code.requestOutputsErrorBackprop i (6 + afterDelta c ss)
  | waitForOutputsErrorBackprop (hb : ss.stateLearn = 3) (i : Nat) :
    Due c ss Code.waitForOutputsErrorBackprop i (5 + afterDelta c ss)
  | requestDeltaWeightProductErrorBackprop (hb : ss.stateLearn = 3) (i : Nat) :
    Due c ss Code.requestDeltaWeightProductErrorBackprop i (4 + afterDelta c ss)
  | waitForDeltaWeightProductErrorBackprop (hb : ss.stateLearn = 3) (i : Nat) :
    Due c ss Code.waitForDeltaWeightProductErrorBackprop i (3 + afterDelta c ss)
  | done : Due c ss Code.done ss.numWeights.toNat 1
  | runUpdateSlope {i : Nat} (hs : Slopes ss) (hi : i < ss.numWeights.toNat) :
    Due c ss Code.runUpdateSlope i (2 + passFrom c ss 3 (i + 1) + 0)
  | slopeWb {i : Nat} (hs : Slopes ss) (hi : i = ss.numWeights.toNat ∨ BlockStart c ss i) :
    Due c ss Code.slopeWb i (1 + passFrom c ss 3 i + 0)
  | weightUpdateRequestDelta (hu : ss.stateLearn = 4) :
    Due c ss Code.weightUpdateRequestDelta 0 (2 + passFrom c ss 3 0 + 1)
  | weightUpdateWaitForDelta (hu : ss.stateLearn = 4) :
    Due c ss Code.weightUpdateWaitForDelta 0 (1 + passFrom c ss 3 0 + 1)
  | runWeightUpdate {i : Nat} (hu : Updates ss) (hi : i < ss.numWeights.toNat) :
    Due c ss Code.runWeightUpdate i (2 + passFrom c ss 3 (i + 1) + 1)
  | weightUpdateWriteBack {i : Nat} (hu : Updates ss)
      (hi : i = ss.numWeights.toNat ∨ BlockStart c ss i) :
    Due c ss Code.weightUpdateWriteBack i (1 + passFrom c ss 3 i + 1)
  | weightUpdateWriteBias (hu : Updates ss) :
    Due c ss Code.weightUpdateWriteBias ss.numWeights.toNat 1

section due
variable {c : Params} {ss : SemiStatic} {code : StateCode} {i k : Nat}

theorem Due.of_eq {k' : Nat} (h : Due c ss code i k) (hk : k = k') : Due c ss code i k' := hk ▸ h

theorem Due.of_index {i' : Nat} (h : Due c ss code i k) (hi : i' = i) : Due c ss code i' k :=
  hi ▸ h

theorem due_not_isErrorState (h : Due c ss code i k) : isErrorState code = false := by
  cases h <;> rfl

/-- With no advance left, the PE is in UNALLOCATED and has processed every weight. -/
theorem due_zero (h : Due c ss code i 0) : code = Code.unallocated ∧ i = ss.numWeights.toNat := by
  generalize hk : 0 = k at h
  cases h with
  | ended => exact ⟨rfl, rfl⟩
  | requestInputsAndWeights hi =>
    have hpos := passFrom_pos hi.1 (perBlock ss) (c := c)
    omega
  | errorBackpropRequestWeights _ hi =>
    have hpos := passFrom_pos hi.1 3 (c := c)
    omega
  | waitForInputsAndWeights =>
    have hpos := perBlock_pos ss
    omega
  | _ => omega

/-- In UNALLOCATED an allocation is over or has not begun. -/
theorem due_unallocated (h : Due c ss Code.unallocated i k) : k = 0 ∨ k = 3 + afterInfo c ss := by
  generalize hcode : Code.unallocated = code at h
  cases h with
  | ended => exact .inl rfl
  | unallocated => exact .inr rfl
  | _ => exact absurd hcode (by decide)

/-- The states of an allocation that ends with the output of a feed-forward pass. -/
def forwardStates : List StateCode :=
  [Code.unallocated, Code.getInfo, Code.waitForInfo, Code.requestInputsAndWeights,
   Code.waitForInputsAndWeights, Code.run, Code.activationFunction, Code.done]

theorem not_derives_of_onlyForward (h : OnlyForward ss) : ¬Derives ss := by
  obtain hsl | ⟨hsl, hlast⟩ := h
  · rw [Derives, hsl]
    simp
  · rw [Derives, hsl, hlast]
    simp

theorem due_onlyForward (h : Due c ss code i k) (hf : OnlyForward ss) : code ∈ forwardStates := by
  have hno := not_derives_of_onlyForward hf
  have hphases : ¬Slopes ss ∧ ¬Updates ss ∧ ss.stateLearn ≠ 4 := by
    obtain hsl | ⟨hsl, -⟩ := hf <;> simp [Slopes, Updates, hsl]
  obtain ⟨hslopes, hupdates, hweights⟩ := hphases
  cases h with
  | computeDerivative hd | requestExpectedOutput hd | waitForExpectedOutput hd | computeError hd
  | errorFunction hd | computeDelta hd | deltaWriteBack hd | errorBackpropRequestWeights hd
  | errorBackpropWaitForWeights hd | errorBackpropDeltaWeightMul hd | errorBackpropWeightWb hd =>
    exact absurd hd hno
  | requestOutputsErrorBackprop hb | waitForOutputsErrorBackprop hb
  | requestDeltaWeightProductErrorBackprop hb | waitForDeltaWeightProductErrorBackprop hb =>
    exact absurd (.inl hb) hno
  | runUpdateSlope hs | slopeWb hs => exact absurd hs hslopes
  | runWeightUpdate hu | weightUpdateWriteBack hu | weightUpdateWriteBias hu =>
    exact absurd hu hupdates
  | weightUpdateRequestDelta hu | weightUpdateWaitForDelta hu => exact absurd hu hweights
  | _ => decide

end due

/-! ## The rules that process weights (R200, R232, R250, R254) -/

section rules
variable {x : PeCtx} {pe : Pe}

/-- Going on by one weight does not wrap the index. -/
theorem index_succ {nw : BitVec 8} (h : pe.index.toNat < nw.toNat) :
    (pe.index + 1).toNat = pe.index.toNat + 1 := by
  bv_omega

variable {r : Request}

/-- After the last weight of a block, or of all, the pass is at the block's end. -/
theorem blockStart_succ_of_exhausted {c : Params} (hc : 1 ≤ c.epb)
    (hi : pe.index.toNat < r.numWeights.toNat) (h : exhausted c r pe = true) :
    pe.index.toNat + 1 = r.numWeights.toNat ∨
      BlockStart c (semiStatic r) (pe.index.toNat + 1) := by
  by_cases hlast : pe.index.toNat + 1 = r.numWeights.toNat
  · exact .inl hlast
  · have hpos := (exhausted_iff.mp h).resolve_left hlast
    exact .inr ⟨show _ < r.numWeights.toNat by omega, (weightPos_last_iff hc).mp hpos⟩

/-- Before that it is inside a block, with weights left. -/
theorem inside_of_not_exhausted {c : Params} (hc : 1 ≤ c.epb)
    (hi : pe.index.toNat < r.numWeights.toNat) (h : ¬exhausted c r pe = true) :
    pe.index.toNat + 1 < r.numWeights.toNat ∧ ¬c.epb ∣ pe.index.toNat + 1 := by
  obtain ⟨hlast, hpos⟩ := not_or.mp (mt exhausted_iff.mpr h)
  exact ⟨by omega, mt (weightPos_last_iff hc).mpr hpos⟩

/-- A learning pass takes one advance for a weight: on to the write-back at the end of its block,
or to the next weight. -/
theorem due_of_weight {c : Params} {written again : StateCode} {rest : Nat} (hc : 1 ≤ c.epb)
    (hi : pe.index.toNat < r.numWeights.toNat)
    (hw : ∀ i, i = r.numWeights.toNat ∨ BlockStart c (semiStatic r) i →
      Due c (semiStatic r) written i (1 + passFrom c (semiStatic r) 3 i + rest))
    (ha : ∀ i, i < r.numWeights.toNat →
      Due c (semiStatic r) again i (2 + passFrom c (semiStatic r) 3 (i + 1) + rest)) :
    Due c (semiStatic r) (if exhausted c r pe then written else again) (pe.index + 1).toNat
      (1 + passFrom c (semiStatic r) 3 (pe.index.toNat + 1) + rest) := by
  rw [index_succ hi]
  split
  · rename_i hend
    exact hw _ (blockStart_succ_of_exhausted hc hi hend)
  · rename_i hend
    obtain ⟨hlt, hdvd⟩ := inside_of_not_exhausted hc hi hend
    have hpass := passFrom_inside (ss := semiStatic r) hc hlt hdvd 3
    exact (ha _ hlt).of_eq (by omega)

/-- A write-back takes one advance: to the end of the pass after the last weight, or on to the next
block. -/
theorem due_of_writeBack {c : Params} {finished more : StateCode} {rest : Nat}
    (hi : pe.index.toNat = r.numWeights.toNat ∨ BlockStart c (semiStatic r) pe.index.toNat)
    (hf : Due c (semiStatic r) finished r.numWeights.toNat rest)
    (hm : ∀ i, BlockStart c (semiStatic r) i →
      Due c (semiStatic r) more i (passFrom c (semiStatic r) 3 i + rest)) :
    Due c (semiStatic r) (if allWeights r pe then finished else more) pe.index.toNat
      (passFrom c (semiStatic r) 3 pe.index.toNat + rest) := by
  split
  · rename_i hall
    rw [allWeights_iff.mp hall]
    exact hf.of_eq (by rw [passFrom_numWeights, Nat.zero_add])
  · rename_i hall
    have hne : pe.index.toNat ≠ r.numWeights.toNat :=
      fun h => hall (allWeights_iff.mpr (BitVec.eq_of_toNat_eq h))
    exact hm _ (hi.resolve_left hne)

/-! ## Every rule takes one advance -/

/-- Registers `u` are `k` advances from the end of the allocation of the request of `x`. -/
def DueAfter (x : PeCtx) (u : Pe) (k : Nat) : Prop :=
  Due x.params (semiStatic x.req) u.state u.index.toNat k

theorem ruleWaitForInfo_due (hnw : x.req.numWeights ≠ 0) (hsl : x.req.stateLearn.toNat ≤ 4)
    (hi : pe.index.toNat = 0) :
    DueAfter x (ruleWaitForInfo x pe) (afterInfo x.params (semiStatic x.req)) := by
  obtain hle | hsl | hsl : x.req.stateLearn.toNat ≤ 2 ∨ x.req.stateLearn.toNat = 3 ∨
      x.req.stateLearn.toNat = 4 := by omega
  · rw [ruleWaitForInfo_feedforward_updateSlope pe hle]
    have h3 : x.req.stateLearn ≠ 3 := by bv_omega
    have h4 : x.req.stateLearn ≠ 4 := by bv_omega
    show Due _ _ Code.requestInputsAndWeights pe.index.toNat _
    rw [hi, afterInfo_fetch h3 h4]
    exact .requestInputsAndWeights (blockStart_zero hnw)
  · rw [ruleWaitForInfo_errorBackprop pe hsl]
    have h3 : (semiStatic x.req).stateLearn = 3 := BitVec.eq_of_toNat_eq hsl
    rw [afterInfo_errorBackprop h3]
    exact .requestOutputsErrorBackprop h3 _
  · rw [ruleWaitForInfo_weightUpdate pe hsl]
    have h4 : (semiStatic x.req).stateLearn = 4 := BitVec.eq_of_toNat_eq hsl
    show Due _ _ Code.weightUpdateRequestDelta pe.index.toNat _
    rw [hi, afterInfo_weightUpdate h4]
    exact .weightUpdateRequestDelta h4

theorem ruleRequestInputsAndWeights_due
    (hi : BlockStart x.params (semiStatic x.req) pe.index.toNat) :
    DueAfter x (ruleRequestInputsAndWeights x pe)
      (perBlock (semiStatic x.req) +
        passFrom x.params (semiStatic x.req) (perBlock (semiStatic x.req)) (pe.index.toNat + 1) +
        afterWeights x.params (semiStatic x.req)) := by
  unfold ruleRequestInputsAndWeights
  split
  · exact .waitForInputsAndWeights hi
  · exact .waitForInputsAndWeights hi

theorem ruleWaitForInputsAndWeights_of_forward (h : Forward (semiStatic x.req)) :
    ruleWaitForInputsAndWeights x pe = { pe with state := Code.run } := by
  refine ruleWaitForInputsAndWeights_feedforward pe ?_
  have hsl : x.req.stateLearn = 0 ∨ x.req.stateLearn = 1 := h
  bv_omega

theorem ruleWaitForInputsAndWeights_of_slopes (h : Slopes (semiStatic x.req)) :
    ruleWaitForInputsAndWeights x pe = { pe with state := Code.runUpdateSlope } := by
  obtain hsl | ⟨hsl, ht⟩ := h
  · exact ruleWaitForInputsAndWeights_updateSlope pe (congrArg BitVec.toNat hsl)
  · rw [ruleWaitForInputsAndWeights_errorBackprop pe (congrArg BitVec.toNat hsl),
      if_pos (show x.req.tType = true from ht)]

theorem ruleWaitForInputsAndWeights_of_updates (h : Updates (semiStatic x.req)) :
    ruleWaitForInputsAndWeights x pe = { pe with state := Code.runWeightUpdate } := by
  obtain hsl | ⟨hsl, ht⟩ := h
  · exact ruleWaitForInputsAndWeights_weightUpdate pe (congrArg BitVec.toNat hsl)
  · rw [ruleWaitForInputsAndWeights_errorBackprop pe (congrArg BitVec.toNat hsl),
      if_neg (show ¬x.req.tType = true from Bool.eq_false_iff.mp ht)]

theorem ruleWaitForInputsAndWeights_due {k : Nat} (hsl : x.req.stateLearn.toNat ≤ 4)
    (hi : BlockStart x.params (semiStatic x.req) pe.index.toNat)
    (hk : perBlock (semiStatic x.req) +
        passFrom x.params (semiStatic x.req) (perBlock (semiStatic x.req)) (pe.index.toNat + 1) +
        afterWeights x.params (semiStatic x.req) = k + 1) :
    DueAfter x (ruleWaitForInputsAndWeights x pe) k := by
  obtain ⟨hlt, -⟩ := hi
  obtain hf | hs | hu := phase_cases (ss := semiStatic x.req) hsl
  · rw [ruleWaitForInputsAndWeights_of_forward hf]
    rw [perBlock_forward hf, afterWeights_forward hf] at hk
    exact (Due.run hf hlt).of_eq (by omega)
  · rw [ruleWaitForInputsAndWeights_of_slopes hs]
    rw [perBlock_learning (not_forward_of_slopes hs), afterWeights_slopes hs] at hk
    exact (Due.runUpdateSlope hs hlt).of_eq (by omega)
  · rw [ruleWaitForInputsAndWeights_of_updates hu]
    rw [perBlock_learning (not_forward_of_updates hu), afterWeights_updates hu] at hk
    exact (Due.runWeightUpdate hu hlt).of_eq (by omega)

theorem ruleRun_due (hc : 1 ≤ x.params.epb) (hf : Forward (semiStatic x.req))
    (hi : pe.index.toNat < x.req.numWeights.toNat) :
    DueAfter x (ruleRun x pe) (passFrom x.params (semiStatic x.req) 2 (pe.index.toNat + 1) +
      (1 + afterActivation x.params (semiStatic x.req))) := by
  show Due _ _ (if lastWeight x.req pe then _ else if blockEnd x.params pe then _ else _)
    (pe.index + 1).toNat _
  rw [index_succ hi]
  split_ifs with hlast hend
  · rw [lastWeight_iff.mp hlast]
    exact (Due.activationFunction hf).of_eq (by rw [passFrom_numWeights, Nat.zero_add])
  · have hne := mt lastWeight_iff.mpr hlast
    have hlt : pe.index.toNat + 1 < x.req.numWeights.toNat := by omega
    have hdvd := (weightPos_last_iff hc).mp (blockEnd_iff.mp hend)
    refine (Due.requestInputsAndWeights ⟨hlt, hdvd⟩).of_eq ?_
    rw [perBlock_forward hf, afterWeights_forward hf]
  · have hne := mt lastWeight_iff.mpr hlast
    have hlt : pe.index.toNat + 1 < x.req.numWeights.toNat := by omega
    have hdvd := mt (weightPos_last_iff hc).mpr (mt blockEnd_iff.mpr hend)
    have hpass := passFrom_inside (ss := semiStatic x.req) hc hlt hdvd 2
    exact (Due.run hf hlt).of_eq (by omega)

theorem ruleActivationFunction_due (hf : Forward (semiStatic x.req))
    (hi : pe.index.toNat = x.req.numWeights.toNat) :
    DueAfter x (ruleActivationFunction x pe) (afterActivation x.params (semiStatic x.req)) := by
  rw [ruleActivationFunction_eq]
  show Due _ _ (if _ then _ else _) pe.index.toNat _
  split
  · rename_i hlast
    have hd : Derives (semiStatic x.req) := .inr hlast
    exact (Due.computeDerivative hd _).of_eq (if_pos hd).symm
  · rename_i hlast
    have hd : ¬Derives (semiStatic x.req) := by
      rintro (h3 | h1)
      · obtain h0 | h0 := hf <;> rw [h0] at h3 <;> exact absurd h3 (by decide)
      · exact hlast h1
    rw [hi]
    exact Due.done.of_eq (if_neg hd).symm

theorem ruleComputeDerivative_due (hd : Derives (semiStatic x.req)) :
    DueAfter x (ruleComputeDerivative x pe) (afterDerivative x.params (semiStatic x.req)) := by
  rw [ruleComputeDerivative_eq]
  show Due _ _ (if _ then _ else _) pe.index.toNat _
  split
  · rename_i h3
    exact (Due.computeDelta hd _).of_eq (if_pos h3).symm
  · rename_i h3
    exact (Due.requestExpectedOutput hd _).of_eq (if_neg h3).symm

theorem ruleComputeDelta_due (hnw : x.req.numWeights ≠ 0) (hd : Derives (semiStatic x.req)) :
    DueAfter x (ruleComputeDelta x pe) (afterDelta x.params (semiStatic x.req)) := by
  rw [ruleComputeDelta_eq rfl]
  split
  · rename_i h3
    show Due _ _ (if _ then _ else _) 0 _
    split
    · rename_i hfirst
      have hnf : ¬Forward (semiStatic x.req) := not_forward_of_errorBackprop h3
      refine (Due.requestInputsAndWeights (blockStart_zero hnw)).of_eq ?_
      rw [perBlock_learning hnf, afterWeights_learning hnf, afterDelta, if_pos ⟨h3, hfirst⟩]
    · rename_i hfirst
      exact (Due.deltaWriteBack hd).of_eq (if_neg fun h => hfirst h.2).symm
  · rename_i h3
    exact (Due.deltaWriteBack hd).of_eq (if_neg fun h => h3 h.1).symm

theorem ruleDeltaWriteBack_due (hnw : x.req.numWeights ≠ 0) (hd : Derives (semiStatic x.req))
    (hi : pe.index.toNat = 0) :
    DueAfter x (ruleDeltaWriteBack x pe)
      (passFrom x.params (semiStatic x.req) 3 0 + afterProducts (semiStatic x.req)) := by
  rw [ruleDeltaWriteBack_eq]
  show Due _ _ (if _ then if _ then _ else _ else if _ then _ else _) pe.index.toNat _
  rw [hi]
  split_ifs with h3 hbatch hlast
  · have hs : Slopes (semiStatic x.req) := .inr ⟨h3, hbatch⟩
    refine (Due.requestInputsAndWeights (blockStart_zero hnw)).of_eq ?_
    rw [perBlock_learning (not_forward_of_slopes hs), afterWeights_slopes hs, afterProducts,
      if_pos (show (semiStatic x.req).stateLearn = 3 from h3)]
  · exact .errorBackpropRequestWeights hd (blockStart_zero hnw)
  · exact .errorBackpropRequestWeights hd (blockStart_zero hnw)
  · exact absurd hd (not_or.mpr ⟨h3, hlast⟩)

theorem ruleErrorBackpropWeightWb_due (hd : Derives (semiStatic x.req))
    (hi : pe.index.toNat = x.req.numWeights.toNat ∨
      BlockStart x.params (semiStatic x.req) pe.index.toNat) :
    DueAfter x (ruleErrorBackpropWeightWb x pe)
      (passFrom x.params (semiStatic x.req) 3 pe.index.toNat +
        afterProducts (semiStatic x.req)) := by
  have hstate : (ruleErrorBackpropWeightWb x pe).state =
      if allWeights x.req pe then if x.req.stateLearn = 3 then Code.unallocated else Code.done
      else Code.errorBackpropRequestWeights := by
    simp only [ruleErrorBackpropWeightWb, Bool.not_eq_true', ← Bool.not_eq_true, ite_not,
      backprop_iff]
  show Due _ _ (ruleErrorBackpropWeightWb x pe).state pe.index.toNat _
  rw [hstate]
  refine due_of_writeBack hi ?_ fun i hi => .errorBackpropRequestWeights hd hi
  split
  · rename_i h3
    exact Due.ended.of_eq (if_pos h3).symm
  · rename_i h3
    exact Due.done.of_eq (if_neg h3).symm

/-- Every advance of a PE on its course takes one of the advances that are left. -/
theorem ruleOf_due {code : StateCode} {i j k : Nat} (hc : 1 ≤ x.params.epb)
    (hnw : x.req.numWeights ≠ 0) (hsl : x.req.stateLearn.toNat ≤ 4)
    (hd : Due x.params (semiStatic x.req) code i j) (hi : pe.index.toNat = i) (hj : j = k + 1) :
    DueAfter x (ruleOf (decodeState code) x pe) k := by
  cases hd with
  | ended => omega
  | unallocated => exact (Due.getInfo pe.index.toNat).of_eq (by omega)
  | getInfo => exact Due.waitForInfo.of_eq (by omega)
  | waitForInfo => exact (ruleWaitForInfo_due hnw hsl hi).of_eq (by omega)
  | requestInputsAndWeights hstart =>
    subst hi
    have hpass := passFrom_blockStart hc hstart (perBlock (semiStatic x.req))
    exact (ruleRequestInputsAndWeights_due hstart).of_eq (by omega)
  | waitForInputsAndWeights hstart =>
    subst hi
    exact ruleWaitForInputsAndWeights_due hsl hstart hj
  | run hf hlt =>
    subst hi
    exact (ruleRun_due hc hf hlt).of_eq (by omega)
  | activationFunction hf => exact (ruleActivationFunction_due hf hi).of_eq (by omega)
  | computeDerivative hd => exact (ruleComputeDerivative_due hd).of_eq (by omega)
  | requestExpectedOutput hd => exact (Due.waitForExpectedOutput hd _).of_eq (by omega)
  | waitForExpectedOutput hd => exact (Due.computeError hd _).of_eq (by omega)
  | computeError hd => exact (Due.errorFunction hd _).of_eq (by omega)
  | errorFunction hd => exact (Due.computeDelta hd _).of_eq (by omega)
  | computeDelta hd => exact (ruleComputeDelta_due hnw hd).of_eq (by omega)
  | deltaWriteBack hd => exact (ruleDeltaWriteBack_due hnw hd hi).of_eq (by omega)
  | errorBackpropRequestWeights hd hstart =>
    subst hi
    have hpass := passFrom_blockStart hc hstart 3
    exact (Due.errorBackpropWaitForWeights hd hstart).of_eq (by omega)
  | errorBackpropWaitForWeights hd hstart =>
    subst hi
    exact (Due.errorBackpropDeltaWeightMul hd hstart.1).of_eq (by omega)
  | errorBackpropDeltaWeightMul hd hlt =>
    subst hi
    exact (due_of_weight hc hlt (fun _ => .errorBackpropWeightWb hd)
      fun _ => .errorBackpropDeltaWeightMul hd).of_eq (by omega)
  | errorBackpropWeightWb hd hend =>
    subst hi
    exact (ruleErrorBackpropWeightWb_due hd hend).of_eq (by omega)
  | requestOutputsErrorBackprop hb =>
    exact (Due.waitForOutputsErrorBackprop hb _).of_eq (by omega)
  | waitForOutputsErrorBackprop hb =>
    exact (Due.requestDeltaWeightProductErrorBackprop hb _).of_eq (by omega)
  | requestDeltaWeightProductErrorBackprop hb =>
    exact (Due.waitForDeltaWeightProductErrorBackprop hb _).of_eq (by omega)
  | waitForDeltaWeightProductErrorBackprop hb =>
    refine (Due.computeDerivative (.inl hb) _).of_eq ?_
    rw [afterDerivative, if_pos hb]
    omega
  | done => exact (Due.ended.of_index hi).of_eq (by omega)
  | runUpdateSlope hs hlt =>
    subst hi
    exact (due_of_weight hc hlt (fun _ => .slopeWb hs) fun _ => .runUpdateSlope hs).of_eq (by omega)
  | slopeWb hs hend =>
    subst hi
    refine (due_of_writeBack hend .ended fun i hstart => ?_).of_eq (by omega)
    refine (Due.requestInputsAndWeights hstart).of_eq ?_
    rw [perBlock_learning (not_forward_of_slopes hs), afterWeights_slopes hs]
  | weightUpdateRequestDelta hu =>
    exact ((Due.weightUpdateWaitForDelta hu).of_index hi).of_eq (by omega)
  | weightUpdateWaitForDelta hu =>
    have hlearn : Updates (semiStatic x.req) := .inl hu
    have hstart := Due.requestInputsAndWeights
      (blockStart_zero (c := x.params) (ss := semiStatic x.req) hnw)
    refine (hstart.of_index hi).of_eq ?_
    rw [perBlock_learning (not_forward_of_updates hlearn), afterWeights_updates hlearn]
    omega
  | runWeightUpdate hu hlt =>
    subst hi
    exact (due_of_weight hc hlt (fun _ => .weightUpdateWriteBack hu)
      fun _ => .runWeightUpdate hu).of_eq (by omega)
  | weightUpdateWriteBack hu hend =>
    subst hi
    refine (due_of_writeBack hend (.weightUpdateWriteBias hu) fun i hstart => ?_).of_eq (by omega)
    refine (Due.requestInputsAndWeights hstart).of_eq ?_
    rw [perBlock_learning (not_forward_of_updates hu), afterWeights_updates hu]
  | weightUpdateWriteBias => exact (Due.ended.of_index hi).of_eq (by omega)

end rules

end Sys2Proof.Machine
end

section
/-! SUPPORT. A run of one PE offer by offer (R184, R309, R310): each served offer takes one of the
advances that are left, every other offer none, and none of them stops the run. -/

namespace Sys2Proof.Machine

/-- The output is the unit's answer to the accumulator (R174, R201). -/
def Answered (c : Params) (r : Request) (pe : Pe) : Prop :=
  pe.dataOut = wrap c.w
    (Config.af c pe.acc (c.dpo + r.decimalPoint) r.steepness r.activationFunction)

/-- A PE on its course through allocations of the request `r`, with `j` advances left in the one it
is in: no response of the unit and no allocation of other fields is open, and a feed-forward pass
that is over has its answer. -/
structure OnCourse (c : Params) (r : Request) (pe : Pe) (j : Nat) : Prop where
  due      : Due c (semiStatic r) pe.state pe.index.toNat j
  unseen   : waitsForUnit pe.state = true → pe.afSeen = none
  alloc    : ∀ ss, pe.alloc = some ss → ss = semiStatic r
  answered : OnlyForward (semiStatic r) → pe.state = Code.done ∨ j = 0 → Answered c r pe

section onCourse
variable {c : Params} {r : Request} {pe : Pe} {j : Nat}

/-- An allocation that is over is one that is about to begin. -/
theorem OnCourse.restart (h : OnCourse c r pe 0) :
    OnCourse c r pe (2 + afterInfo c (semiStatic r) + 1) where
  due := by
    obtain ⟨hstate, -⟩ := due_zero h.due
    rw [hstate]
    exact (Due.unallocated _).of_eq (by omega)
  unseen   := h.unseen
  alloc    := h.alloc
  answered := fun hf _ => h.answered hf (.inr rfl)

/-- ACTIVATION_FUNCTION latches the unit's answer to the request that the PE presents. -/
theorem answered_activation {x : PeCtx} (hss : semiStatic x.req = semiStatic r)
    (ha : x.afOut = unitAnswer x.params (unitRequest x.params Code.activationFunction x.req pe)) :
    Answered x.params r (ruleActivationFunction x pe) := by
  have hdec : x.req.decimalPoint = r.decimalPoint := congrArg SemiStatic.decimalPoint hss
  have hst : x.req.steepness = r.steepness := congrArg SemiStatic.steepness hss
  have hact : x.req.activationFunction = r.activationFunction :=
    congrArg SemiStatic.activationFunction hss
  rw [Answered, ← hdec, ← hst, ← hact]
  exact ha

/-- In a feed-forward allocation DONE is entered with the unit's answer, and left with it. -/
theorem ruleOf_answered {x : PeCtx} {k : Nat} (hss : semiStatic x.req = semiStatic r)
    (h : OnCourse x.params r pe (k + 1)) (hf : OnlyForward (semiStatic r))
    (ha : waitsForUnit pe.state = true →
      x.afOut = unitAnswer x.params (unitRequest x.params pe.state x.req pe))
    (hend : (ruleOf (decodeState pe.state) x pe).state = Code.done ∨
      (ruleOf (decodeState pe.state) x pe).state = Code.unallocated) :
    Answered x.params r (ruleOf (decodeState pe.state) x pe) := by
  have hmem := ruleOf_state_mem (encode_decodeState x.params pe.state)
    (due_not_isErrorState h.due) x pe
  have hstates := due_onlyForward h.due hf
  have hentered : ∀ code ∈ forwardStates, Code.done ∈ successors code →
      code = Code.activationFunction := by decide
  have hleft : ∀ code ∈ forwardStates, Code.unallocated ∈ successors code → code = Code.done := by
    decide
  obtain hdone | hun := hend
  · have hcode := hentered _ hstates (hdone ▸ hmem)
    rw [hcode] at ha ⊢
    exact answered_activation hss (ha (by decide))
  · have hcode := hleft _ hstates (hun ▸ hmem)
    have hbefore := h.answered hf (.inl hcode)
    rw [hcode]
    exact hbefore

end onCourse

/-! ## One offer -/

/-- The offer is one that serves a PE in state `code` (R170, R171). -/
def Offer.serves (o : Offer) (code : StateCode) : Bool :=
  o.valid && (!waitsForUnit code || o.answer)

section offer
variable {s : State} {n : Nat} {pe : Pe} {o : Offer} {r : Request}

theorem advances_offer (c : Params) (he : isErrorState pe.state = false) :
    advances pe.state (o.input c pe) = o.serves pe.state := by
  rw [advances, ready, he, input_reqValid, input_afRespValid, Offer.serves]
  cases o.valid <;> simp

theorem nextAlloc_eq_some {code next : StateCode} {req : Request} {old : Option SemiStatic}
    {ss : SemiStatic} (h : nextAlloc code next req old = some ss) :
    ss = semiStatic req ∨ old = some ss := by
  unfold nextAlloc at h
  split at h
  · cases h
  · split at h
    · exact .inl (Option.some.inj h).symm
    · exact .inr h

/-- A hold without a response of the unit remembers none. -/
theorem holdPe_afSeen {c : Params} {code : StateCode} {inp : PeInput}
    (h : inp.afRespValid = false) : (holdPe c code inp pe).afSeen = pe.afSeen := by
  simp [holdPe, h]

section course
variable (hc : 1 ≤ s.params.epb) (hnw : r.numWeights ≠ 0) (hsl : r.stateLearn.toNat ≤ 4)
  (ha : s.activePe = some (n, pe)) (hfits : o.req.fits s.params = true)
  (hss : semiStatic o.req = semiStatic r)
include hc hnw hsl ha hfits hss

/-- An offer that serves the PE takes one of the advances that are left. -/
theorem exec_of_serves {k : Nat} (h : OnCourse s.params r pe (k + 1))
    (hv : o.serves pe.state = true) :
    ∃ u, exec (decodeState pe.state) (s.withOffer n pe o) = .next ((s.withOffer n pe o).setPe n u) ∧
      OnCourse s.params r u k := by
  obtain ⟨hvalid, hanswer⟩ : o.valid = true ∧ (waitsForUnit pe.state = true → o.answer = true) := by
    simpa [Offer.serves, imp_iff_not_or] using hv
  have he := due_not_isErrorState h.due
  have hnw' : o.req.numWeights ≠ 0 := by
    rw [show o.req.numWeights = r.numWeights from congrArg SemiStatic.numWeights hss]
    exact hnw
  have hsl' : o.req.stateLearn.toNat ≤ 4 := by
    rw [show o.req.stateLearn = r.stateLearn from congrArg SemiStatic.stateLearn hss]
    exact hsl
  have hserved : Serviced pe.state (s.withOffer n pe o) n pe :=
    offer_serviced ha hvalid (fun hu => ⟨hanswer hu, h.unseen hu⟩) hfits hnw'
      fun ss hs => hss.trans (h.alloc ss hs).symm
  have hreq : ((s.withOffer n pe o).peCtx n).req = o.req := by
    simp [State.peCtx]
  refine ⟨_, (exec_ruleOf (encode_decodeState s.params pe.state) he _).trans
    (peCycle_serviced hserved he), ?_⟩
  have hdue : DueAfter ((s.withOffer n pe o).peCtx n)
      (ruleOf (decodeState pe.state) ((s.withOffer n pe o).peCtx n) pe) k := by
    refine ruleOf_due hc (by rwa [hreq]) (by rwa [hreq]) ?_ rfl rfl
    rw [hreq, hss]
    exact h.due
  rw [DueAfter, hreq, hss] at hdue
  exact
    { due := hdue
      unseen := fun _ => rfl
      alloc := fun ss hs => by
        obtain hnew | hold := nextAlloc_eq_some hs
        · rw [hnew, withOffer_peInput, input_req, hss]
        · exact h.alloc ss hold
      answered := fun hf hend => by
        refine ruleOf_answered (x := (s.withOffer n pe o).peCtx n) (hreq ▸ hss) h hf
          (fun hu => (hserved.unit hu).2.1) (hend.imp_right ?_)
        rintro rfl
        exact (due_zero hdue).1 }

omit hc hnw hsl in
/-- Any other offer takes none. -/
theorem exec_of_not_serves {j : Nat} (h : OnCourse s.params r pe j)
    (hv : o.serves pe.state = false) :
    ∃ u, exec (decodeState pe.state) (s.withOffer n pe o) = .next ((s.withOffer n pe o).setPe n u) ∧
      OnCourse s.params r u j := by
  have he := due_not_isErrorState h.due
  have hidle : o.valid = false ∨ waitsForUnit pe.state = true ∧ o.answer = false := by
    cases hvalid : o.valid <;> simp_all [Offer.serves]
  have hunserved : Unserved pe.state (s.withOffer n pe o) n pe :=
    offer_unserved ha hidle hfits (fun ss hs => hss.trans (h.alloc ss hs).symm) h.unseen
  have hunanswered : ((s.withOffer n pe o).peInput n).afRespValid = false := by
    rw [withOffer_peInput, input_afRespValid]
    obtain hvalid | ⟨-, hanswer⟩ := hidle
    · rw [hvalid, Bool.false_and]
    · rw [hanswer, Bool.and_false]
  refine ⟨_, (exec_ruleOf (encode_decodeState s.params pe.state) he _).trans
    (peCycle_unserved hunserved), ?_⟩
  exact { h with unseen := fun hu => (holdPe_afSeen hunanswered).trans (h.unseen hu) }

end course

end offer

/-! ## A run of offers -/

/-- The registers of a PE after `k` advances from the start of an allocation; after the end of it,
of one more or of several. -/
def AfterAdvances (c : Params) (r : Request) (k : Nat) (pe : Pe) : Prop :=
  ∃ j, OnCourse c r pe j ∧
    (k ≤ 3 + afterInfo c (semiStatic r) → j + k = 3 + afterInfo c (semiStatic r))

theorem AfterAdvances.not_isErrorState {c : Params} {r : Request} {k : Nat} {pe : Pe}
    (h : AfterAdvances c r k pe) : isErrorState pe.state = false := by
  obtain ⟨j, hcourse, -⟩ := h
  exact due_not_isErrorState hcourse.due

/-- There is always an advance to take: of this allocation, or the first of the next. -/
theorem AfterAdvances.exists_succ {c : Params} {r : Request} {k : Nat} {pe : Pe}
    (h : AfterAdvances c r k pe) :
    ∃ j, OnCourse c r pe (j + 1) ∧
      (k + 1 ≤ 3 + afterInfo c (semiStatic r) → j + (k + 1) = 3 + afterInfo c (semiStatic r)) := by
  obtain ⟨j, hcourse, hcount⟩ := h
  cases j with
  | zero => exact ⟨_, hcourse.restart, by omega⟩
  | succ j => exact ⟨j, hcourse, by omega⟩

theorem afterAdvances_zero {c : Params} {r : Request} {pe : Pe}
    (hstate : pe.state = Code.unallocated) (halloc : pe.alloc = none) :
    AfterAdvances c r 0 pe := by
  refine ⟨3 + afterInfo c (semiStatic r), ⟨?due, fun hu => ?unseen, fun ss hs => ?alloc,
    fun _ hend => ?answered⟩, fun _ => rfl⟩
  case due =>
    rw [hstate]
    exact .unallocated _
  case unseen =>
    rw [hstate] at hu
    exact absurd hu (by decide)
  case alloc =>
    rw [halloc] at hs
    cases hs
  case answered =>
    obtain hdone | hzero := hend
    · rw [hstate] at hdone
      exact absurd hdone (by decide)
    · omega

section serve
variable {r : Request} (hnw : r.numWeights ≠ 0) (hsl : r.stateLearn.toNat ≤ 4)
include hnw hsl

/-- One offer does not stop the run, and is an advance exactly where it serves the PE. -/
theorem exec_offer {s : State} {n k : Nat} {pe : Pe} {o : Offer} (hc : 1 ≤ s.params.epb)
    (ha : s.activePe = some (n, pe)) (hfits : o.req.fits s.params = true)
    (hss : semiStatic o.req = semiStatic r) (h : AfterAdvances s.params r k pe) :
    ∃ u, exec (decodeState pe.state) (s.withOffer n pe o) = .next ((s.withOffer n pe o).setPe n u) ∧
      AfterAdvances s.params r
        (k + if advances pe.state (o.input s.params pe) then 1 else 0) u := by
  rw [advances_offer s.params h.not_isErrorState]
  cases hv : o.serves pe.state with
  | true =>
    obtain ⟨j, hcourse, hcount⟩ := h.exists_succ
    obtain ⟨u, hnext, hu⟩ := exec_of_serves hc hnw hsl ha hfits hss hcourse hv
    exact ⟨u, hnext, j, hu, hcount⟩
  | false =>
    obtain ⟨j, hcourse, hcount⟩ := h
    obtain ⟨u, hnext, hu⟩ := exec_of_not_serves ha hfits hss hcourse hv
    exact ⟨u, hnext, j, hu, hcount⟩

/-- A run of offers does not stop; each valid offer to which the unit responds is an advance. -/
theorem serve_offers {os : List Offer} {s : State} {n k : Nat} {pe : Pe} (hc : 1 ≤ s.params.epb)
    (ha : s.activePe = some (n, pe))
    (hos : ∀ o ∈ os, o.req.fits s.params = true ∧ semiStatic o.req = semiStatic r)
    (h : AfterAdvances s.params r k pe) :
    ∃ t a u, s.serve os = some (t, a) ∧ t.activePe = some (n, u) ∧
      os.countP (fun o => o.valid && o.answer) ≤ a ∧ a ≤ os.length ∧
      AfterAdvances s.params r (k + a) u := by
  induction os generalizing s k pe with
  | nil => exact ⟨s, 0, pe, rfl, ha, le_rfl, le_rfl, h⟩
  | cons o os ih =>
    obtain ⟨⟨hfits, hss⟩, hrest⟩ := List.forall_mem_cons.mp hos
    obtain ⟨u, hnext, hu⟩ := exec_offer hnw hsl hc ha hfits hss h
    obtain ⟨t, a, v, hserve, hactive, hmin, hmax, hv⟩ :=
      ih (s := (s.withOffer n pe o).setPe n u) hc (activePe_setPe ha) hrest hu
    refine ⟨t, _, v, by rw [serve_cons ha hnext, hserve]; rfl, hactive, ?min, ?max, ?after⟩
    case min =>
      rw [List.countP_cons, advances_offer s.params h.not_isErrorState, Offer.serves]
      cases o.valid <;> cases o.answer <;> simp <;> omega
    case max =>
      rw [List.length_cons]
      split <;> omega
    case after =>
      rw [Nat.add_assoc] at hv
      exact hv

end serve

/-- What holds after `k` advances: nothing of the end before it, and all of it after the last. -/
theorem AfterAdvances.ends {c : Params} {r : Request} {k : Nat} {pe : Pe}
    (h : AfterAdvances c r k pe) :
    (0 < k → k < 3 + afterInfo c (semiStatic r) → pe.state ≠ Code.unallocated) ∧
      (k = 3 + afterInfo c (semiStatic r) → pe.state = Code.unallocated ∧
        pe.index = r.numWeights ∧ (OnlyForward (semiStatic r) → Answered c r pe)) := by
  obtain ⟨j, hcourse, hcount⟩ := h
  refine ⟨fun hpos hlt hun => ?_, fun hk => ?_⟩
  · have hdue := hcourse.due
    rw [hun] at hdue
    have hj := due_unallocated hdue
    omega
  · obtain rfl : j = 0 := by omega
    obtain ⟨hstate, hindex⟩ := due_zero hcourse.due
    exact ⟨hstate, BitVec.eq_of_toNat_eq hindex, fun hf => hcourse.answered hf (.inr rfl)⟩

/-- Settles O20: each served offer takes one of the advances of R309, and no other offer does. -/
theorem allocationEnds : Obligations.AllocationEnds := by
  intro s m pe r os hok ha hstate halloc hsl hnw hos
  have hc : 1 ≤ s.params.epb := by
    simp only [Params.ok, decide_eq_true_eq] at hok
    omega
  obtain ⟨t, k, u, hserve, hactive, hmin, hmax, hafter⟩ :=
    serve_offers hnw hsl hc ha hos (afterAdvances_zero hstate halloc)
  rw [Nat.zero_add] at hafter
  rw [allocationAdvances_eq hc hsl]
  obtain ⟨hbefore, hend⟩ := hafter.ends
  exact ⟨t, k, u, hserve, hactive, hmin, hmax, hbefore, hend⟩

end Sys2Proof.Machine
end
